-- ==== Sys2Proof/Word.lean ====
section
/-! DEFINITION. The widths the spec fixes (00_scope.md R5): command words, registers, bytes, symbols, bit strings. -/
namespace Sys2Proof

/-- A command word `cw`, 64 bits (R2, R90). -/
abbrev CmdWord := BitVec 64

/-- A register value, a bit-group operand or the bits of a code, 32 bits (R22, R92, R94). -/
abbrev Word := BitVec 32

/-- A packed byte (R106). -/
abbrev Byte := BitVec 8

/-- A symbol: a 21-bit opaque value (R103). -/
abbrev Sym21 := BitVec 21

/-- A bit string, earliest bit first (R6, R120). -/
abbrev Bits := List Bool

end Sys2Proof
end

