-- ==== Sys2Proof/Syntax.lean ====
section
/-! DEFINITION. The command set: one constructor of `Instr` per row of the opcode table (30_encoding.md R98), with its operands. -/
namespace Sys2Proof

/-- The 23 registers of the status and control register space (10_state.md R22). -/
inductive Reg where
  | id | ctrl | status | fcause | fcmdlo | fcmdhi | padcnt | pstate | pbitcnt | pbytecnt
  | ustate | ubytecnt | ubitcnt | dcand | dclen | dbitcnt | dsymcnt | tcount | tidx
  | tentsym | tentlen | tentcode | tcap
deriving DecidableEq, Repr

/-- Where an unpack session releases its bits: operand `dst` of `USTART`, state element `UDST` (R33, R95). -/
inductive Dest where
  | bitOut   -- dst = 0: the output stream BIT_OUT
  | decoder  -- dst = 1: the decoder (a routed session)
deriving DecidableEq, Repr

/-- The sixteen commands (R98), operands as the fields of their formats (R91 to R97, R99). -/
inductive Instr where
  | nop
  | srst
  | pstart
  | pbits (n : BitVec 6) (v : Word)
  | pend
  | encs (sym : Sym21)
  | ustart (pad : BitVec 3) (dst : Dest)
  | ubyte (b : Byte)
  | uend
  | dstart
  | dbits (n : BitVec 6) (v : Word)
  | dend
  | tclr
  | tld (sym : Sym21) (len : BitVec 6) (code : Word)
  | rdsr (r : Reg)
  | wrsr (r : Reg) (v : Word)
deriving DecidableEq, Repr

end Sys2Proof
end

