-- ==== Sys2Proof/WellFormed.lean ====
section
/-! DEFINITION. Which operand values the encoding admits (30_encoding.md R92, R94, R100): the check every decoded command passes. -/
namespace Sys2Proof

/-- A bit count `n` of format B is at most 32 (R92). -/
def groupCountOk (n : BitVec 6) : Bool := decide (n.toNat ≤ 32)

/-- A code length `len` of format T is 1 to 32 (R94). -/
def codeLenOk (len : BitVec 6) : Bool := decide (1 ≤ len.toNat) && decide (len.toNat ≤ 32)

/-- The writes the register space admits: `CTRL` with `v[31:2] = 0`, and `TIDX` with any value (R100 (c), (d)). -/
def writeOk (r : Reg) (v : Word) : Bool :=
  match r with
  | .ctrl => v.extractLsb' 2 30 == 0
  | .tidx => true
  | _ => false

/-- The command is one the decoder can yield (R100, R101). -/
def Instr.wf : Instr → Bool
  | .nop => true
  | .srst => true
  | .pstart => true
  | .pbits n _ => groupCountOk n
  | .pend => true
  | .encs _ => true
  | .ustart _ _ => true
  | .ubyte _ => true
  | .uend => true
  | .dstart => true
  | .dbits n _ => groupCountOk n
  | .dend => true
  | .tclr => true
  | .tld _ len _ => codeLenOk len
  | .rdsr _ => true
  | .wrsr r v => writeOk r v

end Sys2Proof
end

