-- ==== Sys2Proof/Decode.lean ====
section
/-! DEFINITION. The command decoder, total on every 64-bit word and refusing by name (30_encoding.md R98 to R101), and the encoder
written from the same formats. -/
namespace Sys2Proof

/-- The sixteen values of `op` (R98). -/
inductive Op where
  | nop | srst | pstart | pbits | pend | encs | ustart | ubyte
  | uend | dstart | dbits | dend | tclr | tld | rdsr | wrsr
deriving DecidableEq, Repr

/-- Why a word is no command (R100): an illegal word, or a legal word with an operand out of range. -/
inductive DecodeError where
  | illegalCmd
  | badOperand
deriving DecidableEq, Repr

/-- The 4-bit opcode of each row of R98. -/
def Op.code : Op → BitVec 4
  | .nop => 0x0 | .srst => 0x1 | .pstart => 0x2 | .pbits => 0x3
  | .pend => 0x4 | .encs => 0x5 | .ustart => 0x6 | .ubyte => 0x7
  | .uend => 0x8 | .dstart => 0x9 | .dbits => 0xA | .dend => 0xB
  | .tclr => 0xC | .tld => 0xD | .rdsr => 0xE | .wrsr => 0xF

/-- The row of R98 with a given opcode; all sixteen values are assigned. -/
def Op.ofCode (c : BitVec 4) : Op :=
  match c.toNat with
  | 0 => .nop | 1 => .srst | 2 => .pstart | 3 => .pbits
  | 4 => .pend | 5 => .encs | 6 => .ustart | 7 => .ubyte
  | 8 => .uend | 9 => .dstart | 10 => .dbits | 11 => .dend
  | 12 => .tclr | 13 => .tld | 14 => .rdsr | _ => .wrsr

/-- The register numbers of R22. -/
def Reg.number : Reg → BitVec 8
  | .id => 0x00 | .ctrl => 0x01 | .status => 0x02 | .fcause => 0x03
  | .fcmdlo => 0x04 | .fcmdhi => 0x05 | .padcnt => 0x06 | .pstate => 0x07
  | .pbitcnt => 0x08 | .pbytecnt => 0x09 | .ustate => 0x0A | .ubytecnt => 0x0B
  | .ubitcnt => 0x0C | .dcand => 0x0D | .dclen => 0x0E | .dbitcnt => 0x0F
  | .dsymcnt => 0x10 | .tcount => 0x11 | .tidx => 0x12 | .tentsym => 0x13
  | .tentlen => 0x14 | .tentcode => 0x15 | .tcap => 0x16

/-- The register of a number; a number above `0x16` does not exist (R22). -/
def Reg.ofNumber (r : BitVec 8) : Option Reg :=
  match r.toNat with
  | 0 => some .id | 1 => some .ctrl | 2 => some .status | 3 => some .fcause
  | 4 => some .fcmdlo | 5 => some .fcmdhi | 6 => some .padcnt | 7 => some .pstate
  | 8 => some .pbitcnt | 9 => some .pbytecnt | 10 => some .ustate | 11 => some .ubytecnt
  | 12 => some .ubitcnt | 13 => some .dcand | 14 => some .dclen | 15 => some .dbitcnt
  | 16 => some .dsymcnt | 17 => some .tcount | 18 => some .tidx | 19 => some .tentsym
  | 20 => some .tentlen | 21 => some .tentcode | 22 => some .tcap | _ => none

/-- The 1-bit operand `dst` (R95). -/
def Dest.bit : Dest → BitVec 1
  | .bitOut => 0
  | .decoder => 1

/-- The destination a bit names (R95). -/
def Dest.ofBit (b : BitVec 1) : Dest := if b = 0 then .bitOut else .decoder

/-! ## Fields (R90, R99): each operand is one contiguous field of the word -/

/-- `op = cw[63:60]`. -/
def opField (cw : CmdWord) : BitVec 4 := cw.extractLsb' 60 4

/-- `n = cw[58:53]`, and `len = cw[58:53]`. -/
def countField (cw : CmdWord) : BitVec 6 := cw.extractLsb' 53 6

/-- `sym = cw[52:32]`. -/
def symField (cw : CmdWord) : Sym21 := cw.extractLsb' 32 21

/-- `v = cw[31:0]`, and `code = cw[31:0]`. -/
def valueField (cw : CmdWord) : Word := cw.extractLsb' 0 32

/-- `r = cw[39:32]`. -/
def regField (cw : CmdWord) : BitVec 8 := cw.extractLsb' 32 8

/-- `dst = cw[8]`. -/
def dstField (cw : CmdWord) : BitVec 1 := cw.extractLsb' 8 1

/-- `pad = cw[2:0]`. -/
def padField (cw : CmdWord) : BitVec 3 := cw.extractLsb' 0 3

/-- `b = cw[7:0]`. -/
def byteField (cw : CmdWord) : Byte := cw.extractLsb' 0 8

/-! ## The decoder (R101) -/

/-- Every reserved bit of the opcode's format is 0 (R91 to R97; for `RDSR` the field `v` is reserved too). -/
def reservedClear (op : Op) (cw : CmdWord) : Bool :=
  match op with
  | .nop | .srst | .pstart | .pend | .uend | .dstart | .dend | .tclr =>
    cw.extractLsb' 0 60 == 0
  | .pbits | .dbits => cw.extractLsb' 59 1 == 0 && cw.extractLsb' 32 21 == 0
  | .encs => cw.extractLsb' 53 7 == 0 && cw.extractLsb' 0 32 == 0
  | .ustart => cw.extractLsb' 9 51 == 0 && cw.extractLsb' 3 5 == 0
  | .ubyte => cw.extractLsb' 8 52 == 0
  | .tld => cw.extractLsb' 59 1 == 0
  | .rdsr => cw.extractLsb' 40 20 == 0 && cw.extractLsb' 0 32 == 0
  | .wrsr => cw.extractLsb' 40 20 == 0

/-- The command of an opcode with its operand fields extracted, before the operand checks; none when the
register number does not exist (R100 (b)). -/
def withOperands (op : Op) (cw : CmdWord) : Option Instr :=
  match op with
  | .nop => some .nop
  | .srst => some .srst
  | .pstart => some .pstart
  | .pbits => some (.pbits (countField cw) (valueField cw))
  | .pend => some .pend
  | .encs => some (.encs (symField cw))
  | .ustart => some (.ustart (padField cw) (Dest.ofBit (dstField cw)))
  | .ubyte => some (.ubyte (byteField cw))
  | .uend => some .uend
  | .dstart => some .dstart
  | .dbits => some (.dbits (countField cw) (valueField cw))
  | .dend => some .dend
  | .tclr => some .tclr
  | .tld => some (.tld (symField cw) (countField cw) (valueField cw))
  | .rdsr => (Reg.ofNumber (regField cw)).map .rdsr
  | .wrsr => (Reg.ofNumber (regField cw)).map fun r => .wrsr r (valueField cw)

/-- What an operand out of range makes of the word: `WRSR` to a read-only register or with a reserved bit of
`CTRL` is illegal, a bit count or code length out of range is a bad operand (R100). -/
def operandError : Instr → DecodeError
  | .wrsr _ _ => .illegalCmd
  | _ => .badOperand

/-- R101: opcode, reserved bits, operand fields, register checks, operand ranges, in that order. -/
def decode (cw : CmdWord) : Except DecodeError Instr :=
  if reservedClear (Op.ofCode (opField cw)) cw then
    match withOperands (Op.ofCode (opField cw)) cw with
    | none => .error .illegalCmd
    | some i => if i.wf then .ok i else .error (operandError i)
  else .error .illegalCmd

/-! ## The encoder (R91 to R97, R108: 0 in every reserved bit, `v` and `code` as given) -/

/-- Format Z. -/
def formatZ (op : BitVec 4) : CmdWord := op ++ 0#60

/-- Format B. -/
def formatB (op : BitVec 4) (n : BitVec 6) (v : Word) : CmdWord := op ++ 0#1 ++ n ++ 0#21 ++ v

/-- Format S. -/
def formatS (op : BitVec 4) (sym : Sym21) : CmdWord := op ++ 0#7 ++ sym ++ 0#32

/-- Format T. -/
def formatT (op : BitVec 4) (len : BitVec 6) (sym : Sym21) (code : Word) : CmdWord :=
  op ++ 0#1 ++ len ++ sym ++ code

/-- Format U. -/
def formatU (op : BitVec 4) (dst : BitVec 1) (pad : BitVec 3) : CmdWord := op ++ 0#51 ++ dst ++ 0#5 ++ pad

/-- Format Y. -/
def formatY (op : BitVec 4) (b : Byte) : CmdWord := op ++ 0#52 ++ b

/-- Format R. -/
def formatR (op : BitVec 4) (r : BitVec 8) (v : Word) : CmdWord := op ++ 0#20 ++ r ++ v

/-- The row of the opcode table a command belongs to. -/
def Instr.op : Instr → Op
  | .nop => .nop
  | .srst => .srst
  | .pstart => .pstart
  | .pbits _ _ => .pbits
  | .pend => .pend
  | .encs _ => .encs
  | .ustart _ _ => .ustart
  | .ubyte _ => .ubyte
  | .uend => .uend
  | .dstart => .dstart
  | .dbits _ _ => .dbits
  | .dend => .dend
  | .tclr => .tclr
  | .tld _ _ _ => .tld
  | .rdsr _ => .rdsr
  | .wrsr _ _ => .wrsr

/-- The word of a command (R91 to R98, R108). -/
def encode : Instr → CmdWord
  | .nop => formatZ Op.nop.code
  | .srst => formatZ Op.srst.code
  | .pstart => formatZ Op.pstart.code
  | .pbits n v => formatB Op.pbits.code n v
  | .pend => formatZ Op.pend.code
  | .encs sym => formatS Op.encs.code sym
  | .ustart pad dst => formatU Op.ustart.code dst.bit pad
  | .ubyte b => formatY Op.ubyte.code b
  | .uend => formatZ Op.uend.code
  | .dstart => formatZ Op.dstart.code
  | .dbits n v => formatB Op.dbits.code n v
  | .dend => formatZ Op.dend.code
  | .tclr => formatZ Op.tclr.code
  | .tld sym len code => formatT Op.tld.code len sym code
  | .rdsr r => formatR Op.rdsr.code r.number 0
  | .wrsr r v => formatR Op.wrsr.code r.number v

/-! ## The match and mask columns of the opcode table (R98), kept as the table writes them -/

/-- Column `match` of R98. -/
def Op.matchWord : Op → CmdWord
  | .nop => 0x0000000000000000
  | .srst => 0x1000000000000000
  | .pstart => 0x2000000000000000
  | .pbits => 0x3000000000000000
  | .pend => 0x4000000000000000
  | .encs => 0x5000000000000000
  | .ustart => 0x6000000000000000
  | .ubyte => 0x7000000000000000
  | .uend => 0x8000000000000000
  | .dstart => 0x9000000000000000
  | .dbits => 0xA000000000000000
  | .dend => 0xB000000000000000
  | .tclr => 0xC000000000000000
  | .tld => 0xD000000000000000
  | .rdsr => 0xE000000000000000
  | .wrsr => 0xF000000000000000

/-- Column `mask` of R98. -/
def Op.mask : Op → CmdWord
  | .nop | .srst | .pstart | .pend | .uend | .dstart | .dend | .tclr => 0xFFFFFFFFFFFFFFFF
  | .pbits | .dbits => 0xF81FFFFF00000000
  | .encs => 0xFFE00000FFFFFFFF
  | .ustart => 0xFFFFFFFFFFFFFEF8
  | .ubyte => 0xFFFFFFFFFFFFFF00
  | .tld => 0xF800000000000000
  | .rdsr => 0xFFFFFF00FFFFFFFF
  | .wrsr => 0xFFFFFF0000000000

/-- The word spells a command of the row (R98: `cw & mask(M) = match(M)`). -/
def Op.matches (op : Op) (cw : CmdWord) : Bool := cw &&& op.mask == op.matchWord

/-! ## The host's entry -/

/-- The instruction this decoder reads from a word given by its bits, bit 0 the least significant of the one
64-bit unit a command is (R90, R76); bits from `nbits` up are 0. -/
def decodeTableWord (nbits w : Nat) : Option Instr :=
  if nbits ≤ 64 then
    match decode (BitVec.ofNat 64 (w % 2 ^ nbits)) with
    | .ok i => some i
    | .error _ => none
  else none

end Sys2Proof
end

