-- ==== Sys2Proof/Config.lean ====
section
/-! DEFINITION. What an implementation fixes: the one open parameter of the spec (00_scope.md R5, 92_eei_decisions.md D5). -/
namespace Sys2Proof

/-- The open parameter `CT_ENTRIES`, the capacity of the code table: any value 1 to 2^32 − 1 (R5).
It is fixed for one machine and no command writes it. -/
structure Config where
  ctEntries : Word
deriving DecidableEq, Repr

/-- The default the spec names for `CT_ENTRIES` (R5: "256 by default"). -/
def Config.default : Config := { ctEntries := 256 }

/-- The range of `CT_ENTRIES` (R5): a 32-bit value is below 2^32 already, so only 0 is excluded. -/
abbrev Config.ok (c : Config) : Prop := c.ctEntries ≠ 0

end Sys2Proof
end

