-- ==== Sys2Proof/Machine/State.lean ====
section
/-! DEFINITION. The architectural state of 10_state.md R20, grouped as R20 groups it, with the reset values of R65; the one
reason a step stops. Two groups are the model's own and not the spec's state: the parameter (log 1) and the host's pending inputs (log 2). -/
namespace Sys2Proof.Machine

/-- The nine fault causes (60_exceptions.md R236). Raising one is a NEXT state of the model (R237), never a stop. -/
inductive Cause where
  | illegalCmd      -- 1
  | badOperand      -- 2
  | seq             -- 3
  | noSymbol        -- 4
  | dupSymbol       -- 5
  | prefixConflict  -- 6 PREFIX
  | tableFull       -- 7
  | pad             -- 8
  | trailFrag       -- 9
deriving DecidableEq, Repr

/-- A code table entry `{sym, len, code}` (R50). -/
structure Entry where
  sym  : Sym21
  len  : BitVec 6
  code : Word
deriving DecidableEq, Repr

/-- The content of an invalid entry: all zeros (R50). -/
def Entry.zero : Entry := { sym := 0, len := 0, code := 0 }

/-- The table memory `T` (R50): index and entry pairs, indices strictly rising, no all-zero entry listed. An index
not listed holds the all-zero entry, the reset content of every entry (R65). -/
abbrev Memory := List (Nat × Entry)

/-- `STRICT`, `FIE` (register `CTRL`) and `TIDX` (R24, R40). -/
structure Control where
  strict : Bool
  fie    : Bool
  tidx   : Word
deriving DecidableEq, Repr

/-- The fault record (R26, R27). -/
structure FaultRecord where
  fcause : BitVec 4
  fcmd   : CmdWord
deriving DecidableEq, Repr

/-- Packer state (R28 to R31). -/
structure Packer where
  pact     : Bool
  pdone    : Bool
  pacc     : Byte
  pcnt     : BitVec 3
  padcnt   : BitVec 3
  pbitcnt  : Word
  pbytecnt : Word
deriving DecidableEq, Repr

/-- Unpacker state (R32 to R35). -/
structure Unpacker where
  uact     : Bool
  udone    : Bool
  upad     : BitVec 3
  udst     : Dest
  uholdv   : Bool
  uhold    : Byte
  ubytecnt : Word
  ubitcnt  : Word
deriving DecidableEq, Repr

/-- Decoder state (R36 to R39). -/
structure Decoder where
  dact    : Bool
  ddone   : Bool
  dcand   : Word
  dclen   : BitVec 6
  trail   : Bool
  dbitcnt : Word
  dsymcnt : Word
deriving DecidableEq, Repr

/-- The code table: `TCOUNT` and the entries (R42, R50). -/
structure CodeTable where
  tcount : Word
  mem    : Memory
deriving DecidableEq, Repr

/-- The four append-only output sequences, first value first (R60). -/
structure Outputs where
  byteOut : List Byte
  bitOut  : List Bool
  symOut  : List Sym21
  respOut : List Word
deriving DecidableEq, Repr

/-- What the host does next at the block's inputs (R8, R11): present a command word, or pulse `rst_n` between two
commands. The model's own (log 2). -/
inductive HostInput where
  | command (cw : CmdWord)
  | hwReset
deriving DecidableEq, Repr

/-- The whole state: R20's groups, the parameter, and the inputs the host has still to deliver. -/
structure State where
  cfg    : Config
  inputs : List HostInput
  ctl    : Control
  flt    : FaultRecord
  pk     : Packer
  un     : Unpacker
  de     : Decoder
  tab    : CodeTable
  out    : Outputs
deriving DecidableEq, Repr

/-- Why the machine stops. The spec's one exception, its fault, is no stop: it is a state the machine goes on from (R237,
R238). The one stop is the one behaviour the spec leaves undefined and forbids a model to fill. -/
inductive Fault where
  /-- Raised by a command that would give a bit to the decoder (`DBITS`, and in a routed session `UBYTE` and `UEND`) by a
  code table that is not prefix-free: decoding is undefined there and has no transition (R126, U1; log 9). No run reaches
  such a table, because `TLD` refuses it (R202). Safe. -/
  | malformedTable
deriving DecidableEq, Repr

/-- Why the model would refuse a command. Raised by no arm of `exec`: every command has its meaning. -/
inductive Refusal where
  /-- Would be answered by an arm of `exec` for an instruction without a meaning; none is left. Safe. -/
  | notModelled (mnemonic : String)
deriving DecidableEq, Repr

/-- The outcome of a step or of a command. -/
abbrev Result := Host.Outcome State Fault Refusal

/-! ## Reset values (R65) -/

def Control.reset : Control := { strict := false, fie := false, tidx := 0 }

def FaultRecord.reset : FaultRecord := { fcause := 0, fcmd := 0 }

def Packer.reset : Packer :=
  { pact := false, pdone := false, pacc := 0, pcnt := 0, padcnt := 0, pbitcnt := 0, pbytecnt := 0 }

def Unpacker.reset : Unpacker :=
  { uact := false, udone := false, upad := 0, udst := .bitOut, uholdv := false, uhold := 0
    ubytecnt := 0, ubitcnt := 0 }

def Decoder.reset : Decoder :=
  { dact := false, ddone := false, dcand := 0, dclen := 0, trail := false, dbitcnt := 0, dsymcnt := 0 }

def CodeTable.reset : CodeTable := { tcount := 0, mem := [] }

def Outputs.reset : Outputs := { byteOut := [], bitOut := [], symOut := [], respOut := [] }

/-- The state after hardware reset of a machine with a given capacity and pending inputs (R65, R260). -/
def State.resetWith (cfg : Config) (inputs : List HostInput) : State :=
  { cfg := cfg, inputs := inputs, ctl := .reset, flt := .reset, pk := .reset, un := .reset, de := .reset
    tab := .reset, out := .reset }

/-- The machine right after reset: R65, with the spec's default capacity (log 1) and no input pending (log 2). -/
def State.reset : State := State.resetWith Config.default []

end Sys2Proof.Machine
end

