-- ==== Sys2Proof/Machine/Table.lean ====
section
/-! DEFINITION. The code table memory and its searches (20_memory.md R70, R71): by index, by symbol, by code, and the prefix test. -/
namespace Sys2Proof.Machine

/-- The canonical form of the table memory: indices strictly rising and no all-zero entry listed. -/
abbrev Memory.wf (m : Memory) : Prop :=
  m.Pairwise (fun a b => a.1 < b.1) ∧ ∀ p ∈ m, p.2 ≠ Entry.zero

/-- `T[i]` (R7). -/
def Memory.read : Memory → Nat → Entry
  | [], _ => Entry.zero
  | (j, e) :: m, i => if i = j then e else Memory.read m i

/-- `T[i] <- e` (R7), keeping the canonical form. -/
def Memory.write : Memory → Nat → Entry → Memory
  | [], i, e => if e = Entry.zero then [] else [(i, e)]
  | (j, x) :: m, i, e =>
    if i < j then (if e = Entry.zero then (j, x) :: m else (i, e) :: (j, x) :: m)
    else if i = j then (if e = Entry.zero then m else (i, e) :: m)
    else (j, x) :: Memory.write m i e

/-- Every entry all zeros (`TCLR`, R201). -/
def Memory.cleared : Memory := []

/-- The valid entries `T[0] … T[TCOUNT−1]`, in load order (R42). -/
def CodeTable.entries (t : CodeTable) : List Entry :=
  (List.range t.tcount.toNat).map t.mem.read

/-- `LookupSym(s)` (R145): at most one entry fits by R51 (a); the first, where no run leads (DESIGN CHOICE, log 10). -/
def CodeTable.lookupSym (t : CodeTable) (s : Sym21) : Option Entry :=
  t.entries.find? fun e => e.sym == s

/-- `Match(l, c)` (R182): length and bits must both be equal. Two entries that fit would conflict, and no bit is decoded
by a table with a conflict (R126, `guardedDecode`), so at most one entry ever fits. -/
def CodeTable.matchCode (t : CodeTable) (l : BitVec 6) (c : Word) : Option Entry :=
  t.entries.find? fun e => e.len == l && e.code == c

/-- The prefix relation of R107: with `m = min(la, lb)`, the first `m` digits of the two codes are equal. -/
def conflicts (la : BitVec 6) (ca : Word) (lb : BitVec 6) (cb : Word) : Bool :=
  (ca >>> (la.toNat - min la.toNat lb.toNat)) == (cb >>> (lb.toNat - min la.toNat lb.toNat))

/-- Some valid entry's code conflicts with the code `(len, c)` (R202, check 5). -/
def CodeTable.hasConflict (t : CodeTable) (len : BitVec 6) (c : Word) : Bool :=
  t.entries.any fun e => conflicts e.len e.code len c

/-- No two entries of a list conflict. -/
def noConflicts : List Entry → Bool
  | [] => true
  | e :: l => l.all (fun x => !conflicts e.len e.code x.len x.code) && noConflicts l

/-- The valid entries are prefix-free (R51 (b), R107, R125 (b)). -/
def CodeTable.prefixFree (t : CodeTable) : Bool := noConflicts t.entries

/-- `T[TCOUNT] <- e ; TCOUNT <- TCOUNT + 1` (R202). -/
def CodeTable.append (t : CodeTable) (e : Entry) : CodeTable :=
  { tcount := t.tcount + 1, mem := t.mem.write t.tcount.toNat e }

/-- Every entry all zeros and `TCOUNT <- 0` (R201). -/
def CodeTable.cleared : CodeTable := { tcount := 0, mem := Memory.cleared }

end Sys2Proof.Machine
end

