-- ==== Sys2Proof/Machine/Flags.lean ====
section
/-! DEFINITION. Every flag the spec computes: fault cause codes, the faulted and dead conditions, the interrupt line, the `STATUS` view. -/
namespace Sys2Proof.Machine

/-- The code `FCAUSE` holds for a cause (60_exceptions.md R236). -/
def Cause.code : Cause → BitVec 4
  | .illegalCmd => 1
  | .badOperand => 2
  | .seq => 3
  | .noSymbol => 4
  | .dupSymbol => 5
  | .prefixConflict => 6
  | .tableFull => 7
  | .pad => 8
  | .trailFrag => 9

/-- The block is faulted while `FCAUSE ≠ 0` (R238). -/
def State.faulted (s : State) : Bool := s.flt.fcause != 0

/-- `irq = 1` exactly when `FIE = 1` and `FCAUSE ≠ 0` (10_state.md R61, R243). -/
def State.irq (s : State) : Bool := s.ctl.fie && s.faulted

/-- The dead condition `DCLEN = 33` (R37, R186). -/
def Decoder.dead (d : Decoder) : Bool := d.dclen == 33

/-- A routed unpack session is active: `UACT = 1` and `UDST = 1` (R180, R277). -/
def Unpacker.routed (u : Unpacker) : Bool := u.uact && u.udst == .decoder

/-- The flag at a bit position of a register value. -/
def flagAt (b : Bool) (k : Nat) : Word := (BitVec.ofBool b).setWidth 32 <<< k

/-- The view `STATUS` (R25, R218). -/
def State.statusView (s : State) : Word :=
  flagAt s.faulted 31 ||| flagAt s.irq 8 ||| flagAt s.de.dead 7 ||| flagAt s.de.trail 6
    ||| flagAt s.de.ddone 5 ||| flagAt s.de.dact 4 ||| flagAt s.un.udone 3 ||| flagAt s.un.uact 2
    ||| flagAt s.pk.pdone 1 ||| flagAt s.pk.pact 0

/-- The view `CTRL` (R24): bit 1 `FIE`, bit 0 `STRICT`. -/
def State.ctrlView (s : State) : Word := flagAt s.ctl.fie 1 ||| flagAt s.ctl.strict 0

end Sys2Proof.Machine
end

