-- ==== Sys2Proof/Machine/Operands.lean ====
section
/-! DEFINITION. Operand forms: bit groups and their order, the masked code of `TLD`, the shift-in of a bit, and every register view. -/
namespace Sys2Proof.Machine

/-- `str(n, v)` (00_scope.md R6): the `n` low bits of `v` as a bit string, bit `n − 1` first (R75). -/
def str {w : Nat} : Nat → BitVec w → Bits
  | 0, _ => []
  | n + 1, v => v.getLsbD n :: str n v

/-- `val(s)` (R6): the unsigned integer whose binary expansion is `s`. -/
def val (s : Bits) : Nat := s.foldl (fun a b => 2 * a + b.toNat) 0

/-- The 8-bit binary text of a byte, bit 7 first (R73, R120). -/
def bin8 (y : Byte) : Bits := str 8 y

/-- `((x << 1) | b)[w−1:0]`, the shift-in of R135 (b). -/
def shiftIn {w : Nat} (x : BitVec w) (b : Bool) : BitVec w := (x <<< 1) ||| (BitVec.ofBool b).setWidth w

/-- `code & (2^len − 1)`, the one derived operand (R99, R135 (e)). -/
def maskCode (len : BitVec 6) (code : Word) : Word := code &&& BitVec.ofNat 32 (2 ^ len.toNat - 1)

/-- `PSTATE`: `[7:0] PACC`, `[10:8] PCNT` (R29). -/
def Packer.stateView (p : Packer) : Word := (p.pcnt.setWidth 32 <<< 8) ||| p.pacc.setWidth 32

/-- `USTATE`: `[2:0] UPAD`, `[3] UDST`, `[4] UHOLDV`, `[15:8] UHOLD` (R34). -/
def Unpacker.stateView (u : Unpacker) : Word :=
  (u.uhold.setWidth 32 <<< 8) ||| flagAt u.uholdv 4 ||| (u.udst.bit.setWidth 32 <<< 3) ||| u.upad.setWidth 32

/-- The entry `TIDX` selects, when it is a valid one (R41). -/
def State.shownEntry (s : State) : Option Entry :=
  if s.ctl.tidx < s.tab.tcount then some (s.tab.mem.read s.ctl.tidx.toNat) else none

/-- `TENTSYM`: valid bit 31 and the symbol, or 0 (R41). -/
def State.tentSymView (s : State) : Word :=
  match s.shownEntry with
  | some e => (1#32 <<< 31) ||| e.sym.setWidth 32
  | none => 0

/-- `TENTLEN` (R41). -/
def State.tentLenView (s : State) : Word :=
  match s.shownEntry with
  | some e => e.len.setWidth 32
  | none => 0

/-- `TENTCODE` (R41). -/
def State.tentCodeView (s : State) : Word :=
  match s.shownEntry with
  | some e => e.code
  | none => 0

/-- `RegRead(r)` (45_system.md R218). -/
def regRead (r : Reg) (s : State) : Word :=
  match r with
  | .id => 0x48425055
  | .ctrl => s.ctrlView
  | .status => s.statusView
  | .fcause => s.flt.fcause.setWidth 32
  | .fcmdlo => s.flt.fcmd.extractLsb' 0 32
  | .fcmdhi => s.flt.fcmd.extractLsb' 32 32
  | .padcnt => s.pk.padcnt.setWidth 32
  | .pstate => s.pk.stateView
  | .pbitcnt => s.pk.pbitcnt
  | .pbytecnt => s.pk.pbytecnt
  | .ustate => s.un.stateView
  | .ubytecnt => s.un.ubytecnt
  | .ubitcnt => s.un.ubitcnt
  | .dcand => s.de.dcand
  | .dclen => s.de.dclen.setWidth 32
  | .dbitcnt => s.de.dbitcnt
  | .dsymcnt => s.de.dsymcnt
  | .tcount => s.tab.tcount
  | .tidx => s.ctl.tidx
  | .tentsym => s.tentSymView
  | .tentlen => s.tentLenView
  | .tentcode => s.tentCodeView
  | .tcap => s.cfg.ctEntries

end Sys2Proof.Machine
end

