-- ==== Sys2Proof/Machine/Ops.lean ====
section
/-! DEFINITION. The shared operations: one update per group of state and one `emit` per stream, the helpers `PackBit`, `DecodeBit` and
`Release`, the fault (taking it, and the return from it), and the front end every command passes through. -/
namespace Sys2Proof.Machine

/-! ## Updates of one group of state -/

def State.setInputs (s : State) (x : List HostInput) : State := { s with inputs := x }
def State.setCtl (s : State) (x : Control) : State := { s with ctl := x }
def State.setFlt (s : State) (x : FaultRecord) : State := { s with flt := x }
def State.setPk (s : State) (x : Packer) : State := { s with pk := x }
def State.setUn (s : State) (x : Unpacker) : State := { s with un := x }
def State.setDe (s : State) (x : Decoder) : State := { s with de := x }
def State.setTab (s : State) (x : CodeTable) : State := { s with tab := x }
def State.setOut (s : State) (x : Outputs) : State := { s with out := x }

/-! ## `emit(S, v)`: append a value to an output stream (R7, R10, R60) -/

def State.emitByte (s : State) (y : Byte) : State := s.setOut { s.out with byteOut := s.out.byteOut ++ [y] }
def State.emitBit (s : State) (x : Bool) : State := s.setOut { s.out with bitOut := s.out.bitOut ++ [x] }
def State.emitSym (s : State) (v : Sym21) : State := s.setOut { s.out with symOut := s.out.symOut ++ [v] }
def State.emitResp (s : State) (v : Word) : State := s.setOut { s.out with respOut := s.out.respOut ++ [v] }

/-! ## Taking a fault, and the return from one -/

/-- Fault entry (60_exceptions.md R237): `FCAUSE <- c`, `FCMD <- cw`, nothing else. It is applied to the state before
the command, so every write and `emit` of the refused command is undone. -/
def enterFault (c : Cause) (cw : CmdWord) (s : State) : State :=
  s.setFlt { fcause := c.code, fcmd := cw }

/-- A fault raised by a word: recorded once; in the faulted state the word is discarded (R238, R240). -/
def raiseFault (c : Cause) (cw : CmdWord) (s : State) : State :=
  if s.faulted then s else enterFault c cw s

/-- The return from the faulted state, `SRST` (R217, R240): every element at its reset value but the four output
sequences (R262). The parameter and the pending inputs are no state of the block. -/
def softReset (s : State) : State :=
  (State.resetWith s.cfg s.inputs).setOut s.out

/-- Hardware reset (R260): every element at its reset value, the output sequences empty. -/
def hardReset (s : State) : State := State.resetWith s.cfg s.inputs

/-- The first failing check of a list, in the order a rule lists them (R239). -/
def firstFault : List (Bool × Cause) → Option Cause
  | [] => none
  | (failed, c) :: rest => if failed then some c else firstFault rest

/-- The front end of R238 for a command that does not run in the faulted state: discarded when faulted; else the first
failing check is recorded with the command's word, or the command has its effect. -/
def guarded (i : Instr) (checks : List (Bool × Cause)) (effect : State → State) (s : State) : Result :=
  .next (if s.faulted then s else
    match firstFault checks with
    | some c => enterFault c (encode i) s
    | none => effect s)

/-- The cause of a word that is no command (R101, R236). -/
def causeOf : DecodeError → Cause
  | .illegalCmd => .illegalCmd
  | .badOperand => .badOperand

/-! ## The packer: `PackBit` (41_pack.md R141) -/

/-- `PackBit(x)` (R141). -/
def packBit (s : State) (x : Bool) : State :=
  if s.pk.pcnt = 7 then
    (s.emitByte (shiftIn s.pk.pacc x)).setPk
      { s.pk with pacc := 0, pcnt := 0, pbitcnt := s.pk.pbitcnt + 1, pbytecnt := s.pk.pbytecnt + 1 }
  else
    s.setPk { s.pk with pacc := shiftIn s.pk.pacc x, pcnt := s.pk.pcnt + 1, pbitcnt := s.pk.pbitcnt + 1 }

/-- `PackBit` for each bit of a bit string, first to last (R143, R146). -/
def packBits (bs : Bits) (s : State) : State := bs.foldl packBit s

/-- `PSTART`'s writes (R142). -/
def startPack (s : State) : State :=
  s.setPk { pact := true, pdone := false, pacc := 0, pcnt := 0, padcnt := 0, pbitcnt := 0, pbytecnt := 0 }

/-- `PEND`'s writes (R144). -/
def endPack (s : State) : State :=
  if s.pk.pcnt ≠ 0 then
    (s.emitByte (s.pk.pacc <<< (8 - s.pk.pcnt.toNat))).setPk
      { s.pk with padcnt := BitVec.ofNat 3 (8 - s.pk.pcnt.toNat), pbytecnt := s.pk.pbytecnt + 1, pacc := 0, pcnt := 0
                  pact := false, pdone := true }
  else
    s.setPk { s.pk with padcnt := 0, pacc := 0, pcnt := 0, pact := false, pdone := true }

/-! ## The decoder: `DecodeBit` (43_decode.md R181) -/

/-- `DecodeBit(x)` (R181). -/
def decodeBit (s : State) (x : Bool) : State :=
  if s.de.dclen = 33 then
    s.setDe { s.de with dbitcnt := s.de.dbitcnt + 1 }
  else if s.de.dclen = 32 then
    s.setDe { s.de with dbitcnt := s.de.dbitcnt + 1, dclen := 33 }
  else
    match s.tab.matchCode (s.de.dclen + 1) (shiftIn s.de.dcand x) with
    | some e =>
      (s.emitSym e.sym).setDe
        { s.de with dbitcnt := s.de.dbitcnt + 1, dsymcnt := s.de.dsymcnt + 1, dcand := 0, dclen := 0 }
    | none =>
      s.setDe
        { s.de with dbitcnt := s.de.dbitcnt + 1, dcand := shiftIn s.de.dcand x, dclen := s.de.dclen + 1 }

/-- `DecodeBit` for each bit of a bit string, first to last (R184). -/
def decodeBits (bs : Bits) (s : State) : State := bs.foldl decodeBit s

/-- Giving these bits to the decoder is undefined: there is one, and the code table is not prefix-free (R126, U1). -/
def State.decodeUndefined (bits : Bits) (s : State) : Bool := !bits.isEmpty && !s.tab.prefixFree

/-- The front end for a command that gives bits to the decoder: where it would have its effect and decoding is undefined,
there is no next state (R126); otherwise as for any command (R238). -/
def guardedDecode (i : Instr) (checks : List (Bool × Cause)) (bits : Bits) (effect : State → State) (s : State) :
    Result :=
  if !s.faulted && (firstFault checks).isNone && s.decodeUndefined bits then .fault .malformedTable
  else guarded i checks effect s

/-- `DSTART`'s writes (R183). -/
def startDecode (s : State) : State :=
  s.setDe { dact := true, ddone := false, dcand := 0, dclen := 0, trail := false, dbitcnt := 0, dsymcnt := 0 }

/-- `DEND`'s writes (R185): `DCAND` and `DCLEN` are left as they are. -/
def endDecode (s : State) : State :=
  s.setDe { s.de with trail := s.de.dclen != 0, dact := false, ddone := true }

/-! ## The unpacker: `Release` (42_unpack.md R162) -/

/-- One released bit: counted, then to `BIT_OUT` or to the decoder (R162). -/
def releaseBit (s : State) (x : Bool) : State :=
  match s.un.udst with
  | .bitOut => (s.setUn { s.un with ubitcnt := s.un.ubitcnt + 1 }).emitBit x
  | .decoder => decodeBit (s.setUn { s.un with ubitcnt := s.un.ubitcnt + 1 }) x

/-- `Release(y, k)` (R162): the first `k` bits of `y`, most significant first. -/
def release (y : Byte) (k : Nat) (s : State) : State := ((bin8 y).take k).foldl releaseBit s

/-- The bits the byte held gives to the decoder when its first `k` are released: none in an unrouted session (R162). -/
def State.routedBits (k : Nat) (s : State) : Bits :=
  if s.un.uholdv && s.un.udst == .decoder then (bin8 s.un.uhold).take k else []

/-- `USTART`'s writes (R163). -/
def startUnpack (pad : BitVec 3) (dst : Dest) (s : State) : State :=
  s.setUn { uact := true, udone := false, upad := pad, udst := dst, uholdv := false, uhold := 0
            ubytecnt := 0, ubitcnt := 0 }

/-- The byte held is released whole: it was not the last (R164). -/
def flushHold (s : State) : State := if s.un.uholdv then release s.un.uhold 8 s else s

/-- `UHOLD <- b ; UHOLDV <- 1 ; UBYTECNT <- UBYTECNT + 1` (R164). -/
def holdByte (b : Byte) (s : State) : State :=
  s.setUn { s.un with uhold := b, uholdv := true, ubytecnt := s.un.ubytecnt + 1 }

/-- The byte held is released without its last `UPAD` bits (R165). -/
def flushLast (s : State) : State :=
  if s.un.uholdv then release s.un.uhold (8 - s.un.upad.toNat) s else s

/-- `UHOLDV <- 0 ; UHOLD <- 0 ; UACT <- 0 ; UDONE <- 1` (R165). -/
def closeUnpack (s : State) : State :=
  s.setUn { s.un with uholdv := false, uhold := 0, uact := false, udone := true }

/-! ## The host's inputs (R8, R9): one input at a time, in order -/

/-- The next input the host delivers, and the state without it. -/
def nextInput (s : State) : Option (HostInput × State) :=
  match s.inputs with
  | [] => none
  | x :: rest => some (x, s.setInputs rest)

end Sys2Proof.Machine
end

