-- ==== Sys2Proof/Machine/DecodeFamily.lean ====
section
/-! DEFINITION. The decode family (43_decode.md): `DSTART`, `DBITS`, `DEND`. -/
namespace Sys2Proof.Machine

/-- `DSTART` (R183): `SEQ` if `DACT = 1`. -/
def execDstart (s : State) : Result :=
  guarded .dstart [(s.de.dact, .seq)] startDecode s

/-- `DBITS n, v` (R184): `BAD_OPERAND` if `n > 32`, `SEQ` if `DACT = 0`, `SEQ` in a routed unpack session. -/
def execDbits (n : BitVec 6) (v : Word) (s : State) : Result :=
  guardedDecode (.dbits n v) [(!groupCountOk n, .badOperand), (!s.de.dact, .seq), (s.un.routed, .seq)]
    (str n.toNat v) (decodeBits (str n.toNat v)) s

/-- `DEND` (R185): `SEQ` if `DACT = 0`, `SEQ` in a routed unpack session, `TRAIL_FRAG` if `STRICT = 1` and the
candidate is not empty. -/
def execDend (s : State) : Result :=
  guarded .dend [(!s.de.dact, .seq), (s.un.routed, .seq), (s.ctl.strict && s.de.dclen != 0, .trailFrag)] endDecode s

end Sys2Proof.Machine
end

