-- ==== Sys2Proof/Machine/Pack.lean ====
section
/-! DEFINITION. The pack family (41_pack.md): `PSTART`, `PBITS`, `PEND`, `ENCS`. -/
namespace Sys2Proof.Machine

/-- `PSTART` (R142): `SEQ` if `PACT = 1`. -/
def execPstart (s : State) : Result :=
  guarded .pstart [(s.pk.pact, .seq)] startPack s

/-- `PBITS n, v` (R143): `BAD_OPERAND` if `n > 32`, `SEQ` if `PACT = 0`. -/
def execPbits (n : BitVec 6) (v : Word) (s : State) : Result :=
  guarded (.pbits n v) [(!groupCountOk n, .badOperand), (!s.pk.pact, .seq)] (packBits (str n.toNat v)) s

/-- `PEND` (R144): `SEQ` if `PACT = 0`. -/
def execPend (s : State) : Result :=
  guarded .pend [(!s.pk.pact, .seq)] endPack s

/-- The bits `ENCS sym` appends: the code of the symbol's entry (R146). -/
def encodedBits (t : CodeTable) (sym : Sym21) : Bits :=
  match t.lookupSym sym with
  | some e => str e.len.toNat e.code
  | none => []

/-- `ENCS sym` (R146): `SEQ` if `PACT = 0`, `NO_SYMBOL` if the symbol has no entry. -/
def execEncs (sym : Sym21) (s : State) : Result :=
  guarded (.encs sym) [(!s.pk.pact, .seq), ((s.tab.lookupSym sym).isNone, .noSymbol)]
    (packBits (encodedBits s.tab sym)) s

end Sys2Proof.Machine
end

