-- ==== Sys2Proof/Machine/System.lean ====
section
/-! DEFINITION. The system family (45_system.md): `NOP`, `SRST`, `RDSR`, `WRSR`. The first three run in the faulted state too (R238). -/
namespace Sys2Proof.Machine

/-- `NOP` (R216). -/
def execNop (s : State) : Result := .next s

/-- `SRST` (R217). -/
def execSrst (s : State) : Result := .next (softReset s)

/-- `RDSR r` (R219). -/
def execRdsr (r : Reg) (s : State) : Result := .next (s.emitResp (regRead r s))

/-- `WRSR`'s writes (R220): `CTRL` or `TIDX`; no other register is writable. -/
def writeReg (r : Reg) (v : Word) (s : State) : State :=
  match r with
  | .ctrl => s.setCtl { s.ctl with strict := v.getLsbD 0, fie := v.getLsbD 1 }
  | .tidx => s.setCtl { s.ctl with tidx := v }
  | _ => s

/-- `WRSR r, v` (R220): `ILLEGAL_CMD` if the register is read-only or `v` sets a reserved bit of `CTRL`. -/
def execWrsr (r : Reg) (v : Word) (s : State) : Result :=
  guarded (.wrsr r v) [(!writeOk r v, .illegalCmd)] (writeReg r v) s

end Sys2Proof.Machine
end

