-- ==== Sys2Proof/Machine/TableFamily.lean ====
section
/-! DEFINITION. The table family (44_table.md): `TCLR`, `TLD`. -/
namespace Sys2Proof.Machine

/-- A pack or a decode session is active: the table is locked (20_memory.md R80). -/
def State.tableLocked (s : State) : Bool := s.pk.pact || s.de.dact

/-- `TCLR` (R201): `SEQ` if `PACT = 1` or `DACT = 1`. -/
def execTclr (s : State) : Result :=
  guarded .tclr [(s.tableLocked, .seq)] (fun s => s.setTab .cleared) s

/-- The six checks of `TLD` after the reserved bit, in order (R202). -/
def tldChecks (sym : Sym21) (len : BitVec 6) (code : Word) (s : State) : List (Bool × Cause) :=
  [(!codeLenOk len, .badOperand),
   (s.tableLocked, .seq),
   ((s.tab.lookupSym sym).isSome, .dupSymbol),
   (s.tab.hasConflict len (maskCode len code), .prefixConflict),
   (s.tab.tcount == s.cfg.ctEntries, .tableFull)]

/-- `TLD sym, len, code` (R202). -/
def execTld (sym : Sym21) (len : BitVec 6) (code : Word) (s : State) : Result :=
  guarded (.tld sym len code) (tldChecks sym len code s)
    (fun s => s.setTab (s.tab.append { sym := sym, len := len, code := maskCode len code })) s

end Sys2Proof.Machine
end

