-- ==== Sys2Proof/Machine/Unpack.lean ====
section
/-! DEFINITION. The unpack family (42_unpack.md): `USTART`, `UBYTE`, `UEND`. -/
namespace Sys2Proof.Machine

/-- `USTART pad, dst` (R163): `SEQ` if `UACT = 1`, `SEQ` if `dst = 1` and `DACT = 0`. -/
def execUstart (pad : BitVec 3) (dst : Dest) (s : State) : Result :=
  guarded (.ustart pad dst) [(s.un.uact, .seq), (dst == .decoder && !s.de.dact, .seq)] (startUnpack pad dst) s

/-- `UBYTE b` (R164): `SEQ` if `UACT = 0`. -/
def execUbyte (b : Byte) (s : State) : Result :=
  guardedDecode (.ubyte b) [(!s.un.uact, .seq)] (s.routedBits 8) (fun s => holdByte b (flushHold s)) s

/-- `UEND` (R165): `SEQ` if `UACT = 0`, `PAD` if no byte was given and `UPAD ≠ 0`. -/
def execUend (s : State) : Result :=
  guardedDecode .uend [(!s.un.uact, .seq), (!s.un.uholdv && s.un.upad != 0, .pad)]
    (s.routedBits (8 - s.un.upad.toNat)) (fun s => closeUnpack (flushLast s)) s

end Sys2Proof.Machine
end

