-- ==== Sys2Proof/Machine/Dispatch.lean ====
section
/-! DEFINITION. One arm per command, each a call of its meaning. -/
namespace Sys2Proof.Machine

def exec (i : Instr) (s : State) : Host.Outcome State Fault Refusal :=
  match i with
  | .nop => Sys2Proof.Machine.execNop s
  | .srst => Sys2Proof.Machine.execSrst s
  | .pstart => Sys2Proof.Machine.execPstart s
  | .pbits n v => Sys2Proof.Machine.execPbits n v s
  | .pend => Sys2Proof.Machine.execPend s
  | .encs sym => Sys2Proof.Machine.execEncs sym s
  | .ustart pad dst => Sys2Proof.Machine.execUstart pad dst s
  | .ubyte b => Sys2Proof.Machine.execUbyte b s
  | .uend => Sys2Proof.Machine.execUend s
  | .dstart => Sys2Proof.Machine.execDstart s
  | .dbits n v => Sys2Proof.Machine.execDbits n v s
  | .dend => Sys2Proof.Machine.execDend s
  | .tclr => Sys2Proof.Machine.execTclr s
  | .tld sym len code => Sys2Proof.Machine.execTld sym len code s
  | .rdsr r => Sys2Proof.Machine.execRdsr r s
  | .wrsr r v => Sys2Proof.Machine.execWrsr r v s

end Sys2Proof.Machine
end

