-- ==== Sys2Proof/Machine/Step.lean ====
section
/-! DEFINITION. One step: the host delivers one input, and the block handles it to completion (00_scope.md R9). -/
namespace Sys2Proof.Machine

/-- The front end of 60_exceptions.md R238: a command is executed; a word that is none raises its fault. -/
def stepWord (cw : CmdWord) (s : State) : Result :=
  match decode cw with
  | .ok i => exec i s
  | .error e => .next (raiseFault (causeOf e) cw s)

/-- One step: the next command word, or a hardware reset between two commands (R11, R260); with nothing presented the
block waits as it is (R12, R249). -/
def step (s : State) : Host.Outcome State Fault Refusal :=
  match nextInput s with
  | none => .next s
  | some (.hwReset, s') => .next (hardReset s')
  | some (.command cw, s') => stepWord cw s'

/-- The state in which the next command word the host presents is the one of the given bits (bit 0 the least
significant, bits from `nbits` up 0): the word is put in front of the pending inputs. -/
def State.withFetchWord (s : State) (nbits w : Nat) : State :=
  s.setInputs (.command (BitVec.ofNat 64 (w % 2 ^ nbits)) :: s.inputs)

end Sys2Proof.Machine
end

