-- ==== Sys2Proof/Machine/Assembler.lean ====
section
/-! DEFINITION. The assembler syntax and the pseudo-instructions of 30_encoding.md R108 and R109: from the text of a program to its
command words. Where R108 leaves the spelling open (letter case, blanks), log 8 says what the model takes. -/
namespace Sys2Proof.Machine

/-! ## Pseudo-instructions (R109) -/

/-- The six pseudo-instructions, operands as written. -/
inductive Pseudo where
  | pbit (b : Word)
  | dbit (b : Word)
  | pstr (s : Bits)
  | dstr (s : Bits)
  | tlds (sym : Sym21) (s : Bits)
  | pbyte (b : Word)
deriving DecidableEq, Repr

/-- The group a bit-string literal of 0 to 32 characters stands for: `len(s)` and `val(s)` (R109). -/
def literal (s : Bits) : Option (BitVec 6 × Word) :=
  if s.length ≤ 32 then some (BitVec.ofNat 6 s.length, BitVec.ofNat 32 (val s)) else none

/-- The expansion of a pseudo-instruction; none where R109 gives it none (a literal that is too long, an empty code). -/
def Pseudo.expand : Pseudo → Option Instr
  | .pbit b => some (.pbits 1 b)
  | .dbit b => some (.dbits 1 b)
  | .pstr s => (literal s).map fun g => .pbits g.1 g.2
  | .dstr s => (literal s).map fun g => .dbits g.1 g.2
  | .tlds sym s => if s = [] then none else (literal s).map fun g => .tld sym g.1 g.2
  | .pbyte b => some (.pbits 8 b)

/-! ## Words of a line (R108) -/

/-- The pieces of a line: names, numbers (a character in quotes is its code point), bit-string literals, commas. -/
inductive Token where
  | name (w : List Char)
  | number (n : Nat)
  | bits (s : Bits)
  | comma
deriving DecidableEq, Repr

/-- The value of a digit, in bases up to 16. -/
def digitValue (c : Char) : Nat :=
  let n := c.toNat
  if 48 ≤ n ∧ n ≤ 57 then n - 48
  else if 97 ≤ n ∧ n ≤ 102 then n - 87
  else if 65 ≤ n ∧ n ≤ 70 then n - 55
  else 16

/-- Digits in a base, most significant first; none if there is no digit or one is not of the base. -/
def readDigits (base : Nat) (ds : List Char) : Option Nat :=
  if ds = [] ∨ ds.any (fun c => base ≤ digitValue c) then none
  else some (ds.foldl (fun a c => base * a + digitValue c) 0)

/-- A number as 00_scope.md R6 writes it: `0x` hexadecimal, `0b` binary, else decimal. -/
def readNumber (w : List Char) : Option Nat :=
  match w with
  | '0' :: 'x' :: ds => readDigits 16 ds
  | '0' :: 'b' :: ds => readDigits 2 ds
  | ds => readDigits 10 ds

/-- A run of letters and digits: a number if it starts with a digit, else a name. -/
def readWord (w : List Char) : Option Token :=
  match w with
  | [] => none
  | c :: _ => if digitValue c < 10 then (readNumber w).map .number else some (.name w)

/-- Where the reading of a line stands. -/
inductive Lexer where
  | blank
  | word (w : List Char)
  | quoteOpen
  | quoteChar (c : Char)
  | literal (s : Bits)
  | comment
deriving DecidableEq, Repr

/-- A letter, a digit or an underscore. -/
def isWordChar (c : Char) : Bool :=
  let n := c.toNat
  (48 ≤ n && n ≤ 57) || (65 ≤ n && n ≤ 90) || (97 ≤ n && n ≤ 122) || n == 95

/-- A character between words: what it adds, and how the reading goes on. -/
def readGap (c : Char) : Option (List Token × Lexer) :=
  let n := c.toNat
  if n = 32 ∨ n = 9 ∨ n = 13 then some ([], .blank)
  else if n = 44 then some ([.comma], .blank)
  else if n = 59 then some ([], .comment)
  else if n = 39 then some ([], .quoteOpen)
  else if n = 34 then some ([], .literal [])
  else if isWordChar c then some ([], .word [c])
  else none

/-- One character of a line. -/
def readChar (st : Lexer) (c : Char) : Option (List Token × Lexer) :=
  match st with
  | .blank => readGap c
  | .word w =>
    if isWordChar c then some ([], .word (w ++ [c]))
    else
      match readWord w, readGap c with
      | some t, some (ts, st') => some (t :: ts, st')
      | _, _ => none
  | .quoteOpen => some ([], .quoteChar c)
  | .quoteChar x => if c.toNat = 39 then some ([.number x.toNat], .blank) else none
  | .literal s =>
    if c.toNat = 34 then some ([.bits s], .blank)
    else if c.toNat = 48 then some ([], .literal (s ++ [false]))
    else if c.toNat = 49 then some ([], .literal (s ++ [true]))
    else none
  | .comment => some ([], .comment)

/-- The tokens of a line. -/
def readTokens : Lexer → List Char → Option (List Token)
  | .word w, [] => (readWord w).map ([·])
  | .blank, [] => some []
  | .comment, [] => some []
  | .quoteOpen, [] => none
  | .quoteChar _, [] => none
  | .literal _, [] => none
  | st, c :: cs =>
    match readChar st c with
    | some (ts, st') => (readTokens st' cs).map (ts ++ ·)
    | none => none

/-- The operands of a command: none, or tokens with commas between them. -/
def readOperands : List Token → Option (List Token)
  | [] => some []
  | [.comma] => none
  | [t] => some [t]
  | t :: .comma :: rest =>
    if t = .comma ∨ rest = [] then none else (readOperands rest).map (t :: ·)
  | _ :: _ => none

/-! ## Commands (R108, R109) -/

/-- An operand that fits its field. -/
def field (w : Nat) : Token → Option (BitVec w)
  | .number n => if n < 2 ^ w then some (BitVec.ofNat w n) else none
  | _ => none

/-- The registers by name (10_state.md R22). -/
def registerNames : List (List Char × Reg) :=
  [("ID".toList, .id), ("CTRL".toList, .ctrl), ("STATUS".toList, .status), ("FCAUSE".toList, .fcause),
   ("FCMDLO".toList, .fcmdlo), ("FCMDHI".toList, .fcmdhi), ("PADCNT".toList, .padcnt), ("PSTATE".toList, .pstate)] ++
  [("PBITCNT".toList, .pbitcnt), ("PBYTECNT".toList, .pbytecnt), ("USTATE".toList, .ustate),
   ("UBYTECNT".toList, .ubytecnt), ("UBITCNT".toList, .ubitcnt), ("DCAND".toList, .dcand), ("DCLEN".toList, .dclen),
   ("DBITCNT".toList, .dbitcnt)] ++
  [("DSYMCNT".toList, .dsymcnt), ("TCOUNT".toList, .tcount), ("TIDX".toList, .tidx), ("TENTSYM".toList, .tentsym),
   ("TENTLEN".toList, .tentlen), ("TENTCODE".toList, .tentcode), ("TCAP".toList, .tcap)]

/-- A register operand: a number or a name of R22. -/
def registerField : Token → Option (BitVec 8)
  | .name w => (registerNames.find? fun p => p.1 == w).map fun p => p.2.number
  | t => field 8 t

/-- The mnemonics without operands. -/
def plainCommands : List (List Char × Op) :=
  [("NOP".toList, .nop), ("SRST".toList, .srst), ("PSTART".toList, .pstart), ("PEND".toList, .pend),
   ("UEND".toList, .uend), ("DSTART".toList, .dstart), ("DEND".toList, .dend), ("TCLR".toList, .tclr)]

/-- The word of a command without operands. -/
def plainWord (m : List Char) : Option CmdWord :=
  (plainCommands.find? fun p => p.1 == m).map fun p => formatZ p.2.code

/-- The word of a command with one operand. -/
def oneOperandWord (m : List Char) (a : Token) : Option CmdWord :=
  if m = "ENCS".toList then (field 21 a).map (formatS Op.encs.code)
  else if m = "UBYTE".toList then (field 8 a).map (formatY Op.ubyte.code)
  else if m = "RDSR".toList then (registerField a).map fun r => formatR Op.rdsr.code r 0
  else if m = "PBIT".toList then ((field 32 a).map Pseudo.pbit).bind fun p => p.expand.map encode
  else if m = "DBIT".toList then ((field 32 a).map Pseudo.dbit).bind fun p => p.expand.map encode
  else if m = "PBYTE".toList then ((field 32 a).map Pseudo.pbyte).bind fun p => p.expand.map encode
  else
    match a with
    | .bits s =>
      if m = "PSTR".toList then (Pseudo.pstr s).expand.map encode
      else if m = "DSTR".toList then (Pseudo.dstr s).expand.map encode
      else none
    | _ => none

/-- The word of a command with two operands. -/
def twoOperandWord (m : List Char) (a b : Token) : Option CmdWord :=
  if m = "PBITS".toList then (field 6 a).bind fun n => (field 32 b).map (formatB Op.pbits.code n)
  else if m = "DBITS".toList then (field 6 a).bind fun n => (field 32 b).map (formatB Op.dbits.code n)
  else if m = "USTART".toList then (field 3 a).bind fun pad => (field 1 b).map fun dst => formatU Op.ustart.code dst pad
  else if m = "WRSR".toList then (registerField a).bind fun r => (field 32 b).map (formatR Op.wrsr.code r)
  else
    match b with
    | .bits s => if m = "TLDS".toList then (field 21 a).bind fun sym => (Pseudo.tlds sym s).expand.map encode else none
    | _ => none

/-- The word of a command with three operands. -/
def threeOperandWord (m : List Char) (a b c : Token) : Option CmdWord :=
  if m = "TLD".toList then
    (field 21 a).bind fun sym => (field 6 b).bind fun len => (field 32 c).map fun code => formatT Op.tld.code len sym code
  else none

/-- The word of a mnemonic and its operands. -/
def commandWord (m : List Char) (ops : List Token) : Option CmdWord :=
  match ops with
  | [] => plainWord m
  | [a] => oneOperandWord m a
  | [a, b] => twoOperandWord m a b
  | [a, b, c] => threeOperandWord m a b c
  | _ => none

/-- The words of one line: none for a line that is no command, an empty list for a line without one. -/
def assembleLine (line : List Char) : Option (List CmdWord) :=
  match readTokens .blank line with
  | some [] => some []
  | some (.name m :: rest) => (readOperands rest).bind fun ops => (commandWord m ops).map ([·])
  | _ => none

/-- The lines of a text. -/
def splitLines : List Char → List (List Char)
  | [] => [[]]
  | c :: cs =>
    match c.toNat, splitLines cs with
    | 10, ls => [] :: ls
    | _, l :: ls => (c :: l) :: ls
    | _, [] => [[c]]

/-- The command words of a program text, one command a line (R108); none if some line is no command. -/
def assemble (text : String) : Option (List CmdWord) :=
  (splitLines text.toList).foldr (fun l acc => (assembleLine l).bind fun ws => acc.map (ws ++ ·)) (some [])

end Sys2Proof.Machine
end

