-- ==== Sys2Proof/Machine/Reference.lean ====
section
/-! DEFINITION. The reference functions the hardware must compute (40_reference_functions.md R120 to R131): mathematical functions
over finite sequences, written from the spec's own definitions and independent of the machine's step. -/
namespace Sys2Proof.Machine

/-- `byte(s) = val(s)`, for a bit string of length 8 (R120). -/
def byteOf (s : Bits) : Byte := BitVec.ofNat 8 (val s)

/-- The whole bytes of a bit string, 8 bits each, first to last: `byte(B[8k .. 8k+7])` (R121). -/
def wholeBytes (B : Bits) : List Byte :=
  (List.range (B.length / 8)).map fun k => byteOf ((B.drop (8 * k)).take 8)

/-- The bits after the last whole byte of a bit string. -/
def leftover (B : Bits) : Bits := B.drop (8 * (B.length / 8))

/-- The padding count `p = (8 − (L mod 8)) mod 8` (R121). -/
def padCount (L : Nat) : Nat := (8 - L % 8) % 8

/-- `pack : Bits → Bytes × {0..7}` (R121). -/
def refPack (B : Bits) : List Byte × Nat :=
  (wholeBytes (B ++ List.replicate (padCount B.length) false), padCount B.length)

/-- `unpack : Bytes × {0..7} → Bits` (R122). No value where the spec gives none: when `p` exceeds the number of bits
(R123), and outside the domain, for a `p` above 7, which no `USTART` can express (R95; DEDUCED, log 12: N5.2). -/
def refUnpack (Y : List Byte) (p : Nat) : Option Bits :=
  if p ≤ 7 ∧ p ≤ 8 * Y.length then some ((Y.flatMap bin8).take (8 * Y.length - p)) else none

/-- A code table as a finite list of (symbol, code) pairs (R120). -/
abbrev CodeMap := List (Sym21 × Bits)

/-- The properties of R125: a mapping, prefix-free (equal codes included), codes of length at least 1. -/
abbrev CodeMap.Legal (T : CodeMap) : Prop :=
  T.Pairwise (fun a b => a.1 ≠ b.1)
    ∧ T.Pairwise (fun a b => ¬ a.2 <+: b.2 ∧ ¬ b.2 <+: a.2)
    ∧ ∀ p ∈ T, p.2 ≠ []

/-- The code of a symbol, `T(s)`. -/
def CodeMap.codeOf (T : CodeMap) (s : Sym21) : Option Bits := (T.find? fun p => p.1 == s).map Prod.snd

/-- The symbol of a code, `inv(c)` (R127): at most one pair fits in a legal table, and only there is it used. -/
def CodeMap.symOf (T : CodeMap) (c : Bits) : Option Sym21 := (T.find? fun p => p.2 == c).map Prod.fst

/-- The loop body of `decode` (R127): text so far and candidate. -/
def refDecodeBit (T : CodeMap) (st : List Sym21 × Bits) (x : Bool) : List Sym21 × Bits :=
  match T.symOf (st.2 ++ [x]) with
  | some s => (st.1 ++ [s], [])
  | none => (st.1, st.2 ++ [x])

/-- The loop of `decode` alone, from a candidate, without the precondition of R125; it stands for `decode` only under that
precondition, in `refDecodeFrom`. -/
def decodeLoop (T : CodeMap) (cand : Bits) (B : Bits) : List Sym21 × Bits :=
  B.foldl (refDecodeBit T) ([], cand)

/-- `decode` continued from a candidate; no value by a table that lacks a property of R125 (R126, R127). -/
def refDecodeFrom (T : CodeMap) (cand : Bits) (B : Bits) : Option (List Sym21 × Bits) :=
  if T.Legal then some (decodeLoop T cand B) else none

/-- `decode : Bits × Table → Text × Bits` (R127): the text and the trailing fragment. No value by a table that lacks a
property of R125, so none by one that is not prefix-free (R126). -/
def refDecode (B : Bits) (T : CodeMap) : Option (List Sym21 × Bits) := refDecodeFrom T [] B

/-- The recursion of `encode` alone (R130): no value when a symbol is missing. -/
def encodeLoop : List Sym21 → CodeMap → Option Bits
  | [], _ => some []
  | s :: X, T =>
    match T.codeOf s, encodeLoop X T with
    | some c, some r => some (c ++ r)
    | _, _ => none

/-- `encode : Text × Table → Bits` (R130); no value when a symbol is missing, nor by a table that lacks a property R125
requires of the encoder's table. -/
def refEncode (X : List Sym21) (T : CodeMap) : Option Bits := if T.Legal then encodeLoop X T else none

/-- `compress`'s inner step for text and table: `pack(encode(X, T))` (R130). -/
def refCompress (X : List Sym21) (T : CodeMap) : Option (List Byte × Nat) := (refEncode X T).map refPack

/-- The mapping the table memory stands for (R50): symbol to the text of its code. -/
def CodeTable.toMap (t : CodeTable) : CodeMap := t.entries.map fun e => (e.sym, str e.len.toNat e.code)

/-- The decoder registers and the text after a bit string, by the loop of `decode` (R127, R139, R186): the fragment's
length up to 33 and its first 32 bits; a dead decoder only counts the bits. -/
def feedLoop (t : CodeTable) (d : Decoder) (B : Bits) : Decoder × List Sym21 :=
  if d.dclen = 33 then ({ d with dbitcnt := d.dbitcnt + BitVec.ofNat 32 B.length }, [])
  else
    let r := decodeLoop t.toMap (str d.dclen.toNat d.dcand) B
    ({ d with
        dcand := BitVec.ofNat 32 (val (r.2.take 32))
        dclen := BitVec.ofNat 6 (min r.2.length 33)
        dbitcnt := d.dbitcnt + BitVec.ofNat 32 B.length
        dsymcnt := d.dsymcnt + BitVec.ofNat 32 r.1.length }, r.1)

/-- The decoder registers and the text after a bit string; no value by a table that lacks a property of R125 (R126). -/
def refFeed (t : CodeTable) (d : Decoder) (B : Bits) : Option (Decoder × List Sym21) :=
  if t.toMap.Legal then some (feedLoop t d B) else none

end Sys2Proof.Machine
end

