-- ==== Sys2Proof/Safety.lean ====
section
/-! DEFINITION. The terms claims are stated in: the state invariant of 10_state.md R66, the counter laws of R31 and R35, runs of
commands, and what the commands of a session contribute to it (40_reference_functions.md R137 to R139). -/
namespace Sys2Proof.Machine

/-- The invariants of every reachable state (R66, with R50 and R51, and R5 for the parameter). -/
structure State.Inv (s : State) : Prop where
  /-- (1) -/
  packFlags : ¬ (s.pk.pact = true ∧ s.pk.pdone = true)
  unpackFlags : ¬ (s.un.uact = true ∧ s.un.udone = true)
  decodeFlags : ¬ (s.de.dact = true ∧ s.de.ddone = true)
  /-- (2) -/
  accFits : s.pk.pacc.toNat < 2 ^ s.pk.pcnt.toNat
  accIdle : s.pk.pact = false → s.pk.pacc = 0 ∧ s.pk.pcnt = 0
  /-- (3) -/
  holdEmpty : s.un.uholdv = false → s.un.uhold = 0
  holdIdle : s.un.uact = false → s.un.uholdv = false
  /-- (4) -/
  candLen : s.de.dclen.toNat ≤ 33
  candFits : s.de.dclen.toNat ≤ 32 → s.de.dcand.toNat < 2 ^ s.de.dclen.toNat
  /-- (5) -/
  routedActive : s.un.uact = true → s.un.udst = .decoder → s.de.dact = true
  /-- (6), and the four invariants of R51 -/
  countFits : s.tab.tcount.toNat ≤ s.cfg.ctEntries.toNat
  oneCodePerSymbol : s.tab.entries.Pairwise fun a b => a.sym ≠ b.sym
  prefixFree : s.tab.entries.Pairwise fun a b => conflicts a.len a.code b.len b.code = false
  codeLengths : ∀ e ∈ s.tab.entries, 1 ≤ e.len.toNat ∧ e.len.toNat ≤ 32
  codesCanonical : ∀ e ∈ s.tab.entries, e.code.toNat < 2 ^ e.len.toNat
  /-- R50: an entry at or beyond `TCOUNT` is all zeros; and the memory is in its canonical form -/
  unusedZero : ∀ i, s.tab.tcount.toNat ≤ i → s.tab.mem.read i = Entry.zero
  memWf : s.tab.mem.wf
  /-- (7) -/
  causeLegal : s.flt.fcause.toNat ≤ 9
  noFaultNoCmd : s.flt.fcause = 0 → s.flt.fcmd = 0
  /-- (8) -/
  noMatchPending : s.de.dact = true → s.de.dclen.toNat ≤ 32 →
    ∀ e ∈ s.tab.entries, ¬ (e.len = s.de.dclen ∧ e.code = s.de.dcand)
  /-- R5 -/
  capacityOk : s.cfg.ok

/-- What the counters of the packer and the unpacker say of each other (R31, R35), modulo 2^32; during a session the
bits not yet emitted or released make up the difference. -/
structure State.CounterLaw (s : State) : Prop where
  packActive : s.pk.pact = true → s.pk.pbytecnt * 8 + s.pk.pcnt.setWidth 32 = s.pk.pbitcnt
  packDone : s.pk.pdone = true → s.pk.pbytecnt * 8 - s.pk.padcnt.setWidth 32 = s.pk.pbitcnt
  unpackActive : s.un.uact = true →
    s.un.ubitcnt + (if s.un.uholdv then 8 else 0) = s.un.ubytecnt * 8
  unpackDone : s.un.udone = true → s.un.ubytecnt * 8 - s.un.upad.setWidth 32 = s.un.ubitcnt

/-- Commands executed one after the other (R9); a run goes on while each answers a next state. -/
def runInstrs : List Instr → State → Result
  | [], s => .next s
  | i :: is, s =>
    match exec i s with
    | .next t => runInstrs is t
    | .fault r => .fault r
    | .refused r => .refused r

/-- The values of the 23 registers, in the order of their numbers (R22). -/
def allRegisters (s : State) : List Word :=
  [.id, .ctrl, .status, .fcause, .fcmdlo, .fcmdhi, .padcnt, .pstate, .pbitcnt, .pbytecnt, .ustate, .ubytecnt,
   .ubitcnt, .dcand, .dclen, .dbitcnt, .dsymcnt, .tcount, .tidx, .tentsym, .tentlen, .tentcode, .tcap].map
    fun r => regRead r s

/-- The bits a command contributes to a pack session (R137). -/
def packContribution (t : CodeTable) : Instr → Bits
  | .pbits n v => str n.toNat v
  | .encs sym => encodedBits t sym
  | .nop | .srst | .pstart | .pend | .ustart _ _ | .ubyte _ | .uend | .dstart | .dbits _ _ | .dend
  | .tclr | .tld _ _ _ | .rdsr _ | .wrsr _ _ => []

/-- The bytes a command gives to an unpack session (R138). -/
def unpackContribution : Instr → List Byte
  | .ubyte b => [b]
  | .nop | .srst | .pstart | .pbits _ _ | .pend | .encs _ | .ustart _ _ | .uend | .dstart | .dbits _ _ | .dend
  | .tclr | .tld _ _ _ | .rdsr _ | .wrsr _ _ => []

/-- The bits given to a decode session by `DBITS` commands and complete routed unpack sessions, in command order
(R139, R277). The first argument is the routed unpack session in progress: its padding count and bytes so far. -/
def decoderInput : Option (BitVec 3 × List Byte) → List Instr → Bits
  | _, [] => []
  | ctx, i :: is =>
    match i with
    | .dbits n v => str n.toNat v ++ decoderInput ctx is
    | .ustart pad .decoder => decoderInput (some (pad, [])) is
    | .ustart _ .bitOut => decoderInput none is
    | .ubyte b => decoderInput (ctx.map fun c => (c.1, c.2 ++ [b])) is
    | .uend =>
      match ctx with
      | some c => (refUnpack c.2 c.1.toNat).getD [] ++ decoderInput none is
      | none => decoderInput none is
    | .nop | .srst | .pstart | .pbits _ _ | .pend | .encs _ | .dstart | .dend
    | .tclr | .tld _ _ _ | .rdsr _ | .wrsr _ _ => decoderInput ctx is

/-- The outcome of a command that raises the fault of a given code (R237): the record, and nothing else. -/
def refusedWith (code : BitVec 4) (i : Instr) (s : State) : Result :=
  .next { s with flt := { fcause := code, fcmd := encode i } }

/-- The command is one of the four of the pack family (R140). -/
def isPackCmd (i : Instr) : Bool := i.op == .pstart || i.op == .pbits || i.op == .pend || i.op == .encs

/-- The command is one of the three of the unpack family (R160). -/
def isUnpackCmd (i : Instr) : Bool := i.op == .ustart || i.op == .ubyte || i.op == .uend

/-- The command is one of the three of the decode family (R180). -/
def isDecodeCmd (i : Instr) : Bool := i.op == .dstart || i.op == .dbits || i.op == .dend

/-- The command is one of the two of the table family (R200). -/
def isTableCmd (i : Instr) : Bool := i.op == .tclr || i.op == .tld

/-- The command runs in the faulted state: `NOP`, `SRST`, `RDSR` (R238). -/
def runsFaulted (i : Instr) : Bool := i.op == .nop || i.op == .srst || i.op == .rdsr

end Sys2Proof.Machine
end

