-- ==== Sys2Proof/Certificates/Slice0/Obligations.lean ====
section
/-! DEFINITION. The statements for the provers, from the numbered rules of the spec. Each names the rule it formalises. The fields
`cfg` (the capacity, log 1) and `inputs` (what the host presents, log 2) are the model's own, no state of R20. -/

open Sys2Proof Sys2Proof.Machine

/-! ## Encoding (30_encoding.md) -/

/-- R98 to R101: decoding the word of a well-formed command gives the command back, every operand at every value. -/
def Obligations.DecodeOfEncode : Prop :=
  ∀ i : Instr, i.wf = true → decode (encode i) = .ok i

/-- R100, R101: a word that decodes is the word of the command it decodes to, ignored operand bits included, and the
command is well-formed. So two words never spell one command. -/
def Obligations.EncodeOfDecode : Prop :=
  ∀ (cw : CmdWord) (i : Instr), decode cw = .ok i → encode i = cw ∧ i.wf = true

/-- R98: a word spells a row's command exactly when `cw & mask = match`; at most one row matches a word; a word no row
matches is illegal. A word that matches a row can still be refused for an operand (R100). -/
def Obligations.MaskAndMatchSelectTheRow : Prop :=
  (∀ (cw : CmdWord) (i : Instr), decode cw = .ok i → cw &&& i.op.mask = i.op.matchWord)
    ∧ (∀ (cw : CmdWord) (op : Op), cw &&& op.mask = op.matchWord →
        (∃ i : Instr, decode cw = .ok i ∧ i.op = op)
          ∨ ((op = .pbits ∨ op = .dbits ∨ op = .tld) ∧ decode cw = .error .badOperand)
          ∨ ((op = .rdsr ∨ op = .wrsr) ∧ decode cw = .error .illegalCmd))
    ∧ (∀ (cw : CmdWord) (a b : Op), cw &&& a.mask = a.matchWord → cw &&& b.mask = b.matchWord → a = b)
    ∧ (∀ cw : CmdWord, (∀ op : Op, cw &&& op.mask ≠ op.matchWord) → decode cw = .error .illegalCmd)

/-- R100: which words are illegal, (a) to (d), and which have a bad operand; every other word decodes. An unfaulted block
records an illegal word as fault 1 and a bad operand as fault 2. -/
def Obligations.BadWordsAreTheListedOnes : Prop :=
  ∀ cw : CmdWord,
    (decode cw = .error .illegalCmd ↔
      (∀ op : Op, cw &&& op.mask ≠ op.matchWord)
        ∨ ((cw &&& Op.rdsr.mask = Op.rdsr.matchWord ∨ cw &&& Op.wrsr.mask = Op.wrsr.matchWord)
            ∧ 0x16 < (regField cw).toNat)
        ∨ (cw &&& Op.wrsr.mask = Op.wrsr.matchWord ∧ regField cw ≠ 0x01 ∧ regField cw ≠ 0x12)
        ∨ (cw &&& Op.wrsr.mask = Op.wrsr.matchWord ∧ regField cw = 0x01 ∧ (valueField cw).extractLsb' 2 30 ≠ 0))
    ∧ (decode cw = .error .badOperand ↔
        ((cw &&& Op.pbits.mask = Op.pbits.matchWord ∨ cw &&& Op.dbits.mask = Op.dbits.matchWord)
            ∧ 32 < (countField cw).toNat)
          ∨ (cw &&& Op.tld.mask = Op.tld.matchWord ∧ (countField cw = 0 ∨ 32 < (countField cw).toNat)))
    ∧ (∀ (s : State) (rest : List HostInput), s.inputs = .command cw :: rest → s.faulted = false →
        (decode cw = .error .illegalCmd →
            step s = .next { s with inputs := rest, flt := { fcause := 1, fcmd := cw } })
          ∧ (decode cw = .error .badOperand →
              step s = .next { s with inputs := rest, flt := { fcause := 2, fcmd := cw } }))

/-- Words written out from the formats R91 to R97, one of each format, decode to the commands they stand for. -/
def Obligations.SampleWordsDecode : Prop :=
  decode 0x4000000000000000 = .ok .pend
    ∧ decode 0x3060000000000005 = .ok (.pbits 3 5)
    ∧ decode 0x5000006100000000 = .ok (.encs 0x61)
    ∧ decode 0xD040006100000002 = .ok (.tld 0x61 2 2)
    ∧ decode 0x6000000000000102 = .ok (.ustart 2 .decoder)
    ∧ decode 0x70000000000000AF = .ok (.ubyte 0xAF)
    ∧ decode 0xF000001200000001 = .ok (.wrsr .tidx 1)

/-- R109: what each pseudo-instruction expands to. A literal of 0 to 32 characters is a group whose bits are the literal,
in a pack session, a decode session or, if it is not empty, as a code; the expansion is a command the decoder yields. -/
def Obligations.PseudoInstructionsExpand : Prop :=
  (∀ b : Word, (Pseudo.pbit b).expand = some (.pbits 1 b) ∧ (Pseudo.dbit b).expand = some (.dbits 1 b)
      ∧ (Pseudo.pbyte b).expand = some (.pbits 8 b))
    ∧ (∀ s : Bits, s.length ≤ 32 → ∃ (n : BitVec 6) (v : Word),
        n.toNat = s.length ∧ v.toNat = val s ∧ str n.toNat v = s
          ∧ (Pseudo.pstr s).expand = some (.pbits n v) ∧ decode (encode (.pbits n v)) = .ok (.pbits n v)
          ∧ (Pseudo.dstr s).expand = some (.dbits n v) ∧ decode (encode (.dbits n v)) = .ok (.dbits n v)
          ∧ (∀ sym : Sym21, s ≠ [] → (Pseudo.tlds sym s).expand = some (.tld sym n v)
              ∧ decode (encode (.tld sym n v)) = .ok (.tld sym n v)))
    ∧ (∀ (s : Bits) (sym : Sym21), 32 < s.length →
        (Pseudo.pstr s).expand = none ∧ (Pseudo.dstr s).expand = none ∧ (Pseudo.tlds sym s).expand = none)
    ∧ (∀ sym : Sym21, (Pseudo.tlds sym []).expand = none)

/-! ## A step (00_scope.md R9, 60_exceptions.md R238, 70_reset_and_hazards.md R260) -/

/-- R9, R101, R238: when the next word on the command port decodes, a step takes the word and executes the command. -/
def Obligations.StepRunsTheDecodedCommand : Prop :=
  ∀ (s : State) (cw : CmdWord) (rest : List HostInput) (i : Instr),
    s.inputs = .command cw :: rest → decode cw = .ok i → step s = exec i { s with inputs := rest }

/-- R238: the front end. In the faulted state `NOP`, `SRST` and `RDSR` run and every other word, a legal command or not,
leaves no trace; in the unfaulted state a bad word enters the fault with its cause and a command is executed, and if it
raises a fault nothing but the fault record is written. -/
def Obligations.EveryWordPassesTheFrontEnd : Prop :=
  ∀ (s : State) (cw : CmdWord) (rest : List HostInput), s.inputs = .command cw :: rest →
    (s.faulted = true →
      (∀ i, decode cw = .ok i → i.op = .nop ∨ i.op = .srst ∨ i.op = .rdsr → step s = exec i { s with inputs := rest })
        ∧ (∀ i, decode cw = .ok i → ¬ (i.op = .nop ∨ i.op = .srst ∨ i.op = .rdsr) →
            step s = .next { s with inputs := rest })
        ∧ (∀ e, decode cw = .error e → step s = .next { s with inputs := rest }))
      ∧ (s.faulted = false →
          (decode cw = .error .illegalCmd →
              step s = .next { s with inputs := rest, flt := { fcause := 1, fcmd := cw } })
            ∧ (decode cw = .error .badOperand →
                step s = .next { s with inputs := rest, flt := { fcause := 2, fcmd := cw } })
            ∧ (∀ i, decode cw = .ok i → step s = exec i { s with inputs := rest })
            ∧ (∀ t, step s = .next t → t.faulted = true →
                ∃ c, t = { s with inputs := rest, flt := { fcause := c, fcmd := cw } }))

/-- R260 (a hardware reset between two commands gives the reset state); with nothing presented the block waits as it
is, which is the model's choice (log 2). -/
def Obligations.HardwareResetAndWaiting : Prop :=
  ∀ s : State,
    (∀ rest, s.inputs = .hwReset :: rest → step s = .next (State.resetWith s.cfg rest))
      ∧ (s.inputs = [] → step s = .next s)

/-- R237: a fault is precise. A step that takes the block from unfaulted to faulted changes the fault record only: the
cause is one of the nine codes, `FCMD` is the word as transferred, and `irq` rises if `FIE = 1`. -/
def Obligations.FaultIsPrecise : Prop :=
  ∀ (s t : State) (cw : CmdWord) (rest : List HostInput),
    s.inputs = .command cw :: rest → s.faulted = false → step s = .next t → t.faulted = true →
      t.irq = s.ctl.fie ∧ s.irq = false
        ∧ ∃ code : BitVec 4, code ≠ 0 ∧ code.toNat ≤ 9
          ∧ t = { s with inputs := rest, flt := { fcause := code, fcmd := cw } }

/-- R238: in the faulted state every command but `NOP`, `SRST` and `RDSR` is discarded. -/
def Obligations.FaultedBlockDiscards : Prop :=
  ∀ (i : Instr) (s : State), s.faulted = true → runsFaulted i = false → exec i s = .next s

/-- R26, R240: once a fault is recorded, no command but a legal `SRST` changes the record. -/
def Obligations.FirstFaultIsKept : Prop :=
  ∀ (s t : State) (cw : CmdWord) (rest : List HostInput),
    s.inputs = .command cw :: rest → s.faulted = true → cw ≠ 0x1000000000000000 → step s = .next t → t.flt = s.flt

/-- R280 (each command completes), R5, R126: from every state that meets the invariant a step answers a next state; in any
state no step changes the parameter or is refused, and one stops only by a table that is not prefix-free. -/
def Obligations.EveryStepAnswersANextState : Prop :=
  ∀ s : State,
    (s.Inv → ∃ t, step s = .next t) ∧ (∀ t, step s = .next t → t.cfg = s.cfg) ∧ (∀ r, step s ≠ .refused r)
      ∧ (∀ r, step s = .fault r →
          r = .malformedTable ∧ ¬ s.tab.entries.Pairwise fun a b => conflicts a.len a.code b.len b.code = false)

/-- R9, R79: the run of a stream of well-formed commands on the command port is the commands executed one after the
other, and completes from every state that meets the invariant; what the host sends later does not steer a command. -/
def Obligations.StreamRunsInOrder : Prop :=
  ∀ (is : List Instr) (rest : List HostInput) (s : State), (∀ i ∈ is, i.wf = true) →
    Host.Core.run core is.length { s with inputs := is.map (fun i => .command (encode i)) ++ rest }
        = runInstrs is { s with inputs := rest }
      ∧ (s.Inv → ∃ t, runInstrs is { s with inputs := rest } = .next t)

/-! ## Pack family (41_pack.md) -/

/-- R142: `PSTART`. With the packer idle it begins a session; in a session it is fault 3; a word of its opcode with any
other bit set is illegal. -/
def Obligations.PstartBeginsASession : Prop :=
  encode .pstart = 0x2000000000000000
    ∧ (∀ cw : CmdWord, opField cw = 0x2 → cw.extractLsb' 0 60 ≠ 0 → decode cw = .error .illegalCmd)
    ∧ ∀ s : State, s.faulted = false →
        (s.pk.pact = true → exec .pstart s = refusedWith 3 .pstart s)
          ∧ (s.pk.pact = false →
              exec .pstart s = .next
                { s with pk := { pact := true, pdone := false, pacc := 0, pcnt := 0, padcnt := 0, pbitcnt := 0
                                 pbytecnt := 0 } })

/-- R143, R73, R75: `PBITS n, v`. In a session the bits held and the `n` new ones, bit `n − 1` of `v` first, are cut into
bytes, most significant bit first; the whole bytes leave and the rest is held. A count above 32 is fault 2, session or
not; no session is fault 3; a reserved bit set is illegal. Splitting a group in two gives the same state and output. -/
def Obligations.PbitsPacksTheGroup : Prop :=
  (∀ (n : BitVec 6) (v : Word), encode (.pbits n v) = 0x3#4 ++ 0#1 ++ n ++ 0#21 ++ v)
    ∧ (∀ cw : CmdWord, opField cw = 0x3 → cw.extractLsb' 59 1 ≠ 0 ∨ cw.extractLsb' 32 21 ≠ 0 →
        decode cw = .error .illegalCmd)
    ∧ ∀ (n : BitVec 6) (v : Word) (s : State), s.faulted = false →
        (32 < n.toNat → exec (.pbits n v) s = refusedWith 2 (.pbits n v) s)
          ∧ (n.toNat ≤ 32 → s.pk.pact = false → exec (.pbits n v) s = refusedWith 3 (.pbits n v) s)
          ∧ (n.toNat ≤ 32 → s.pk.pact = true → s.pk.pacc.toNat < 2 ^ s.pk.pcnt.toNat →
              let stream := str s.pk.pcnt.toNat s.pk.pacc ++ str n.toNat v
              exec (.pbits n v) s = .next
                { s with
                  pk := { s.pk with
                          pacc := BitVec.ofNat 8 (val (leftover stream))
                          pcnt := BitVec.ofNat 3 ((s.pk.pcnt.toNat + n.toNat) % 8)
                          pbitcnt := s.pk.pbitcnt + BitVec.ofNat 32 n.toNat
                          pbytecnt := s.pk.pbytecnt + BitVec.ofNat 32 ((s.pk.pcnt.toNat + n.toNat) / 8) }
                  out := { s.out with byteOut := s.out.byteOut ++ wholeBytes stream } })
          ∧ (∀ k : BitVec 6, s.pk.pact = true → n.toNat ≤ 32 → k.toNat ≤ n.toNat →
              ∃ t, exec (.pbits n v) s = .next t
                ∧ runInstrs [.pbits (n - k) (v >>> k.toNat), .pbits k v] s = .next t)

/-- R144, R74: `PEND`. In a session a partial byte is completed with zero bits on its right and leaves; the padding count
is their number; a session that ends on a byte boundary emits nothing and has padding 0. No session is fault 3. -/
def Obligations.PendPadsTheLastByte : Prop :=
  encode .pend = 0x4000000000000000
    ∧ (∀ cw : CmdWord, opField cw = 0x4 → cw.extractLsb' 0 60 ≠ 0 → decode cw = .error .illegalCmd)
    ∧ ∀ s : State, s.faulted = false →
        (s.pk.pact = false → exec .pend s = refusedWith 3 .pend s)
          ∧ (s.pk.pact = true → s.pk.pcnt ≠ 0 →
              exec .pend s = .next
                { s with
                  pk := { s.pk with pact := false, pdone := true, pacc := 0, pcnt := 0
                                    padcnt := BitVec.ofNat 3 (8 - s.pk.pcnt.toNat), pbytecnt := s.pk.pbytecnt + 1 }
                  out := { s.out with byteOut := s.out.byteOut ++
                    [byteOf (str s.pk.pcnt.toNat s.pk.pacc ++ List.replicate (8 - s.pk.pcnt.toNat) false)] } })
          ∧ (s.pk.pact = true → s.pk.pcnt = 0 →
              exec .pend s = .next
                { s with pk := { s.pk with pact := false, pdone := true, pacc := 0, pcnt := 0, padcnt := 0 } })

/-- R146, R145: `ENCS sym`. A symbol in the table has the effect of `PBITS e.len, e.code` of its entry; a symbol with no
entry is fault 4; no session is fault 3, looked at first. -/
def Obligations.EncsPacksTheCode : Prop :=
  (∀ sym : Sym21, encode (.encs sym) = 0x5#4 ++ 0#7 ++ sym ++ 0#32)
    ∧ (∀ cw : CmdWord, opField cw = 0x5 → cw.extractLsb' 53 7 ≠ 0 ∨ cw.extractLsb' 0 32 ≠ 0 →
        decode cw = .error .illegalCmd)
    ∧ ∀ s : State, s.Inv → s.faulted = false →
        (∀ sym, s.pk.pact = false → exec (.encs sym) s = refusedWith 3 (.encs sym) s)
          ∧ (∀ sym, s.pk.pact = true → (∀ e ∈ s.tab.entries, e.sym ≠ sym) →
              exec (.encs sym) s = refusedWith 4 (.encs sym) s)
          ∧ (∀ e ∈ s.tab.entries, s.pk.pact = true →
              ∃ t, exec (.encs e.sym) s = .next t ∧ exec (.pbits e.len e.code) s = .next t ∧ t.faulted = false
                ∧ t.pk.pbitcnt = s.pk.pbitcnt + BitVec.ofNat 32 e.len.toNat)

/-- R140, R142, R143, R144, R146, R270: what the pack family leaves unchanged. -/
def Obligations.PackFrame : Prop :=
  ∀ (i : Instr) (s t : State), isPackCmd i = true → exec i s = .next t →
    t.cfg = s.cfg ∧ t.inputs = s.inputs ∧ t.ctl = s.ctl ∧ t.un = s.un ∧ t.de = s.de
      ∧ t.tab.tcount = s.tab.tcount ∧ (∀ a, t.tab.mem.read a = s.tab.mem.read a)
      ∧ t.out.bitOut = s.out.bitOut ∧ t.out.symOut = s.out.symOut ∧ t.out.respOut = s.out.respOut
      ∧ (t.flt = s.flt ∨ (t.pk = s.pk ∧ t.out = s.out))
      ∧ (i.op = .pbits ∨ i.op = .encs →
          t.pk.pact = s.pk.pact ∧ t.pk.pdone = s.pk.pdone ∧ t.pk.padcnt = s.pk.padcnt)
      ∧ (i.op = .pend → t.pk.pbitcnt = s.pk.pbitcnt)
      ∧ (i.op = .pstart → t.out.byteOut = s.out.byteOut)

/-! ## Unpack family (42_unpack.md) -/

/-- R163: `USTART pad, dst`. With the unpacker idle, and for `dst = 1` a decode session active, it begins a session and
leaves the decoder alone; otherwise it is fault 3. -/
def Obligations.UstartBeginsASession : Prop :=
  (∀ (pad : BitVec 3) (dst : Dest), encode (.ustart pad dst) = 0x6#4 ++ 0#51 ++ dst.bit ++ 0#5 ++ pad)
    ∧ (∀ cw : CmdWord, opField cw = 0x6 → cw.extractLsb' 9 51 ≠ 0 ∨ cw.extractLsb' 3 5 ≠ 0 →
        decode cw = .error .illegalCmd)
    ∧ ∀ (pad : BitVec 3) (dst : Dest) (s : State), s.faulted = false →
        (s.un.uact = true → exec (.ustart pad dst) s = refusedWith 3 (.ustart pad dst) s)
          ∧ (dst = .decoder → s.de.dact = false → exec (.ustart pad dst) s = refusedWith 3 (.ustart pad dst) s)
          ∧ (s.un.uact = false → (dst = .decoder → s.de.dact = true) →
              exec (.ustart pad dst) s = .next
                { s with un := { uact := true, udone := false, upad := pad, udst := dst, uholdv := false, uhold := 0
                                 ubytecnt := 0, ubitcnt := 0 } })

/-- R164, R162: `UBYTE b` releases all eight bits of the byte held, bit 7 first, and holds `b`: in an unrouted session the
bits go to `BIT_OUT`, in a routed one to the decoder. No session is fault 3. -/
def Obligations.UbyteReleasesTheHeldByte : Prop :=
  (∀ b : Byte, encode (.ubyte b) = 0x7#4 ++ 0#52 ++ b)
    ∧ (∀ cw : CmdWord, opField cw = 0x7 → cw.extractLsb' 8 52 ≠ 0 → decode cw = .error .illegalCmd)
    ∧ ∀ (b : Byte) (s : State), s.Inv → s.faulted = false →
        let bits := if s.un.uholdv then bin8 s.un.uhold else []
        let un := { s.un with
                    uhold := b, uholdv := true, ubytecnt := s.un.ubytecnt + 1
                    ubitcnt := s.un.ubitcnt + (if s.un.uholdv then 8 else 0) }
        (s.un.uact = false → exec (.ubyte b) s = refusedWith 3 (.ubyte b) s)
          ∧ (s.un.uact = true → s.un.udst = .bitOut →
              exec (.ubyte b) s = .next { s with un := un, out := { s.out with bitOut := s.out.bitOut ++ bits } })
          ∧ (s.un.uact = true → s.un.udst = .decoder →
              ∃ (de : Decoder) (syms : List Sym21), refFeed s.tab s.de bits = some (de, syms)
                ∧ exec (.ubyte b) s = .next
                    { s with un := un, de := de, out := { s.out with symOut := s.out.symOut ++ syms } })

/-- R165, R162, R123: `UEND` releases the first `8 − UPAD` bits of the byte held and drops the rest: in an unrouted session
the bits go to `BIT_OUT`, in a routed one to the decoder, whose session goes on. A session without a byte is fault 8 if
`UPAD ≠ 0`; no session is fault 3. -/
def Obligations.UendDropsThePadding : Prop :=
  encode .uend = 0x8000000000000000
    ∧ (∀ cw : CmdWord, opField cw = 0x8 → cw.extractLsb' 0 60 ≠ 0 → decode cw = .error .illegalCmd)
    ∧ ∀ s : State, s.Inv → s.faulted = false →
        let bits := if s.un.uholdv then (bin8 s.un.uhold).take (8 - s.un.upad.toNat) else []
        let un := { s.un with
                    uhold := 0, uholdv := false, uact := false, udone := true
                    ubitcnt := s.un.ubitcnt + (if s.un.uholdv then BitVec.ofNat 32 (8 - s.un.upad.toNat) else 0) }
        (s.un.uact = false → exec .uend s = refusedWith 3 .uend s)
          ∧ (s.un.uact = true → s.un.uholdv = false → s.un.upad ≠ 0 → exec .uend s = refusedWith 8 .uend s)
          ∧ (s.un.uact = true → s.un.uholdv = true ∨ s.un.upad = 0 → s.un.udst = .bitOut →
              exec .uend s = .next { s with un := un, out := { s.out with bitOut := s.out.bitOut ++ bits } })
          ∧ (s.un.uact = true → s.un.uholdv = true ∨ s.un.upad = 0 → s.un.udst = .decoder →
              ∃ (de : Decoder) (syms : List Sym21), refFeed s.tab s.de bits = some (de, syms)
                ∧ exec .uend s = .next
                    { s with un := un, de := de, out := { s.out with symOut := s.out.symOut ++ syms } })

/-- R160, R162 to R165, R270: what the unpack family leaves unchanged; in a routed session the decoder's registers that
`DecodeBit` writes and `SYM_OUT` may change, in an unrouted one `BIT_OUT` may. -/
def Obligations.UnpackFrame : Prop :=
  ∀ (i : Instr) (s t : State), isUnpackCmd i = true → exec i s = .next t →
    t.cfg = s.cfg ∧ t.inputs = s.inputs ∧ t.ctl = s.ctl ∧ t.pk = s.pk
      ∧ t.tab.tcount = s.tab.tcount ∧ (∀ a, t.tab.mem.read a = s.tab.mem.read a)
      ∧ t.out.byteOut = s.out.byteOut ∧ t.out.respOut = s.out.respOut
      ∧ t.de.dact = s.de.dact ∧ t.de.ddone = s.de.ddone ∧ t.de.trail = s.de.trail
      ∧ (t.flt = s.flt ∨ (t.un = s.un ∧ t.de = s.de ∧ t.out = s.out))
      ∧ (i.op = .ustart → t.de = s.de ∧ t.out = s.out)
      ∧ (s.un.udst = .bitOut → t.de = s.de ∧ t.out.symOut = s.out.symOut)
      ∧ (s.un.udst = .decoder → t.out.bitOut = s.out.bitOut)
      ∧ (i.op = .ubyte ∨ i.op = .uend → t.un.upad = s.un.upad ∧ t.un.udst = s.un.udst)
      ∧ (i.op = .ubyte → t.un.uact = s.un.uact ∧ t.un.udone = s.un.udone)
      ∧ (i.op = .uend → t.un.ubytecnt = s.un.ubytecnt)

/-! ## Decode family (43_decode.md) -/

/-- R183: `DSTART`. With the decoder idle it begins a session, whatever the table; in a session it is fault 3. -/
def Obligations.DstartBeginsASession : Prop :=
  encode .dstart = 0x9000000000000000
    ∧ (∀ cw : CmdWord, opField cw = 0x9 → cw.extractLsb' 0 60 ≠ 0 → decode cw = .error .illegalCmd)
    ∧ ∀ s : State, s.faulted = false →
        (s.de.dact = true → exec .dstart s = refusedWith 3 .dstart s)
          ∧ (s.de.dact = false →
              exec .dstart s = .next
                { s with de := { dact := true, ddone := false, dcand := 0, dclen := 0, trail := false, dbitcnt := 0
                                 dsymcnt := 0 } })

/-- R184, R181, R182, R127: `DBITS n, v` in a session continues the reference decode with the `n` bits, bit `n − 1` of `v`
first: the symbols it emits are those of the reference, and the registers hold the reference's fragment. A count above
32 is fault 2; no session, or a routed unpack session, is fault 3. Splitting a group in two gives the same. -/
def Obligations.DbitsDecodesTheGroup : Prop :=
  (∀ (n : BitVec 6) (v : Word), encode (.dbits n v) = 0xA#4 ++ 0#1 ++ n ++ 0#21 ++ v)
    ∧ (∀ cw : CmdWord, opField cw = 0xA → cw.extractLsb' 59 1 ≠ 0 ∨ cw.extractLsb' 32 21 ≠ 0 →
        decode cw = .error .illegalCmd)
    ∧ ∀ (n : BitVec 6) (v : Word) (s : State), s.Inv → s.faulted = false →
        (32 < n.toNat → exec (.dbits n v) s = refusedWith 2 (.dbits n v) s)
          ∧ (n.toNat ≤ 32 → s.de.dact = false → exec (.dbits n v) s = refusedWith 3 (.dbits n v) s)
          ∧ (n.toNat ≤ 32 → s.un.uact = true → s.un.udst = .decoder →
              exec (.dbits n v) s = refusedWith 3 (.dbits n v) s)
          ∧ (n.toNat ≤ 32 → s.de.dact = true → ¬ (s.un.uact = true ∧ s.un.udst = .decoder) →
              (∃ (de : Decoder) (syms : List Sym21), refFeed s.tab s.de (str n.toNat v) = some (de, syms)
                ∧ exec (.dbits n v) s = .next
                    { s with de := de, out := { s.out with symOut := s.out.symOut ++ syms } })
              ∧ ∀ k : BitVec 6, k.toNat ≤ n.toNat →
                  ∃ t, exec (.dbits n v) s = .next t
                    ∧ runInstrs [.dbits (n - k) (v >>> k.toNat), .dbits k v] s = .next t)

/-- R181, R186, R37: an unmatched 33rd bit makes the decoder dead and keeps the first 32 bits of the candidate; a dead
decoder counts the bits it is given and does nothing else. -/
def Obligations.DeadDecoderOnlyCounts : Prop :=
  ∀ (n : BitVec 6) (v : Word) (s : State), s.Inv → s.faulted = false → s.de.dact = true → n.toNat ≤ 32 →
    ¬ (s.un.uact = true ∧ s.un.udst = .decoder) →
      (s.de.dclen = 32 → 1 ≤ n.toNat →
        exec (.dbits n v) s = .next
          { s with de := { s.de with dclen := 33, dbitcnt := s.de.dbitcnt + BitVec.ofNat 32 n.toNat } })
        ∧ (s.de.dclen = 33 →
            exec (.dbits n v) s = .next
              { s with de := { s.de with dbitcnt := s.de.dbitcnt + BitVec.ofNat 32 n.toNat } })

/-- R126, U1: by a table that is not prefix-free `decode` has no value and the machine gives the decoder no bit: the
commands that would, stop. From a state that meets the invariant no step stops, and none leads to such a table. -/
def Obligations.MalformedTableIsNotDecoded : Prop :=
  (∀ (T : CodeMap) (B : Bits), ¬ T.Pairwise (fun a b => ¬ a.2 <+: b.2 ∧ ¬ b.2 <+: a.2) → refDecode B T = none)
    ∧ (∀ s : State, s.Inv → (∀ r, step s ≠ .fault r)
        ∧ ∀ t, step s = .next t → t.tab.toMap.Pairwise fun a b => ¬ a.2 <+: b.2 ∧ ¬ b.2 <+: a.2)
    ∧ ∀ s : State, s.faulted = false →
        (¬ s.tab.entries.Pairwise fun a b => conflicts a.len a.code b.len b.code = false) →
          (∀ (n : BitVec 6) (v : Word), 1 ≤ n.toNat → n.toNat ≤ 32 → s.de.dact = true →
              ¬ (s.un.uact = true ∧ s.un.udst = .decoder) → exec (.dbits n v) s = .fault .malformedTable)
            ∧ (s.un.uact = true → s.un.udst = .decoder → s.un.uholdv = true →
                (∀ b : Byte, exec (.ubyte b) s = .fault .malformedTable) ∧ exec .uend s = .fault .malformedTable)

/-- R185, R128: `DEND` in a session, outside a routed unpack session. With an empty candidate, or in permissive mode, it
ends the session and records whether a fragment was dropped; in strict mode a fragment is fault 9. No session, or a
routed unpack session, is fault 3. -/
def Obligations.DendEndsOrRefuses : Prop :=
  encode .dend = 0xB000000000000000
    ∧ (∀ cw : CmdWord, opField cw = 0xB → cw.extractLsb' 0 60 ≠ 0 → decode cw = .error .illegalCmd)
    ∧ ∀ s : State, s.faulted = false →
        (s.de.dact = false → exec .dend s = refusedWith 3 .dend s)
          ∧ (s.un.uact = true → s.un.udst = .decoder → exec .dend s = refusedWith 3 .dend s)
          ∧ (s.de.dact = true → ¬ (s.un.uact = true ∧ s.un.udst = .decoder) →
              (s.ctl.strict = true → s.de.dclen ≠ 0 → exec .dend s = refusedWith 9 .dend s)
                ∧ (s.ctl.strict = false ∨ s.de.dclen = 0 →
                    exec .dend s = .next
                      { s with de := { s.de with dact := false, ddone := true, trail := decide (s.de.dclen ≠ 0) } }))

/-- R180, R183, R184, R185, R270: what the decode family leaves unchanged. -/
def Obligations.DecodeFrame : Prop :=
  ∀ (i : Instr) (s t : State), isDecodeCmd i = true → exec i s = .next t →
    t.cfg = s.cfg ∧ t.inputs = s.inputs ∧ t.ctl = s.ctl ∧ t.pk = s.pk ∧ t.un = s.un
      ∧ t.tab.tcount = s.tab.tcount ∧ (∀ a, t.tab.mem.read a = s.tab.mem.read a)
      ∧ t.out.byteOut = s.out.byteOut ∧ t.out.bitOut = s.out.bitOut ∧ t.out.respOut = s.out.respOut
      ∧ (t.flt = s.flt ∨ (t.de = s.de ∧ t.out = s.out))
      ∧ (i.op = .dbits → t.de.dact = s.de.dact ∧ t.de.ddone = s.de.ddone ∧ t.de.trail = s.de.trail)
      ∧ (i.op = .dend → t.de.dcand = s.de.dcand ∧ t.de.dclen = s.de.dclen ∧ t.de.dbitcnt = s.de.dbitcnt
          ∧ t.de.dsymcnt = s.de.dsymcnt)
      ∧ (i.op = .dstart ∨ i.op = .dend → t.out.symOut = s.out.symOut)

/-! ## Table family (44_table.md) -/

/-- R201: `TCLR`. With no pack or decode session active it empties the table: every entry reads all zeros. In a session
it is fault 3. -/
def Obligations.TclrEmptiesTheTable : Prop :=
  encode .tclr = 0xC000000000000000
    ∧ (∀ cw : CmdWord, opField cw = 0xC → cw.extractLsb' 0 60 ≠ 0 → decode cw = .error .illegalCmd)
    ∧ ∀ s : State, s.faulted = false →
        (s.pk.pact = true ∨ s.de.dact = true → exec .tclr s = refusedWith 3 .tclr s)
          ∧ (s.pk.pact = false → s.de.dact = false →
              ∃ t, exec .tclr s = .next t ∧ t = { s with tab := t.tab } ∧ t.tab.tcount = 0
                ∧ (∀ a, t.tab.mem.read a = Entry.zero) ∧ t.tab.mem.wf)

/-- R202, R107: `TLD sym, len, code`. Its six checks in their order, then its effect: a fresh symbol whose code text is no
prefix of, and has as a prefix, no code of the table goes, its code masked, to index `TCOUNT` of a table with room, and
is counted; every other index reads as before. -/
def Obligations.TldAppendsTheEntry : Prop :=
  (∀ (sym : Sym21) (len : BitVec 6) (code : Word), encode (.tld sym len code) = 0xD#4 ++ 0#1 ++ len ++ sym ++ code)
    ∧ (∀ cw : CmdWord, opField cw = 0xD → cw.extractLsb' 59 1 ≠ 0 → decode cw = .error .illegalCmd)
    ∧ ∀ (sym : Sym21) (len : BitVec 6) (code : Word) (s : State), s.Inv → s.faulted = false →
        let known := ∃ e ∈ s.tab.entries, e.sym = sym
        let clash := ∃ e ∈ s.tab.entries, str e.len.toNat e.code <+: str len.toNat code
          ∨ str len.toNat code <+: str e.len.toNat e.code
        (len.toNat = 0 ∨ 32 < len.toNat → exec (.tld sym len code) s = refusedWith 2 (.tld sym len code) s)
          ∧ (1 ≤ len.toNat → len.toNat ≤ 32 →
              (s.pk.pact = true ∨ s.de.dact = true →
                exec (.tld sym len code) s = refusedWith 3 (.tld sym len code) s)
              ∧ (s.pk.pact = false → s.de.dact = false →
                  (known → exec (.tld sym len code) s = refusedWith 5 (.tld sym len code) s)
                  ∧ (¬ known → clash → exec (.tld sym len code) s = refusedWith 6 (.tld sym len code) s)
                  ∧ (¬ known → ¬ clash → s.tab.tcount = s.cfg.ctEntries →
                      exec (.tld sym len code) s = refusedWith 7 (.tld sym len code) s)
                  ∧ (¬ known → ¬ clash → s.tab.tcount ≠ s.cfg.ctEntries →
                      ∃ t, exec (.tld sym len code) s = .next t ∧ t = { s with tab := t.tab }
                        ∧ t.tab.tcount = s.tab.tcount + 1
                        ∧ t.tab.mem.read s.tab.tcount.toNat =
                            { sym := sym, len := len, code := code &&& BitVec.ofNat 32 (2 ^ len.toNat - 1) }
                        ∧ (∀ a, a ≠ s.tab.tcount.toNat → t.tab.mem.read a = s.tab.mem.read a)
                        ∧ t.tab.toMap = s.tab.toMap ++ [(sym, str len.toNat code)])))

/-- R200, R201, R202: what the table family leaves unchanged; `TLD` writes at index `TCOUNT` only. -/
def Obligations.TableFrame : Prop :=
  ∀ (i : Instr) (s t : State), isTableCmd i = true → exec i s = .next t →
    t.cfg = s.cfg ∧ t.inputs = s.inputs ∧ t.ctl = s.ctl ∧ t.pk = s.pk ∧ t.un = s.un ∧ t.de = s.de ∧ t.out = s.out
      ∧ (t.flt = s.flt ∨ t.tab = s.tab)
      ∧ (i.op = .tld → ∀ a, a ≠ s.tab.tcount.toNat → t.tab.mem.read a = s.tab.mem.read a)

/-- R80: while a pack or a decode session is active `TLD` and `TCLR` are fault 3, and no command but `SRST` changes the
table. -/
def Obligations.TableIsStableInASession : Prop :=
  ∀ s : State, s.pk.pact = true ∨ s.de.dact = true →
    (s.faulted = false → exec .tclr s = refusedWith 3 .tclr s)
      ∧ (∀ (sym : Sym21) (len : BitVec 6) (code : Word), s.faulted = false → 1 ≤ len.toNat → len.toNat ≤ 32 →
          exec (.tld sym len code) s = refusedWith 3 (.tld sym len code) s)
      ∧ (∀ (i : Instr) (t : State), i ≠ .srst → exec i s = .next t → t.tab = s.tab)

/-! ## System family (45_system.md) and the register views (10_state.md) -/

/-- R216: `NOP` changes nothing, faulted or not; the all-zero word is `NOP`, and no other word of its opcode is legal. -/
def Obligations.NopDoesNothing : Prop :=
  decode 0x0000000000000000 = .ok .nop
    ∧ (∀ cw : CmdWord, opField cw = 0x0 → cw ≠ 0 → decode cw = .error .illegalCmd)
    ∧ ∀ s : State, exec .nop s = .next s

/-- R217: `SRST`, faulted or not, gives every element its reset value but the four output sequences; a word of its opcode
with any other bit set is illegal, and in the faulted state it is discarded. No other command leaves the faulted state. -/
def Obligations.SrstResetsAllButTheOutputs : Prop :=
  encode .srst = 0x1000000000000000
    ∧ (∀ cw : CmdWord, opField cw = 0x1 → cw.extractLsb' 0 60 ≠ 0 → decode cw = .error .illegalCmd
        ∧ ∀ (s : State) (rest : List HostInput), s.inputs = .command cw :: rest → s.faulted = true →
            step s = .next { s with inputs := rest })
    ∧ (∀ (i : Instr) (s t : State), s.faulted = true → exec i s = .next t → t.faulted = false → i = .srst)
    ∧ ∀ s : State, ∃ t, exec .srst s = .next t ∧ t.out = s.out ∧ t.cfg = s.cfg ∧ t.inputs = s.inputs
        ∧ t.ctl = { strict := false, fie := false, tidx := 0 } ∧ t.flt = { fcause := 0, fcmd := 0 }
        ∧ t.pk = { pact := false, pdone := false, pacc := 0, pcnt := 0, padcnt := 0, pbitcnt := 0, pbytecnt := 0 }
        ∧ t.un = { uact := false, udone := false, upad := 0, udst := .bitOut, uholdv := false, uhold := 0
                   ubytecnt := 0, ubitcnt := 0 }
        ∧ t.de = { dact := false, ddone := false, dcand := 0, dclen := 0, trail := false, dbitcnt := 0, dsymcnt := 0 }
        ∧ t.tab.tcount = 0 ∧ (∀ a, t.tab.mem.read a = Entry.zero)

/-- R219: `RDSR r`, faulted or not, appends the register's value to `RESP_OUT` and changes nothing else; a word of its
opcode with a reserved bit set, or naming a register above `0x16`, is illegal, and in the faulted state it is discarded. -/
def Obligations.RdsrAppendsTheRegister : Prop :=
  (∀ r : Reg, encode (.rdsr r) = 0xE#4 ++ 0#20 ++ r.number ++ 0#32)
    ∧ (∀ cw : CmdWord, opField cw = 0xE →
        cw.extractLsb' 40 20 ≠ 0 ∨ cw.extractLsb' 0 32 ≠ 0 ∨ 0x16 < (regField cw).toNat →
          decode cw = .error .illegalCmd
            ∧ ∀ (s : State) (rest : List HostInput), s.inputs = .command cw :: rest → s.faulted = true →
                step s = .next { s with inputs := rest })
    ∧ ∀ (r : Reg) (s : State),
        exec (.rdsr r) s = .next { s with out := { s.out with respOut := s.out.respOut ++ [regRead r s] } }

/-- R220: `WRSR` writes `STRICT` and `FIE`, or `TIDX`, and nothing else; every other write is an illegal word and fault 1; in the
faulted state it is discarded. -/
def Obligations.WrsrWritesTheTwoRegisters : Prop :=
  (∀ (r : Reg) (v : Word), encode (.wrsr r v) = 0xF#4 ++ 0#20 ++ r.number ++ v)
    ∧ (∀ cw : CmdWord, opField cw = 0xF →
        cw.extractLsb' 40 20 ≠ 0 ∨ 0x16 < (regField cw).toNat ∨ (regField cw ≠ 0x01 ∧ regField cw ≠ 0x12)
            ∨ (regField cw = 0x01 ∧ (valueField cw).extractLsb' 2 30 ≠ 0) →
          decode cw = .error .illegalCmd)
    ∧ (∀ (r : Reg) (v : Word) (s : State), s.faulted = true → exec (.wrsr r v) s = .next s)
    ∧ ∀ (v : Word) (s : State), s.faulted = false →
        (v.extractLsb' 2 30 = 0 →
          exec (.wrsr .ctrl v) s = .next { s with ctl := { s.ctl with strict := v.getLsbD 0, fie := v.getLsbD 1 } })
          ∧ exec (.wrsr .tidx v) s = .next { s with ctl := { s.ctl with tidx := v } }
          ∧ (v.extractLsb' 2 30 ≠ 0 → exec (.wrsr .ctrl v) s = refusedWith 1 (.wrsr .ctrl v) s)
          ∧ (∀ r, r ≠ .ctrl → r ≠ .tidx → exec (.wrsr r v) s = refusedWith 1 (.wrsr r v) s)

/-- R25, R61, R243: the bits of `STATUS`, one by one; bit 8 is the level of `irq`; at reset the view
is 0 and `irq` is low. -/
def Obligations.StatusBits : Prop :=
  (∀ (cfg : Config) (ins : List HostInput),
      regRead .status (State.resetWith cfg ins) = 0 ∧ (State.resetWith cfg ins).irq = false)
    ∧ ∀ s : State,
    (regRead .status s).getLsbD 0 = s.pk.pact ∧ (regRead .status s).getLsbD 1 = s.pk.pdone
      ∧ (regRead .status s).getLsbD 2 = s.un.uact ∧ (regRead .status s).getLsbD 3 = s.un.udone
      ∧ (regRead .status s).getLsbD 4 = s.de.dact ∧ (regRead .status s).getLsbD 5 = s.de.ddone
      ∧ (regRead .status s).getLsbD 6 = s.de.trail ∧ (regRead .status s).getLsbD 7 = decide (s.de.dclen = 33)
      ∧ (regRead .status s).getLsbD 8 = (s.ctl.fie && decide (s.flt.fcause ≠ 0))
      ∧ s.irq = (s.ctl.fie && decide (s.flt.fcause ≠ 0))
      ∧ (∀ k, 9 ≤ k → k ≤ 30 → (regRead .status s).getLsbD k = false)
      ∧ (regRead .status s).getLsbD 31 = decide (s.flt.fcause ≠ 0)

/-- R218, R23, R24, R27, R29, R33, R34: the value of every register but `STATUS` and the entry window: the fields of those
that pack several elements, every other bit 0, and the element of each other one, extended with zeros. -/
def Obligations.RegistersShowTheState : Prop :=
  ∀ s : State,
    ((regRead .ctrl s).getLsbD 0 = s.ctl.strict ∧ (regRead .ctrl s).getLsbD 1 = s.ctl.fie
        ∧ (regRead .ctrl s).extractLsb' 2 30 = 0)
      ∧ regRead .fcmdhi s ++ regRead .fcmdlo s = s.flt.fcmd
      ∧ ((regRead .pstate s).extractLsb' 0 8 = s.pk.pacc ∧ (regRead .pstate s).extractLsb' 8 3 = s.pk.pcnt
          ∧ (regRead .pstate s).extractLsb' 11 21 = 0)
      ∧ ((regRead .ustate s).extractLsb' 0 3 = s.un.upad ∧ (regRead .ustate s).extractLsb' 3 1 = s.un.udst.bit
          ∧ (regRead .ustate s).getLsbD 4 = s.un.uholdv ∧ (regRead .ustate s).extractLsb' 5 3 = 0
          ∧ (regRead .ustate s).extractLsb' 8 8 = s.un.uhold ∧ (regRead .ustate s).extractLsb' 16 16 = 0)
      ∧ regRead .id s = 0x48425055 ∧ (regRead .fcause s).toNat = s.flt.fcause.toNat
      ∧ (regRead .padcnt s).toNat = s.pk.padcnt.toNat ∧ regRead .pbitcnt s = s.pk.pbitcnt
      ∧ regRead .pbytecnt s = s.pk.pbytecnt ∧ regRead .ubytecnt s = s.un.ubytecnt ∧ regRead .ubitcnt s = s.un.ubitcnt
      ∧ regRead .dcand s = s.de.dcand ∧ (regRead .dclen s).toNat = s.de.dclen.toNat
      ∧ regRead .dbitcnt s = s.de.dbitcnt ∧ regRead .dsymcnt s = s.de.dsymcnt ∧ regRead .tcount s = s.tab.tcount
      ∧ regRead .tidx s = s.ctl.tidx ∧ regRead .tcap s = s.cfg.ctEntries

/-- R41: the three window registers show entry `TIDX`, bit 31 of `TENTSYM` saying whether it is valid;
they are read-only. -/
def Obligations.TentShowsTheEntry : Prop :=
  ∀ s : State,
    (s.ctl.tidx.toNat < s.tab.tcount.toNat →
      (regRead .tentsym s).getLsbD 31 = true
        ∧ (regRead .tentsym s).extractLsb' 0 21 = (s.tab.mem.read s.ctl.tidx.toNat).sym
        ∧ (regRead .tentsym s).extractLsb' 21 10 = 0
        ∧ (regRead .tentlen s).toNat = (s.tab.mem.read s.ctl.tidx.toNat).len.toNat
        ∧ regRead .tentcode s = (s.tab.mem.read s.ctl.tidx.toNat).code)
      ∧ (s.tab.tcount.toNat ≤ s.ctl.tidx.toNat →
          regRead .tentsym s = 0 ∧ regRead .tentlen s = 0 ∧ regRead .tentcode s = 0)
      ∧ (∀ (r : Reg) (v : Word), r = .tentsym ∨ r = .tentlen ∨ r = .tentcode → s.faulted = false →
          exec (.wrsr r v) s = refusedWith 1 (.wrsr r v) s)

/-- R219, R220: what `NOP`, `RDSR` and `WRSR` leave unchanged. -/
def Obligations.SystemFrame : Prop :=
  ∀ (i : Instr) (s t : State), i.op = .nop ∨ i.op = .rdsr ∨ i.op = .wrsr → exec i s = .next t →
    t.cfg = s.cfg ∧ t.inputs = s.inputs ∧ t.pk = s.pk ∧ t.un = s.un ∧ t.de = s.de
      ∧ t.tab.tcount = s.tab.tcount ∧ (∀ a, t.tab.mem.read a = s.tab.mem.read a)
      ∧ t.out.byteOut = s.out.byteOut ∧ t.out.bitOut = s.out.bitOut ∧ t.out.symOut = s.out.symOut
      ∧ (i.op = .nop ∨ i.op = .rdsr → t.ctl = s.ctl ∧ t.flt = s.flt)
      ∧ (i.op = .nop ∨ i.op = .wrsr → t.out.respOut = s.out.respOut)
      ∧ (t.flt = s.flt ∨ t.ctl = s.ctl)
      ∧ (∀ v, i = .wrsr .ctrl v → t.ctl.tidx = s.ctl.tidx)
      ∧ (∀ v, i = .wrsr .tidx v → t.ctl.strict = s.ctl.strict ∧ t.ctl.fie = s.ctl.fie)

/-! ## The whole machine -/

/-- R65: what hardware reset leaves, element by element and register by register, for every capacity; and `SRST` gives the
same values to everything but the four output sequences. -/
def Obligations.ResetValues : Prop :=
  (∀ (cfg : Config) (ins : List HostInput),
      let r := State.resetWith cfg ins
      r.ctl = { strict := false, fie := false, tidx := 0 } ∧ r.flt = { fcause := 0, fcmd := 0 }
        ∧ r.pk = { pact := false, pdone := false, pacc := 0, pcnt := 0, padcnt := 0, pbitcnt := 0, pbytecnt := 0 }
        ∧ r.un = { uact := false, udone := false, upad := 0, udst := .bitOut, uholdv := false, uhold := 0
                   ubytecnt := 0, ubitcnt := 0 }
        ∧ r.de = { dact := false, ddone := false, dcand := 0, dclen := 0, trail := false, dbitcnt := 0, dsymcnt := 0 }
        ∧ r.tab.tcount = 0 ∧ (∀ a, r.tab.mem.read a = Entry.zero)
        ∧ r.out = { byteOut := [], bitOut := [], symOut := [], respOut := [] } ∧ r.irq = false
        ∧ allRegisters r =
            [0x48425055, 0, 0, 0, 0, 0, 0, 0, 0, 0, 0, 0, 0, 0, 0, 0, 0, 0, 0, 0, 0, 0, cfg.ctEntries])
    ∧ ∀ s : State, exec .srst s = .next { State.resetWith s.cfg s.inputs with out := s.out }

/-- R66, R51, R65: the reset state of every legal capacity meets the state invariant and the counter laws. -/
def Obligations.ResetMeetsTheInvariants : Prop :=
  ∀ (cfg : Config) (ins : List HostInput), cfg.ok →
    (State.resetWith cfg ins).Inv ∧ (State.resetWith cfg ins).CounterLaw

/-- R66, R51, R50: every step keeps the state invariant, whatever the host presents. -/
def Obligations.StepKeepsTheInvariant : Prop :=
  ∀ s t : State, s.Inv → step s = .next t → t.Inv

/-- R31, R35: every step keeps the counter laws. In particular, while `PDONE = 1`,
`PBYTECNT × 8 − PADCNT = PBITCNT`, and while `UDONE = 1`, `UBYTECNT × 8 − UPAD = UBITCNT`, modulo 2^32. -/
def Obligations.StepKeepsTheCounterLaws : Prop :=
  ∀ s t : State, s.Inv → s.CounterLaw → step s = .next t → t.CounterLaw

/-- R60: a command only appends to the output sequences, and never reads them: with other sequences in their place it
does the same and appends the same, or stops the same. -/
def Obligations.OutputsOnlyGrowAndAreNotRead : Prop :=
  ∀ (i : Instr) (s : State) (o : Outputs),
    (∀ t, exec i s = .next t → ∃ (ys : List Byte) (xs : List Bool) (vs : List Sym21) (rs : List Word),
      t.out = { byteOut := s.out.byteOut ++ ys, bitOut := s.out.bitOut ++ xs, symOut := s.out.symOut ++ vs
                respOut := s.out.respOut ++ rs }
        ∧ exec i { s with out := o } = .next
            { t with out := { byteOut := o.byteOut ++ ys, bitOut := o.bitOut ++ xs, symOut := o.symOut ++ vs
                              respOut := o.respOut ++ rs } })
      ∧ (s.Inv → ∃ t, exec i s = .next t)
      ∧ (∀ r, exec i s = .fault r → exec i { s with out := o } = .fault r)

/-- R10: the largest number of values one command emits on each stream. -/
def Obligations.EmissionsAreBounded : Prop :=
  ∀ (i : Instr) (s t : State), s.Inv → exec i s = .next t →
    t.out.byteOut.length ≤ s.out.byteOut.length +
        (if i.op = .pbits ∨ i.op = .encs then 4 else if i.op = .pend then 1 else 0)
      ∧ t.out.bitOut.length ≤ s.out.bitOut.length + (if i.op = .ubyte ∨ i.op = .uend then 8 else 0)
      ∧ t.out.symOut.length ≤ s.out.symOut.length +
          (if i.op = .ubyte ∨ i.op = .uend then 8 else if i.op = .dbits then 32 else 0)
      ∧ t.out.respOut.length = s.out.respOut.length + (if i.op = .rdsr then 1 else 0)

/-! ## The reference functions (40_reference_functions.md) -/

/-- R124: the laws of packing: inverse, length, padding bound, padding zero; and when the converse of the inverse holds. -/
def Obligations.PackingLaws : Prop :=
  (∀ B : Bits,
    refUnpack (refPack B).1 (refPack B).2 = some B
      ∧ (refPack B).1.length * 8 - (refPack B).2 = B.length
      ∧ (refPack B).2 ≤ 7 ∧ (B.length % 8 = 0 → (refPack B).2 = 0)
      ∧ (∀ y, (refPack B).1.getLast? = some y →
          (bin8 y).drop (8 - (refPack B).2) = List.replicate (refPack B).2 false))
    ∧ ∀ (Y : List Byte) (p : Nat) (B : Bits), refUnpack Y p = some B →
        (refPack B = (Y, p) ↔ ∀ y, Y.getLast? = some y → (bin8 y).drop (8 - p) = List.replicate p false)

/-- R122, R125, R129, R133: no unpacking outside the domain (log 12); decoding nothing; decoding by an empty table; a
fragment has no code as a prefix; a first 1 bit under the single-symbol table; a candidate as long as the longest code only
grows; and a text of `k` copies of one symbol under the single-symbol table: `k` zero bits, `ceil(k/8)` zero bytes. -/
def Obligations.CornerCasesOfTheFunctions : Prop :=
  (∀ (Y : List Byte) (p : Nat), 7 < p → refUnpack Y p = none)
    ∧ (∀ T : CodeMap, T.Legal → refDecode [] T = some ([], [])) ∧ (∀ B : Bits, refDecode B [] = some ([], B))
    ∧ (∀ (T : CodeMap) (B : Bits) (X : List Sym21) (f : Bits), refDecode B T = some (X, f) →
        ∀ p ∈ T, ¬ p.2 <+: f)
    ∧ (∀ (a : Sym21) (k : Nat) (B : Bits),
        refDecode (List.replicate k false ++ true :: B) [(a, [false])] = some (List.replicate k a, true :: B))
    ∧ (∀ (T : CodeMap) (cand B : Bits), T.Legal → (∀ p ∈ T, p.2.length ≤ cand.length) →
        refDecodeFrom T cand B = some ([], cand ++ B))
    ∧ (∀ (a : Sym21) (k : Nat),
        refEncode (List.replicate k a) [(a, [false])] = some (List.replicate k false)
          ∧ refPack (List.replicate k false) = (List.replicate ((k + 7) / 8) 0, (8 - k % 8) % 8))

/-- R132: round trip. For every text whose symbols a legal table holds, unpacking the packed encoding and decoding it gives
the text, with no fragment. -/
def Obligations.ReferenceRoundTrip : Prop :=
  ∀ (T : CodeMap) (X : List Sym21), T.Legal → (∀ x ∈ X, ∃ p ∈ T, p.1 = x) →
    ∃ B, refEncode X T = some B ∧ refUnpack (refPack B).1 (refPack B).2 = some B ∧ refDecode B T = some (X, [])

/-! ## Sessions compute the reference functions (R137 to R139) -/

/-- R137: a pack session. After `PSTART` and any commands but `PSTART`, `PEND` and `SRST` that raise no fault, `PEND`
completes; the bytes appended to `BYTE_OUT` since the `PSTART`, the padding count and the counters are those of `pack` of
the bits contributed. -/
def Obligations.PackSessionComputesPack : Prop :=
  ∀ (is : List Instr) (s u : State), s.Inv → s.faulted = false → s.pk.pact = false →
    (∀ i ∈ is, i ≠ .pstart ∧ i ≠ .pend ∧ i ≠ .srst) →
    runInstrs (.pstart :: is) s = .next u → u.faulted = false →
      let r := refPack (is.flatMap (packContribution s.tab))
      ∃ t, exec .pend u = .next t ∧ t.faulted = false ∧ t.out.byteOut = s.out.byteOut ++ r.1
        ∧ t.pk.padcnt.toNat = r.2 ∧ t.pk.pdone = true ∧ t.pk.pact = false
        ∧ t.pk.pbitcnt = BitVec.ofNat 32 (is.flatMap (packContribution s.tab)).length
        ∧ t.pk.pbytecnt = BitVec.ofNat 32 r.1.length

/-- R138, R123: an unrouted unpack session. After `USTART p, 0` and any commands but `USTART`, `UEND` and `SRST` that
raise no fault, `UEND` completes with exactly `unpack(Y, p)` appended to `BIT_OUT`; with no byte given and `p ≠ 0` it is
fault 8 and nothing was appended. -/
def Obligations.UnpackSessionComputesUnpack : Prop :=
  ∀ (p : BitVec 3) (is : List Instr) (s u : State), s.faulted = false → s.un.uact = false →
    (∀ i ∈ is, (∀ q d, i ≠ .ustart q d) ∧ i ≠ .uend ∧ i ≠ .srst) →
    runInstrs (.ustart p .bitOut :: is) s = .next u → u.faulted = false →
      let Y := is.flatMap unpackContribution
      (∀ B, refUnpack Y p.toNat = some B →
        ∃ t, exec .uend u = .next t ∧ t.faulted = false ∧ t.out.bitOut = s.out.bitOut ++ B
          ∧ t.un.udone = true ∧ t.un.uact = false ∧ t.un.ubytecnt = BitVec.ofNat 32 Y.length
          ∧ t.un.ubitcnt = BitVec.ofNat 32 (8 * Y.length - p.toNat))
        ∧ (refUnpack Y p.toNat = none → exec .uend u = refusedWith 8 .uend u ∧ u.out.bitOut = s.out.bitOut)

/-- R139, R277: a decode session. After `DSTART` and any commands but `DSTART`, `DEND` and `SRST` that raise no fault,
with every routed unpack session complete, the symbols appended to `SYM_OUT` are those of `decode` of the bits given;
`DEND` completes in permissive mode or with an empty fragment, and its registers describe the fragment; in strict mode
a fragment is fault 9. -/
def Obligations.DecodeSessionComputesDecode : Prop :=
  ∀ (is : List Instr) (s u : State), s.Inv → s.faulted = false → s.de.dact = false →
    (∀ i ∈ is, i ≠ .dstart ∧ i ≠ .dend ∧ i ≠ .srst) →
    runInstrs (.dstart :: is) s = .next u → u.faulted = false → ¬ (u.un.uact = true ∧ u.un.udst = .decoder) →
      let B := decoderInput none is
      ∃ (X : List Sym21) (f : Bits), refDecode B s.tab.toMap = some (X, f)
        ∧ u.out.symOut = s.out.symOut ++ X
        ∧ (u.ctl.strict = false ∨ f = [] →
            ∃ t, exec .dend u = .next t ∧ t.faulted = false ∧ t.out = u.out ∧ t.de.ddone = true
              ∧ t.de.dact = false ∧ t.de.trail = decide (f ≠ [])
              ∧ t.de.dsymcnt = BitVec.ofNat 32 X.length ∧ t.de.dbitcnt = BitVec.ofNat 32 B.length
              ∧ t.de.dclen.toNat = min f.length 33 ∧ t.de.dcand.toNat = val (f.take 32))
        ∧ (u.ctl.strict = true → f ≠ [] → exec .dend u = refusedWith 9 .dend u)

/-- R132 on the machine: a text whose symbols the table holds, packed by `ENCS` in one session and given back by a routed
unpack session to a decode session of a block with the same table, comes out unchanged, with no fragment. -/
def Obligations.MachineRoundTrip : Prop :=
  ∀ (X : List Sym21) (s v : State), s.Inv → s.faulted = false → s.pk.pact = false →
    (∀ x ∈ X, ∃ e ∈ s.tab.entries, e.sym = x) →
    v.Inv → v.faulted = false → v.un.uact = false → v.de.dact = false → v.tab = s.tab →
      ∃ (t w : State) (Y : List Byte),
        runInstrs (.pstart :: X.map .encs ++ [.pend]) s = .next t ∧ t.out.byteOut = s.out.byteOut ++ Y
          ∧ runInstrs (.dstart :: .ustart t.pk.padcnt .decoder :: Y.map .ubyte ++ [.uend, .dend]) v = .next w
          ∧ w.faulted = false ∧ w.out.symOut = v.out.symOut ++ X ∧ w.de.trail = false
end

