-- ==== Sys2Proof/Laws/Bits.lean ====
section
/-! SUPPORT. Laws of `str`, `val` and `shiftIn` (00_scope.md R6, R135): lengths, values, and how a bit is shifted in. -/
namespace Sys2Proof.Machine

@[simp] theorem str_length {w : Nat} (n : Nat) (v : BitVec w) : (str n v).length = n := by
  induction n with
  | zero => rfl
  | succ n ih => simp [str, ih]

theorem str_succ {w : Nat} (n : Nat) (v : BitVec w) : str (n + 1) v = v.getLsbD n :: str n v := rfl

/-- `str` looks at the low `n` bits only. -/
theorem str_congr {w w' : Nat} (n : Nat) (v : BitVec w) (v' : BitVec w')
    (h : ∀ i, i < n → v.getLsbD i = v'.getLsbD i) : str n v = str n v' := by
  induction n with
  | zero => rfl
  | succ n ih =>
    rw [str_succ, str_succ, h n (by omega), ih fun i hi => h i (by omega)]

/-- A group is its leading bits followed by its trailing bits. -/
theorem str_append {w : Nat} (n k : Nat) (v : BitVec w) : str (n + k) v = str n (v >>> k) ++ str k v := by
  induction n with
  | zero => simp [str]
  | succ n ih =>
    rw [show n + 1 + k = (n + k) + 1 by omega, str_succ, str_succ, ih]
    simp [BitVec.getLsbD_ushiftRight, Nat.add_comm]

theorem getLsbD_shiftIn {w : Nat} (x : BitVec w) (b : Bool) (i : Nat) :
    (shiftIn x b).getLsbD i = (decide (i < w) && (if i = 0 then b else x.getLsbD (i - 1))) := by
  unfold shiftIn
  cases i with
  | zero => by_cases hw : 0 < w <;> simp [hw]
  | succ i =>
    simp only [BitVec.getLsbD_or, BitVec.getLsbD_shiftLeft, BitVec.getLsbD_setWidth]
    simp

/-- Shifting a bit in appends it to the bit string held. -/
theorem str_shiftIn {w : Nat} (n : Nat) (x : BitVec w) (b : Bool) (h : n < w) :
    str (n + 1) (shiftIn x b) = str n x ++ [b] := by
  induction n with
  | zero => simp only [str, getLsbD_shiftIn, h, decide_true, if_true, Bool.true_and, List.nil_append]
  | succ n ih =>
    rw [str_succ, ih (by omega), str_succ, getLsbD_shiftIn]
    simp [h]

theorem val_foldl (s : Bits) (a : Nat) :
    s.foldl (fun a b => 2 * a + b.toNat) a = a * 2 ^ s.length + val s := by
  induction s generalizing a with
  | nil => simp [val]
  | cons b s ih =>
    simp only [List.foldl_cons, List.length_cons, val]
    rw [ih, ih (2 * 0 + b.toNat)]
    ring

@[simp] theorem val_nil : val [] = 0 := rfl

theorem val_cons (b : Bool) (s : Bits) : val (b :: s) = b.toNat * 2 ^ s.length + val s := by
  unfold val
  rw [List.foldl_cons, val_foldl]
  simp [val]

theorem val_append (s t : Bits) : val (s ++ t) = val s * 2 ^ t.length + val t := by
  unfold val
  rw [List.foldl_append, val_foldl]
  rfl

theorem val_lt (s : Bits) : val s < 2 ^ s.length := by
  induction s with
  | nil => simp
  | cons b s ih =>
    rw [val_cons, List.length_cons, pow_succ]
    have : b.toNat ≤ 1 := by cases b <;> simp
    nlinarith [Nat.two_pow_pos s.length]

/-- `val` is the inverse of `str` (R6), up to the bits `str` leaves out. -/
theorem val_str {w : Nat} (n : Nat) (v : BitVec w) : val (str n v) = v.toNat % 2 ^ n := by
  induction n with
  | zero => simp [str, Nat.mod_one]
  | succ n ih =>
    rw [str_succ, val_cons, ih, str_length, Nat.mod_pow_succ, Nat.add_comm, ← BitVec.testBit_toNat, Nat.toNat_testBit,
      Nat.mul_comm]

/-- `str` is the inverse of `val` (R6). -/
theorem str_val {w : Nat} (s : Bits) (h : s.length ≤ w) : str s.length (BitVec.ofNat w (val s)) = s := by
  induction s with
  | nil => rfl
  | cons b s ih =>
    have hs : s.length < w := by simpa using h
    rw [List.length_cons, str_succ]
    congr 1
    · rw [BitVec.getLsbD_ofNat, val_cons]
      have := val_lt s
      cases b
      · simp [hs, Nat.testBit_lt_two_pow this]
      · simp [hs, Nat.testBit_two_pow_add_eq, Nat.testBit_lt_two_pow this]
    · rw [← ih hs.le]
      simp only [str_length]
      refine str_congr _ _ _ fun i hi => ?_
      rw [ih hs.le, BitVec.getLsbD_ofNat, BitVec.getLsbD_ofNat, val_cons]
      congr 1
      cases b
      · simp
      · rw [Bool.toNat_true, one_mul, Nat.testBit_two_pow_add_gt hi]

/-- Two values below `2^n` with the same digits are equal. -/
theorem eq_of_str_eq {w : Nat} (n : Nat) (v v' : BitVec w) (h : str n v = str n v')
    (hv : v.toNat < 2 ^ n) (hv' : v'.toNat < 2 ^ n) : v = v' := by
  have := congrArg val h
  rw [val_str, val_str, Nat.mod_eq_of_lt hv, Nat.mod_eq_of_lt hv'] at this
  exact BitVec.eq_of_toNat_eq this

/-- Shifting a bit in keeps the unoccupied positions zero (R29, R37). -/
theorem shiftIn_lt {w : Nat} (x : BitVec w) (b : Bool) (n : Nat) (h : x.toNat < 2 ^ n) :
    (shiftIn x b).toNat < 2 ^ (n + 1) := by
  refine Nat.lt_pow_two_of_testBit _ fun i hi => ?_
  rw [BitVec.testBit_toNat, getLsbD_shiftIn, if_neg (by omega), ← BitVec.testBit_toNat,
    Nat.testBit_lt_two_pow (lt_of_lt_of_le h (Nat.pow_le_pow_right (by omega) (by omega)))]
  simp

/-- The one bit a flag takes in a register value. -/
theorem getLsbD_flagAt (b : Bool) (k j : Nat) (hk : k < 32) : (flagAt b k).getLsbD j = (decide (j = k) && b) := by
  unfold flagAt
  simp only [BitVec.getLsbD_shiftLeft, BitVec.getLsbD_setWidth, BitVec.getLsbD_ofBool]
  rcases Nat.lt_trichotomy j k with h | rfl | h
  · simp [h, Nat.ne_of_lt h]
  · simp [hk]
  · simp [show j ≠ k by omega, show ¬ j - k = 0 by omega]

end Sys2Proof.Machine
end

