-- ==== Sys2Proof/Laws/Encoding.lean ====
section
/-! SUPPORT. Laws of the command formats (30_encoding.md R90 to R101): a field read from a laid-out word is the field laid in, and a
word is the join of its fields. -/
namespace Sys2Proof

/-! ## Joining and zero -/

/-- Two neighbouring fields join to one. -/
theorem extract_join (w : CmdWord) (k a b : Nat) :
    w.extractLsb' (k + b) a ++ w.extractLsb' k b = w.extractLsb' k (a + b) := by
  refine BitVec.eq_of_getLsbD_eq fun i hi => ?_
  rw [BitVec.getLsbD_append]
  split <;> rename_i hb
  · simp [hb, hi]
  · simp only [BitVec.getLsbD_extractLsb', hi, decide_true, Bool.true_and]
    rw [decide_eq_true (by omega), Bool.true_and]
    congr 1
    omega

/-! ## Codes, numbers and bits -/

@[simp] theorem Op.ofCode_code (op : Op) : Op.ofCode op.code = op := by cases op <;> rfl

theorem Op.code_ofCode (c : BitVec 4) : (Op.ofCode c).code = c := by revert c; decide

@[simp] theorem Reg.ofNumber_number (r : Reg) : Reg.ofNumber r.number = some r := by cases r <;> rfl

theorem Reg.number_ofNumber (n : BitVec 8) (r : Reg) (h : Reg.ofNumber n = some r) : r.number = n := by
  have : ∀ n : BitVec 8, ∀ r ∈ Reg.ofNumber n, r.number = n := by decide +revert
  exact this n r h

@[simp] theorem Dest.ofBit_bit (d : Dest) : Dest.ofBit d.bit = d := by cases d <;> rfl

theorem Dest.bit_ofBit (b : BitVec 1) : (Dest.ofBit b).bit = b := by revert b; decide

/-! ## The fields of each format -/

theorem formatZ_fields (op : BitVec 4) :
    opField (formatZ op) = op ∧ (formatZ op).extractLsb' 0 60 = 0#60 := by
  constructor <;>
    refine BitVec.eq_of_getLsbD_eq fun i hi => ?_ <;>
    simp only [opField, formatZ, BitVec.getLsbD_extractLsb', BitVec.getLsbD_append, hi, decide_true,
      Bool.true_and] <;>
    simp (disch := omega) only [if_neg, if_pos] <;>
    first | done | (congr 1; omega)

theorem formatB_fields (op : BitVec 4) (n : BitVec 6) (v : Word) :
    opField (formatB op n v) = op ∧ (formatB op n v).extractLsb' 59 1 = 0#1 ∧ countField (formatB op n v) = n
      ∧ (formatB op n v).extractLsb' 32 21 = 0#21 ∧ valueField (formatB op n v) = v := by
  refine ⟨?_, ?_, ?_, ?_, ?_⟩ <;>
    refine BitVec.eq_of_getLsbD_eq fun i hi => ?_ <;>
    simp only [opField, countField, valueField, formatB, BitVec.getLsbD_extractLsb', BitVec.getLsbD_append, hi, decide_true,
      Bool.true_and] <;>
    simp (disch := omega) only [if_neg, if_pos] <;>
    first | done | (congr 1; omega)

theorem formatS_fields (op : BitVec 4) (sym : Sym21) :
    opField (formatS op sym) = op ∧ (formatS op sym).extractLsb' 53 7 = 0#7 ∧ symField (formatS op sym) = sym
      ∧ (formatS op sym).extractLsb' 0 32 = 0#32 := by
  refine ⟨?_, ?_, ?_, ?_⟩ <;>
    refine BitVec.eq_of_getLsbD_eq fun i hi => ?_ <;>
    simp only [opField, symField, formatS, BitVec.getLsbD_extractLsb', BitVec.getLsbD_append, hi, decide_true,
      Bool.true_and] <;>
    simp (disch := omega) only [if_neg, if_pos] <;>
    first | done | (congr 1; omega)

theorem formatT_fields (op : BitVec 4) (len : BitVec 6) (sym : Sym21) (code : Word) :
    opField (formatT op len sym code) = op ∧ (formatT op len sym code).extractLsb' 59 1 = 0#1
      ∧ countField (formatT op len sym code) = len ∧ symField (formatT op len sym code) = sym
      ∧ valueField (formatT op len sym code) = code := by
  refine ⟨?_, ?_, ?_, ?_, ?_⟩ <;>
    refine BitVec.eq_of_getLsbD_eq fun i hi => ?_ <;>
    simp only [opField, countField, symField, valueField, formatT, BitVec.getLsbD_extractLsb', BitVec.getLsbD_append, hi, decide_true,
      Bool.true_and] <;>
    simp (disch := omega) only [if_neg, if_pos] <;>
    first | done | (congr 1; omega)

theorem formatU_fields (op : BitVec 4) (dst : BitVec 1) (pad : BitVec 3) :
    opField (formatU op dst pad) = op ∧ (formatU op dst pad).extractLsb' 9 51 = 0#51
      ∧ dstField (formatU op dst pad) = dst ∧ (formatU op dst pad).extractLsb' 3 5 = 0#5
      ∧ padField (formatU op dst pad) = pad := by
  refine ⟨?_, ?_, ?_, ?_, ?_⟩ <;>
    refine BitVec.eq_of_getLsbD_eq fun i hi => ?_ <;>
    simp only [opField, dstField, padField, formatU, BitVec.getLsbD_extractLsb', BitVec.getLsbD_append, hi, decide_true,
      Bool.true_and] <;>
    simp (disch := omega) only [if_neg, if_pos] <;>
    first | done | (congr 1; omega)

theorem formatY_fields (op : BitVec 4) (b : Byte) :
    opField (formatY op b) = op ∧ (formatY op b).extractLsb' 8 52 = 0#52 ∧ byteField (formatY op b) = b := by
  refine ⟨?_, ?_, ?_⟩ <;>
    refine BitVec.eq_of_getLsbD_eq fun i hi => ?_ <;>
    simp only [opField, byteField, formatY, BitVec.getLsbD_extractLsb', BitVec.getLsbD_append, hi, decide_true,
      Bool.true_and] <;>
    simp (disch := omega) only [if_neg, if_pos] <;>
    first | done | (congr 1; omega)

theorem formatR_fields (op : BitVec 4) (r : BitVec 8) (v : Word) :
    opField (formatR op r v) = op ∧ (formatR op r v).extractLsb' 40 20 = 0#20 ∧ regField (formatR op r v) = r
      ∧ valueField (formatR op r v) = v := by
  refine ⟨?_, ?_, ?_, ?_⟩ <;>
    refine BitVec.eq_of_getLsbD_eq fun i hi => ?_ <;>
    simp only [opField, regField, valueField, formatR, BitVec.getLsbD_extractLsb', BitVec.getLsbD_append, hi, decide_true,
      Bool.true_and] <;>
    simp (disch := omega) only [if_neg, if_pos] <;>
    first | done | (congr 1; omega)

/-! ## A word is the join of its fields -/

theorem formatZ_join (w : CmdWord) (h : w.extractLsb' 0 60 = 0#60) : formatZ (opField w) = w := by
  have hj := extract_join w 0 4 60
  rw [h] at hj
  exact hj.trans BitVec.extractLsb'_eq_self

theorem formatB_join (w : CmdWord) (h1 : w.extractLsb' 59 1 = 0#1) (h2 : w.extractLsb' 32 21 = 0#21) :
    formatB (opField w) (countField w) (valueField w) = w := by
  have e1 := extract_join w 59 4 1
  have e2 := extract_join w 53 5 6
  have e3 := extract_join w 32 11 21
  have e4 := extract_join w 0 32 32
  rw [h1] at e1
  rw [h2] at e3
  exact (congrArg (· ++ _) ((congrArg (· ++ 0#21) ((congrArg (· ++ _) e1).trans e2)).trans e3)).trans
    (e4.trans BitVec.extractLsb'_eq_self)

theorem formatS_join (w : CmdWord) (h1 : w.extractLsb' 53 7 = 0#7) (h2 : w.extractLsb' 0 32 = 0#32) :
    formatS (opField w) (symField w) = w := by
  have e1 := extract_join w 53 4 7
  have e2 := extract_join w 32 11 21
  have e3 := extract_join w 0 32 32
  rw [h1] at e1
  rw [h2] at e3
  exact (congrArg (· ++ 0#32) ((congrArg (· ++ _) e1).trans e2)).trans (e3.trans BitVec.extractLsb'_eq_self)

theorem formatT_join (w : CmdWord) (h : w.extractLsb' 59 1 = 0#1) :
    formatT (opField w) (countField w) (symField w) (valueField w) = w := by
  have e1 := extract_join w 59 4 1
  have e2 := extract_join w 53 5 6
  have e3 := extract_join w 32 11 21
  have e4 := extract_join w 0 32 32
  rw [h] at e1
  exact (congrArg (· ++ _) ((congrArg (· ++ _) ((congrArg (· ++ _) e1).trans e2)).trans e3)).trans
    (e4.trans BitVec.extractLsb'_eq_self)

theorem formatU_join (w : CmdWord) (h1 : w.extractLsb' 9 51 = 0#51) (h2 : w.extractLsb' 3 5 = 0#5) :
    formatU (opField w) (dstField w) (padField w) = w := by
  have e1 := extract_join w 9 4 51
  have e2 := extract_join w 8 55 1
  have e3 := extract_join w 3 56 5
  have e4 := extract_join w 0 61 3
  rw [h1] at e1
  rw [h2] at e3
  exact (congrArg (· ++ _) ((congrArg (· ++ 0#5) ((congrArg (· ++ _) e1).trans e2)).trans e3)).trans
    (e4.trans BitVec.extractLsb'_eq_self)

theorem formatY_join (w : CmdWord) (h : w.extractLsb' 8 52 = 0#52) : formatY (opField w) (byteField w) = w := by
  have e1 := extract_join w 8 4 52
  have e2 := extract_join w 0 56 8
  rw [h] at e1
  exact (congrArg (· ++ _) e1).trans (e2.trans BitVec.extractLsb'_eq_self)

theorem formatR_join (w : CmdWord) (h : w.extractLsb' 40 20 = 0#20) :
    formatR (opField w) (regField w) (valueField w) = w := by
  have e1 := extract_join w 40 4 20
  have e2 := extract_join w 32 24 8
  have e3 := extract_join w 0 32 32
  rw [h] at e1
  exact (congrArg (· ++ _) ((congrArg (· ++ _) e1).trans e2)).trans (e3.trans BitVec.extractLsb'_eq_self)

end Sys2Proof
end

