-- ==== Sys2Proof/Laws/Table.lean ====
section
/-! SUPPORT. Laws of the code table memory and its searches: read after write, the canonical form, what an append does to the valid
entries, what each search answers, and the prefix test as the prefix relation on code texts (R107). -/
namespace Sys2Proof.Machine

/-! ## Read, write and the canonical form -/

@[simp] theorem Memory.read_nil (i : Nat) : Memory.read [] i = Entry.zero := rfl

/-- An index below every listed index reads as zero. -/
theorem Memory.read_below (m : Memory) (i : Nat) (h : ∀ p ∈ m, i < p.1) : m.read i = Entry.zero := by
  induction m with
  | nil => rfl
  | cons a m ih =>
    have ha := h a (by simp)
    rw [Memory.read, if_neg (by omega)]
    exact ih fun p hp => h p (by simp [hp])

/-- Every index listed after a write was listed before it, or is the index written. -/
theorem Memory.mem_write (m : Memory) (i : Nat) (e : Entry) (p : Nat × Entry) (h : p ∈ m.write i e) :
    p ∈ m ∨ (p = (i, e) ∧ e ≠ Entry.zero) := by
  induction m with
  | nil =>
    unfold Memory.write at h
    split at h <;> simp_all
  | cons a m ih =>
    obtain ⟨j, x⟩ := a
    unfold Memory.write at h
    split_ifs at h <;> simp only [List.mem_cons] at h ⊢ <;> tauto

/-- A write keeps the canonical form. -/
theorem Memory.write_wf (m : Memory) (i : Nat) (e : Entry) (h : m.wf) : (m.write i e).wf := by
  refine ⟨?_, fun p hp => ?_⟩
  · induction m with
    | nil => unfold Memory.write; split <;> simp
    | cons a m ih =>
      obtain ⟨j, x⟩ := a
      have hs := List.pairwise_cons.mp h.1
      have hm : Memory.wf m := ⟨hs.2, fun p hp => h.2 p (by simp [hp])⟩
      unfold Memory.write
      split_ifs with hij hz hij' hz'
      · exact h.1
      · refine List.pairwise_cons.mpr ⟨fun b hb => ?_, h.1⟩
        rcases List.mem_cons.mp hb with rfl | hb
        · exact hij
        · exact lt_trans hij (hs.1 b hb)
      · exact hs.2
      · exact List.pairwise_cons.mpr ⟨fun b hb => hij' ▸ hs.1 b hb, hs.2⟩
      · refine List.pairwise_cons.mpr ⟨fun b hb => ?_, ih hm⟩
        rcases Memory.mem_write m i e b hb with hb | ⟨rfl, -⟩
        · exact hs.1 b hb
        · show j < i; omega
  · rcases Memory.mem_write m i e p hp with hp | ⟨rfl, he⟩
    · exact h.2 p hp
    · exact he

/-- The cleared memory is in its canonical form, and so is the reset one. -/
theorem Memory.cleared_wf : Memory.cleared.wf := by decide

/-- A read after a write to the same index gives the entry written. -/
theorem Memory.read_write_same (m : Memory) (i : Nat) (e : Entry) (h : m.wf) : (m.write i e).read i = e := by
  induction m with
  | nil =>
    unfold Memory.write
    split <;> simp_all [Memory.read]
  | cons a m ih =>
    obtain ⟨j, x⟩ := a
    have hs := List.pairwise_cons.mp h.1
    have hm : Memory.wf m := ⟨hs.2, fun p hp => h.2 p (by simp [hp])⟩
    unfold Memory.write
    split_ifs with hij hz hij' hz'
    · rw [hz]
      refine Memory.read_below _ _ fun p hp => ?_
      rcases List.mem_cons.mp hp with rfl | hp
      · exact hij
      · exact lt_trans hij (hs.1 p hp)
    · simp [Memory.read]
    · rw [hz']
      exact Memory.read_below _ _ fun p hp => hij' ▸ hs.1 p hp
    · simp [Memory.read]
    · rw [Memory.read, if_neg hij']
      exact ih hm

/-- A write leaves every other index alone. -/
theorem Memory.read_write_other (m : Memory) (i k : Nat) (e : Entry) (h : k ≠ i) :
    (m.write i e).read k = m.read k := by
  induction m with
  | nil => unfold Memory.write; split <;> simp [Memory.read, h]
  | cons a m ih =>
    obtain ⟨j, x⟩ := a
    unfold Memory.write
    split_ifs with hij hz hij' hz'
    · rfl
    · simp [Memory.read, h]
    · subst hij'; simp [Memory.read, h]
    · subst hij'; simp [Memory.read, h]
    · simp only [Memory.read]
      rw [ih]

/-! ## The valid entries -/

theorem CodeTable.length_entries (t : CodeTable) : t.entries.length = t.tcount.toNat := by
  simp [CodeTable.entries]

@[simp] theorem CodeTable.entries_cleared : CodeTable.cleared.entries = [] := rfl

@[simp] theorem CodeTable.entries_reset : CodeTable.reset.entries = [] := rfl

/-- A valid entry is the entry of an index below `TCOUNT` (R42). -/
theorem CodeTable.mem_entries (t : CodeTable) (e : Entry) :
    e ∈ t.entries ↔ ∃ i < t.tcount.toNat, t.mem.read i = e := by
  simp [CodeTable.entries]

/-- Appending an entry adds it after the valid entries (R202). -/
theorem CodeTable.entries_append (t : CodeTable) (e : Entry) (hwf : t.mem.wf) (h : t.tcount.toNat + 1 < 2 ^ 32) :
    (t.append e).entries = t.entries ++ [e] := by
  have hc : (t.tcount + 1).toNat = t.tcount.toNat + 1 := by
    rw [BitVec.toNat_add]; exact Nat.mod_eq_of_lt (by simpa using h)
  simp only [CodeTable.entries, CodeTable.append, hc, List.range_succ, List.map_append, List.map_cons, List.map_nil]
  congr 1
  · refine List.map_congr_left fun i hi => ?_
    exact Memory.read_write_other _ _ _ _ (by have := List.mem_range.mp hi; omega)
  · rw [Memory.read_write_same _ _ _ hwf]

/-- A table is prefix-free exactly when no two of its valid entries conflict (R51 (b)). -/
theorem CodeTable.prefixFree_iff (t : CodeTable) :
    t.prefixFree = true ↔ t.entries.Pairwise fun a b => conflicts a.len a.code b.len b.code = false := by
  unfold CodeTable.prefixFree
  induction t.entries with
  | nil => simp [noConflicts]
  | cons e l ih => simp [noConflicts, ih]

/-! ## The searches -/

/-- An entry found by symbol is valid and has that symbol (R145). -/
theorem CodeTable.lookupSym_some (t : CodeTable) (s : Sym21) (e : Entry) (h : t.lookupSym s = some e) :
    e ∈ t.entries ∧ e.sym = s :=
  ⟨List.mem_of_find?_eq_some h, by simpa using List.find?_some h⟩

/-- No entry is found by symbol exactly when no valid entry has that symbol (R145). -/
theorem CodeTable.lookupSym_none (t : CodeTable) (s : Sym21) :
    t.lookupSym s = none ↔ ∀ e ∈ t.entries, e.sym ≠ s := by
  simp [CodeTable.lookupSym]

/-- An entry found by code is valid and has that length and those bits (R182). -/
theorem CodeTable.matchCode_some (t : CodeTable) (l : BitVec 6) (c : Word) (e : Entry)
    (h : t.matchCode l c = some e) : e ∈ t.entries ∧ e.len = l ∧ e.code = c :=
  ⟨List.mem_of_find?_eq_some h, by simpa using List.find?_some h⟩

/-- No entry is found by code exactly when no valid entry has that length and those bits (R182). -/
theorem CodeTable.matchCode_none (t : CodeTable) (l : BitVec 6) (c : Word) :
    t.matchCode l c = none ↔ ∀ e ∈ t.entries, ¬ (e.len = l ∧ e.code = c) := by
  simp [CodeTable.matchCode]

/-- The entry with a symbol is the one the search finds, when symbols are distinct (R51 (a)). -/
theorem CodeTable.lookupSym_eq (t : CodeTable) (e : Entry) (he : e ∈ t.entries)
    (h : t.entries.Pairwise fun a b => a.sym ≠ b.sym) : t.lookupSym e.sym = some e := by
  unfold CodeTable.lookupSym
  generalize t.entries = l at he h
  induction l with
  | nil => cases he
  | cons a l ih =>
    obtain ⟨ha, hl⟩ := List.pairwise_cons.mp h
    rcases List.mem_cons.mp he with rfl | he
    · simp
    · rw [List.find?_cons_of_neg (by simpa using ha e he)]
      exact ih he hl

/-! ## The prefix test (R107) -/

theorem ushiftRight_lt (c : Word) (l k : Nat) (hk : k ≤ l) (h : c.toNat < 2 ^ l) : (c >>> k).toNat < 2 ^ (l - k) := by
  rw [BitVec.toNat_ushiftRight, Nat.shiftRight_eq_div_pow]
  rw [Nat.div_lt_iff_lt_mul (Nat.two_pow_pos k), ← pow_add]
  rwa [Nat.sub_add_cancel hk]

/-- A code is a prefix of a longer one exactly when the longer one's leading bits are the code. -/
theorem str_prefix_iff (la lb : Nat) (ca cb : Word) (hl : la ≤ lb) (ha : ca.toNat < 2 ^ la) (hb : cb.toNat < 2 ^ lb) :
    str la ca <+: str lb cb ↔ ca = cb >>> (lb - la) := by
  have hsplit : str lb cb = str la (cb >>> (lb - la)) ++ str (lb - la) cb := by
    rw [← str_append]; congr 1; omega
  have hlt : (cb >>> (lb - la)).toNat < 2 ^ la := by
    have := ushiftRight_lt cb lb (lb - la) (by omega) hb
    rwa [show lb - (lb - la) = la by omega] at this
  constructor
  · intro h
    have h' := List.prefix_iff_eq_take.mp h
    rw [str_length, hsplit, List.take_left' (by simp)] at h'
    exact eq_of_str_eq _ _ _ h' ha hlt
  · rintro h
    rw [hsplit, ← h]
    exact List.prefix_append _ _

/-- The prefix test answers true exactly when one code's text is a prefix of the other's (R107). -/
theorem conflicts_iff (la lb : BitVec 6) (ca cb : Word) (ha : ca.toNat < 2 ^ la.toNat)
    (hb : cb.toNat < 2 ^ lb.toNat) :
    conflicts la ca lb cb = true ↔
      str la.toNat ca <+: str lb.toNat cb ∨ str lb.toNat cb <+: str la.toNat ca := by
  unfold conflicts
  rw [beq_iff_eq]
  rcases le_total la.toNat lb.toNat with h | h
  · rw [Nat.min_eq_left h, Nat.sub_self, BitVec.ushiftRight_zero, ← str_prefix_iff _ _ _ _ h ha hb]
    refine ⟨Or.inl, fun hor => hor.elim id fun hp => ?_⟩
    have := hp.length_le
    rw [str_length, str_length] at this
    exact (hp.eq_of_length (by simp only [str_length]; omega)) ▸ List.prefix_rfl
  · rw [Nat.min_eq_right h, Nat.sub_self, BitVec.ushiftRight_zero, eq_comm, ← str_prefix_iff _ _ _ _ h hb ha]
    refine ⟨Or.inr, fun hor => hor.elim (fun hp => ?_) id⟩
    have := hp.length_le
    rw [str_length, str_length] at this
    exact (hp.eq_of_length (by simp only [str_length]; omega)) ▸ List.prefix_rfl

/-- The prefix relation is symmetric (R107). -/
theorem conflicts_comm (la lb : BitVec 6) (ca cb : Word) : conflicts la ca lb cb = conflicts lb cb la ca := by
  unfold conflicts
  rw [Nat.min_comm, Bool.beq_comm]

/-- The masked code has no bit at or above `len` (R202, R50). -/
theorem maskCode_lt (len : BitVec 6) (code : Word) (h : len.toNat ≤ 32) :
    (maskCode len code).toNat < 2 ^ len.toNat := by
  have hp : 2 ^ len.toNat ≤ 2 ^ 32 := Nat.pow_le_pow_right (by omega) h
  have h1 : 1 ≤ 2 ^ len.toNat := Nat.one_le_two_pow
  unfold maskCode
  rw [BitVec.toNat_and, BitVec.toNat_ofNat, Nat.mod_eq_of_lt (by omega)]
  exact lt_of_le_of_lt Nat.and_le_right (by omega)

/-- The masked code has the digits the operand gives (R94: `code[31:len]` is ignored). -/
theorem str_maskCode (len : BitVec 6) (code : Word) (h : len.toNat ≤ 32) :
    str len.toNat (maskCode len code) = str len.toNat code := by
  refine str_congr _ _ _ fun i hi => ?_
  unfold maskCode
  rw [BitVec.getLsbD_and, BitVec.getLsbD_ofNat, Nat.testBit_two_pow_sub_one]
  simp [hi, show i < 32 by omega]

end Sys2Proof.Machine
end

