-- ==== Sys2Proof/Laws/Reference.lean ====
section
/-! SUPPORT. Laws of the reference functions' parts: cutting a bit string into bytes, continuing a decode, and the table memory as a
code map. -/
namespace Sys2Proof.Machine

/-! ## Bytes of a bit string (R120, R121) -/

/-- The binary text of a byte made of eight bits is those bits (R120). -/
theorem bin8_byteOf (s : Bits) (h : s.length = 8) : bin8 (byteOf s) = s := by
  unfold bin8 byteOf
  rw [← h]
  exact str_val s (by omega)

@[simp] theorem bin8_length (y : Byte) : (bin8 y).length = 8 := str_length 8 y

/-- A byte is made of the eight bits of its text (R120). -/
theorem byteOf_bin8 (y : Byte) : byteOf (bin8 y) = y := by
  unfold byteOf bin8
  rw [val_str]
  exact BitVec.eq_of_toNat_eq (by simp [y.isLt])

theorem wholeBytes_short (B : Bits) (h : B.length < 8) : wholeBytes B = [] := by
  simp [wholeBytes, Nat.div_eq_of_lt h]

theorem leftover_short (B : Bits) (h : B.length < 8) : leftover B = B := by
  simp [leftover, Nat.div_eq_of_lt h]

theorem wholeBytes_append (a B : Bits) (h : a.length = 8) : wholeBytes (a ++ B) = byteOf a :: wholeBytes B := by
  have hdiv : (a ++ B).length / 8 = B.length / 8 + 1 := by
    rw [List.length_append, h, Nat.add_comm, Nat.add_div_right _ (by omega)]
  unfold wholeBytes
  rw [hdiv, List.range_succ_eq_map, List.map_cons, List.map_map]
  congr 1
  · simp [List.take_left' h]
  · refine List.map_congr_left fun k _ => ?_
    have : 8 * (k + 1) = a.length + 8 * k := by omega
    simp only [Function.comp, Nat.succ_eq_add_one]
    rw [this, List.drop_append, List.drop_of_length_le (by omega)]
    simp

theorem leftover_append (a B : Bits) (h : a.length = 8) : leftover (a ++ B) = leftover B := by
  have hdiv : (a ++ B).length / 8 = B.length / 8 + 1 := by
    rw [List.length_append, h, Nat.add_comm, Nat.add_div_right _ (by omega)]
  unfold leftover
  rw [hdiv, show 8 * (B.length / 8 + 1) = a.length + 8 * (B.length / 8) by omega, List.drop_append]
  simp

/-- A bit string of at least eight bits is a byte's worth and the rest. -/
theorem split8 (B : Bits) (h : 8 ≤ B.length) : ∃ a C, B = a ++ C ∧ a.length = 8 :=
  ⟨B.take 8, B.drop 8, (List.take_append_drop 8 B).symm, by simp [h]⟩

/-- Induction on a bit string eight bits at a time. -/
theorem bytes_induction (P : Bits → Prop) (hs : ∀ B, B.length < 8 → P B)
    (hb : ∀ a C, a.length = 8 → P C → P (a ++ C)) (B : Bits) : P B := by
  generalize hn : B.length = n
  induction n using Nat.strongRecOn generalizing B with
  | _ n ih =>
    rcases Nat.lt_or_ge B.length 8 with h | h
    · exact hs B h
    · obtain ⟨a, C, rfl, ha⟩ := split8 B h
      exact hb a C ha (ih C.length (by simp at hn; omega) C rfl)

/-- The whole bytes' texts, then the leftover, are the bit string. -/
theorem flatMap_wholeBytes (B : Bits) : (wholeBytes B).flatMap bin8 ++ leftover B = B := by
  induction B using bytes_induction with
  | hs B h => simp [wholeBytes_short B h, leftover_short B h]
  | hb a C ha ih =>
    rw [wholeBytes_append a C ha, leftover_append a C ha, List.flatMap_cons, bin8_byteOf a ha, List.append_assoc, ih]

theorem length_wholeBytes (B : Bits) : (wholeBytes B).length = B.length / 8 := by simp [wholeBytes]

theorem length_leftover (B : Bits) : (leftover B).length = B.length % 8 := by
  simp [leftover]; omega

/-- A bit string given as bytes and a rest shorter than a byte has those bytes and that rest. -/
theorem wholeBytes_flatMap_append (Y : List Byte) (r : Bits) (h : r.length < 8) :
    wholeBytes (Y.flatMap bin8 ++ r) = Y ∧ leftover (Y.flatMap bin8 ++ r) = r := by
  induction Y with
  | nil => exact ⟨wholeBytes_short r h, leftover_short r h⟩
  | cons y Y ih =>
    rw [List.flatMap_cons, List.append_assoc, wholeBytes_append _ _ (bin8_length y), leftover_append _ _ (bin8_length y),
      byteOf_bin8]
    exact ⟨by rw [ih.1], ih.2⟩

/-- Bytes cut off early and late: the bytes of a longer string are the bytes of its start, then those of the leftover
with the rest. -/
theorem wholeBytes_continue (B C : Bits) :
    wholeBytes (B ++ C) = wholeBytes B ++ wholeBytes (leftover B ++ C) ∧
      leftover (B ++ C) = leftover (leftover B ++ C) := by
  induction B using bytes_induction with
  | hs B h => simp [wholeBytes_short B h, leftover_short B h]
  | hb a D ha ih =>
    rw [List.append_assoc, wholeBytes_append _ _ ha, leftover_append _ _ ha, wholeBytes_append _ _ ha,
      leftover_append _ _ ha, ih.1, ih.2]
    simp

/-! ## Continuing a decode (R127) -/

/-- The text so far does not steer a decode. -/
theorem decodeLoop_foldl (T : CodeMap) (out : List Sym21) (cand B : Bits) :
    B.foldl (refDecodeBit T) (out, cand) = (out ++ (decodeLoop T cand B).1, (decodeLoop T cand B).2) := by
  unfold decodeLoop
  induction B generalizing out cand with
  | nil => simp
  | cons x B ih =>
    simp only [List.foldl_cons]
    cases h : T.symOf (cand ++ [x]) with
    | none =>
      have hb : ∀ o, refDecodeBit T (o, cand) x = (o, cand ++ [x]) := fun o => by simp [refDecodeBit, h]
      rw [hb, hb]
      exact ih _ _
    | some s =>
      have hb : ∀ o, refDecodeBit T (o, cand) x = (o ++ [s], []) := fun o => by simp [refDecodeBit, h]
      rw [hb, hb, ih, ih ([] ++ [s])]
      simp

@[simp] theorem decodeLoop_nil (T : CodeMap) (cand : Bits) : decodeLoop T cand [] = ([], cand) := rfl

theorem decodeLoop_cons_some (T : CodeMap) (cand B : Bits) (x : Bool) (s : Sym21)
    (h : T.symOf (cand ++ [x]) = some s) :
    decodeLoop T cand (x :: B) = (s :: (decodeLoop T [] B).1, (decodeLoop T [] B).2) := by
  have := decodeLoop_foldl T [s] [] B
  rw [decodeLoop, List.foldl_cons, refDecodeBit, h]
  simpa using this

theorem decodeLoop_cons_none (T : CodeMap) (cand B : Bits) (x : Bool) (h : T.symOf (cand ++ [x]) = none) :
    decodeLoop T cand (x :: B) = decodeLoop T (cand ++ [x]) B := by
  rw [decodeLoop, List.foldl_cons, refDecodeBit, h]
  rfl

/-- A decode of two strings one after the other continues from the first one's fragment. -/
theorem decodeLoop_append (T : CodeMap) (cand B C : Bits) :
    decodeLoop T cand (B ++ C) =
      ((decodeLoop T cand B).1 ++ (decodeLoop T (decodeLoop T cand B).2 C).1,
        (decodeLoop T (decodeLoop T cand B).2 C).2) := by
  have := decodeLoop_foldl T (decodeLoop T cand B).1 (decodeLoop T cand B).2 C
  rw [← this, decodeLoop, List.foldl_append]
  rfl

/-- By a table with the properties of R125 `decode` is its loop (R127). -/
theorem refDecodeFrom_legal (T : CodeMap) (h : T.Legal) (cand B : Bits) :
    refDecodeFrom T cand B = some (decodeLoop T cand B) := if_pos h

theorem refDecode_legal (T : CodeMap) (h : T.Legal) (B : Bits) : refDecode B T = some (decodeLoop T [] B) := if_pos h

/-- By a table that lacks a property of R125 `decode` has no value (R126). -/
theorem refDecode_illegal (T : CodeMap) (h : ¬ T.Legal) (B : Bits) : refDecode B T = none := if_neg h

theorem refEncode_legal (T : CodeMap) (h : T.Legal) (X : List Sym21) : refEncode X T = encodeLoop X T := if_pos h

theorem refFeed_legal (t : CodeTable) (h : t.toMap.Legal) (d : Decoder) (B : Bits) :
    refFeed t d B = some (feedLoop t d B) := if_pos h

/-! ## The table memory as a code map (R50, R104) -/

/-- The entries of a table are codes of 1 to 32 bits held canonically (R51 (c), (d)). -/
def CodeTable.CodesOk (t : CodeTable) : Prop :=
  ∀ e ∈ t.entries, 1 ≤ e.len.toNat ∧ e.len.toNat ≤ 32 ∧ e.code.toNat < 2 ^ e.len.toNat

/-- A candidate of at most 32 bits is a code of the map exactly when the table search finds it (R182, R127). -/
theorem symOf_toMap (t : CodeTable) (ht : t.CodesOk) (c : Bits) (hc : c.length ≤ 32) :
    t.toMap.symOf c = (t.matchCode (BitVec.ofNat 6 c.length) (BitVec.ofNat 32 (val c))).map Entry.sym := by
  unfold CodeTable.toMap CodeMap.symOf CodeTable.matchCode
  unfold CodeTable.CodesOk at ht
  generalize t.entries = l at ht
  induction l with
  | nil => rfl
  | cons e l ih =>
    obtain ⟨-, h32, hlt⟩ := ht e (by simp)
    have hiff : (str e.len.toNat e.code == c) =
        (e.len == BitVec.ofNat 6 c.length && e.code == BitVec.ofNat 32 (val c)) := by
      rw [Bool.eq_iff_iff]
      simp only [beq_iff_eq, Bool.and_eq_true]
      constructor
      · rintro rfl
        refine ⟨BitVec.eq_of_toNat_eq ?_, BitVec.eq_of_toNat_eq ?_⟩
        · rw [str_length, BitVec.toNat_ofNat, Nat.mod_eq_of_lt (by omega)]
        · rw [val_str, BitVec.toNat_ofNat, Nat.mod_eq_of_lt hlt, Nat.mod_eq_of_lt e.code.isLt]
      · rintro ⟨h1, h2⟩
        have hl : e.len.toNat = c.length := by
          rw [h1, BitVec.toNat_ofNat, Nat.mod_eq_of_lt (by omega)]
        rw [hl, h2]
        exact str_val c hc
    rw [List.map_cons, List.find?_cons, List.find?_cons]
    simp only [hiff]
    cases hb : (e.len == BitVec.ofNat 6 c.length && e.code == BitVec.ofNat 32 (val c)) with
    | true => rfl
    | false => exact ih fun e' he' => ht e' (by simp [he'])

/-- A candidate longer than 32 bits is no code of the map (R186). -/
theorem symOf_toMap_long (t : CodeTable) (ht : t.CodesOk) (c : Bits) (hc : 32 < c.length) :
    t.toMap.symOf c = none := by
  unfold CodeTable.toMap CodeMap.symOf
  rw [Option.map_eq_none_iff, List.find?_eq_none]
  intro p hp
  obtain ⟨e, he, rfl⟩ := List.mem_map.mp hp
  have := (ht e he).2.1
  intro h
  have := congrArg List.length (beq_iff_eq.mp h)
  rw [str_length] at this
  omega

/-- The code the map gives a symbol is the one the table search finds (R145, R130). -/
theorem codeOf_toMap (t : CodeTable) (s : Sym21) :
    t.toMap.codeOf s = (t.lookupSym s).map fun e => str e.len.toNat e.code := by
  unfold CodeTable.toMap CodeMap.codeOf CodeTable.lookupSym
  induction t.entries with
  | nil => rfl
  | cons e l ih =>
    rw [List.map_cons, List.find?_cons, List.find?_cons]
    cases hb : (e.sym == s) with
    | true => simp
    | false => simpa [hb] using ih

/-- The invariants of the table memory are the properties R125 requires of the table it stands for (R51). -/
theorem CodeTable.toMap_legal (t : CodeTable) (ht : t.CodesOk) (hs : t.entries.Pairwise fun a b => a.sym ≠ b.sym)
    (hp : t.entries.Pairwise fun a b => conflicts a.len a.code b.len b.code = false) : t.toMap.Legal := by
  refine ⟨List.pairwise_map.mpr hs, List.pairwise_map.mpr (hp.imp_of_mem fun {a b} ha hb hab => ?_), fun p hp => ?_⟩
  · have := conflicts_iff a.len b.len a.code b.code (ht a ha).2.2 (ht b hb).2.2
    simpa [hab] using this
  · obtain ⟨e, he, rfl⟩ := List.mem_map.mp hp
    have h1 := (ht e he).1
    intro h0
    have := congrArg List.length h0
    simp at this
    omega

end Sys2Proof.Machine
end

