-- ==== Sys2Proof/Laws/State.lean ====
section
/-! SUPPORT. One lemma per field per update, true by definition, so that no proof unfolds a record update. -/
namespace Sys2Proof.Machine

/-! ## Updates of one group -/

@[simp] theorem State.setInputs_cfg (s : State) (x : List HostInput) : (s.setInputs x).cfg = s.cfg := rfl
@[simp] theorem State.setInputs_inputs (s : State) (x : List HostInput) : (s.setInputs x).inputs = x := rfl
@[simp] theorem State.setInputs_ctl (s : State) (x : List HostInput) : (s.setInputs x).ctl = s.ctl := rfl
@[simp] theorem State.setInputs_flt (s : State) (x : List HostInput) : (s.setInputs x).flt = s.flt := rfl
@[simp] theorem State.setInputs_pk (s : State) (x : List HostInput) : (s.setInputs x).pk = s.pk := rfl
@[simp] theorem State.setInputs_un (s : State) (x : List HostInput) : (s.setInputs x).un = s.un := rfl
@[simp] theorem State.setInputs_de (s : State) (x : List HostInput) : (s.setInputs x).de = s.de := rfl
@[simp] theorem State.setInputs_tab (s : State) (x : List HostInput) : (s.setInputs x).tab = s.tab := rfl
@[simp] theorem State.setInputs_out (s : State) (x : List HostInput) : (s.setInputs x).out = s.out := rfl

@[simp] theorem State.setCtl_cfg (s : State) (x : Control) : (s.setCtl x).cfg = s.cfg := rfl
@[simp] theorem State.setCtl_inputs (s : State) (x : Control) : (s.setCtl x).inputs = s.inputs := rfl
@[simp] theorem State.setCtl_ctl (s : State) (x : Control) : (s.setCtl x).ctl = x := rfl
@[simp] theorem State.setCtl_flt (s : State) (x : Control) : (s.setCtl x).flt = s.flt := rfl
@[simp] theorem State.setCtl_pk (s : State) (x : Control) : (s.setCtl x).pk = s.pk := rfl
@[simp] theorem State.setCtl_un (s : State) (x : Control) : (s.setCtl x).un = s.un := rfl
@[simp] theorem State.setCtl_de (s : State) (x : Control) : (s.setCtl x).de = s.de := rfl
@[simp] theorem State.setCtl_tab (s : State) (x : Control) : (s.setCtl x).tab = s.tab := rfl
@[simp] theorem State.setCtl_out (s : State) (x : Control) : (s.setCtl x).out = s.out := rfl

@[simp] theorem State.setFlt_cfg (s : State) (x : FaultRecord) : (s.setFlt x).cfg = s.cfg := rfl
@[simp] theorem State.setFlt_inputs (s : State) (x : FaultRecord) : (s.setFlt x).inputs = s.inputs := rfl
@[simp] theorem State.setFlt_ctl (s : State) (x : FaultRecord) : (s.setFlt x).ctl = s.ctl := rfl
@[simp] theorem State.setFlt_flt (s : State) (x : FaultRecord) : (s.setFlt x).flt = x := rfl
@[simp] theorem State.setFlt_pk (s : State) (x : FaultRecord) : (s.setFlt x).pk = s.pk := rfl
@[simp] theorem State.setFlt_un (s : State) (x : FaultRecord) : (s.setFlt x).un = s.un := rfl
@[simp] theorem State.setFlt_de (s : State) (x : FaultRecord) : (s.setFlt x).de = s.de := rfl
@[simp] theorem State.setFlt_tab (s : State) (x : FaultRecord) : (s.setFlt x).tab = s.tab := rfl
@[simp] theorem State.setFlt_out (s : State) (x : FaultRecord) : (s.setFlt x).out = s.out := rfl

@[simp] theorem State.setPk_cfg (s : State) (x : Packer) : (s.setPk x).cfg = s.cfg := rfl
@[simp] theorem State.setPk_inputs (s : State) (x : Packer) : (s.setPk x).inputs = s.inputs := rfl
@[simp] theorem State.setPk_ctl (s : State) (x : Packer) : (s.setPk x).ctl = s.ctl := rfl
@[simp] theorem State.setPk_flt (s : State) (x : Packer) : (s.setPk x).flt = s.flt := rfl
@[simp] theorem State.setPk_pk (s : State) (x : Packer) : (s.setPk x).pk = x := rfl
@[simp] theorem State.setPk_un (s : State) (x : Packer) : (s.setPk x).un = s.un := rfl
@[simp] theorem State.setPk_de (s : State) (x : Packer) : (s.setPk x).de = s.de := rfl
@[simp] theorem State.setPk_tab (s : State) (x : Packer) : (s.setPk x).tab = s.tab := rfl
@[simp] theorem State.setPk_out (s : State) (x : Packer) : (s.setPk x).out = s.out := rfl

@[simp] theorem State.setUn_cfg (s : State) (x : Unpacker) : (s.setUn x).cfg = s.cfg := rfl
@[simp] theorem State.setUn_inputs (s : State) (x : Unpacker) : (s.setUn x).inputs = s.inputs := rfl
@[simp] theorem State.setUn_ctl (s : State) (x : Unpacker) : (s.setUn x).ctl = s.ctl := rfl
@[simp] theorem State.setUn_flt (s : State) (x : Unpacker) : (s.setUn x).flt = s.flt := rfl
@[simp] theorem State.setUn_pk (s : State) (x : Unpacker) : (s.setUn x).pk = s.pk := rfl
@[simp] theorem State.setUn_un (s : State) (x : Unpacker) : (s.setUn x).un = x := rfl
@[simp] theorem State.setUn_de (s : State) (x : Unpacker) : (s.setUn x).de = s.de := rfl
@[simp] theorem State.setUn_tab (s : State) (x : Unpacker) : (s.setUn x).tab = s.tab := rfl
@[simp] theorem State.setUn_out (s : State) (x : Unpacker) : (s.setUn x).out = s.out := rfl

@[simp] theorem State.setDe_cfg (s : State) (x : Decoder) : (s.setDe x).cfg = s.cfg := rfl
@[simp] theorem State.setDe_inputs (s : State) (x : Decoder) : (s.setDe x).inputs = s.inputs := rfl
@[simp] theorem State.setDe_ctl (s : State) (x : Decoder) : (s.setDe x).ctl = s.ctl := rfl
@[simp] theorem State.setDe_flt (s : State) (x : Decoder) : (s.setDe x).flt = s.flt := rfl
@[simp] theorem State.setDe_pk (s : State) (x : Decoder) : (s.setDe x).pk = s.pk := rfl
@[simp] theorem State.setDe_un (s : State) (x : Decoder) : (s.setDe x).un = s.un := rfl
@[simp] theorem State.setDe_de (s : State) (x : Decoder) : (s.setDe x).de = x := rfl
@[simp] theorem State.setDe_tab (s : State) (x : Decoder) : (s.setDe x).tab = s.tab := rfl
@[simp] theorem State.setDe_out (s : State) (x : Decoder) : (s.setDe x).out = s.out := rfl

@[simp] theorem State.setTab_cfg (s : State) (x : CodeTable) : (s.setTab x).cfg = s.cfg := rfl
@[simp] theorem State.setTab_inputs (s : State) (x : CodeTable) : (s.setTab x).inputs = s.inputs := rfl
@[simp] theorem State.setTab_ctl (s : State) (x : CodeTable) : (s.setTab x).ctl = s.ctl := rfl
@[simp] theorem State.setTab_flt (s : State) (x : CodeTable) : (s.setTab x).flt = s.flt := rfl
@[simp] theorem State.setTab_pk (s : State) (x : CodeTable) : (s.setTab x).pk = s.pk := rfl
@[simp] theorem State.setTab_un (s : State) (x : CodeTable) : (s.setTab x).un = s.un := rfl
@[simp] theorem State.setTab_de (s : State) (x : CodeTable) : (s.setTab x).de = s.de := rfl
@[simp] theorem State.setTab_tab (s : State) (x : CodeTable) : (s.setTab x).tab = x := rfl
@[simp] theorem State.setTab_out (s : State) (x : CodeTable) : (s.setTab x).out = s.out := rfl

@[simp] theorem State.setOut_cfg (s : State) (x : Outputs) : (s.setOut x).cfg = s.cfg := rfl
@[simp] theorem State.setOut_inputs (s : State) (x : Outputs) : (s.setOut x).inputs = s.inputs := rfl
@[simp] theorem State.setOut_ctl (s : State) (x : Outputs) : (s.setOut x).ctl = s.ctl := rfl
@[simp] theorem State.setOut_flt (s : State) (x : Outputs) : (s.setOut x).flt = s.flt := rfl
@[simp] theorem State.setOut_pk (s : State) (x : Outputs) : (s.setOut x).pk = s.pk := rfl
@[simp] theorem State.setOut_un (s : State) (x : Outputs) : (s.setOut x).un = s.un := rfl
@[simp] theorem State.setOut_de (s : State) (x : Outputs) : (s.setOut x).de = s.de := rfl
@[simp] theorem State.setOut_tab (s : State) (x : Outputs) : (s.setOut x).tab = s.tab := rfl
@[simp] theorem State.setOut_out (s : State) (x : Outputs) : (s.setOut x).out = x := rfl

/-! ## Emits -/

@[simp] theorem State.emitByte_cfg (s : State) (v : Byte) : (s.emitByte v).cfg = s.cfg := rfl
@[simp] theorem State.emitByte_inputs (s : State) (v : Byte) : (s.emitByte v).inputs = s.inputs := rfl
@[simp] theorem State.emitByte_ctl (s : State) (v : Byte) : (s.emitByte v).ctl = s.ctl := rfl
@[simp] theorem State.emitByte_flt (s : State) (v : Byte) : (s.emitByte v).flt = s.flt := rfl
@[simp] theorem State.emitByte_pk (s : State) (v : Byte) : (s.emitByte v).pk = s.pk := rfl
@[simp] theorem State.emitByte_un (s : State) (v : Byte) : (s.emitByte v).un = s.un := rfl
@[simp] theorem State.emitByte_de (s : State) (v : Byte) : (s.emitByte v).de = s.de := rfl
@[simp] theorem State.emitByte_tab (s : State) (v : Byte) : (s.emitByte v).tab = s.tab := rfl
@[simp] theorem State.emitByte_byteOut (s : State) (v : Byte) : (s.emitByte v).out.byteOut = s.out.byteOut ++ [v] := rfl
@[simp] theorem State.emitByte_bitOut (s : State) (v : Byte) : (s.emitByte v).out.bitOut = s.out.bitOut := rfl
@[simp] theorem State.emitByte_symOut (s : State) (v : Byte) : (s.emitByte v).out.symOut = s.out.symOut := rfl
@[simp] theorem State.emitByte_respOut (s : State) (v : Byte) : (s.emitByte v).out.respOut = s.out.respOut := rfl

@[simp] theorem State.emitBit_cfg (s : State) (v : Bool) : (s.emitBit v).cfg = s.cfg := rfl
@[simp] theorem State.emitBit_inputs (s : State) (v : Bool) : (s.emitBit v).inputs = s.inputs := rfl
@[simp] theorem State.emitBit_ctl (s : State) (v : Bool) : (s.emitBit v).ctl = s.ctl := rfl
@[simp] theorem State.emitBit_flt (s : State) (v : Bool) : (s.emitBit v).flt = s.flt := rfl
@[simp] theorem State.emitBit_pk (s : State) (v : Bool) : (s.emitBit v).pk = s.pk := rfl
@[simp] theorem State.emitBit_un (s : State) (v : Bool) : (s.emitBit v).un = s.un := rfl
@[simp] theorem State.emitBit_de (s : State) (v : Bool) : (s.emitBit v).de = s.de := rfl
@[simp] theorem State.emitBit_tab (s : State) (v : Bool) : (s.emitBit v).tab = s.tab := rfl
@[simp] theorem State.emitBit_byteOut (s : State) (v : Bool) : (s.emitBit v).out.byteOut = s.out.byteOut := rfl
@[simp] theorem State.emitBit_bitOut (s : State) (v : Bool) : (s.emitBit v).out.bitOut = s.out.bitOut ++ [v] := rfl
@[simp] theorem State.emitBit_symOut (s : State) (v : Bool) : (s.emitBit v).out.symOut = s.out.symOut := rfl
@[simp] theorem State.emitBit_respOut (s : State) (v : Bool) : (s.emitBit v).out.respOut = s.out.respOut := rfl

@[simp] theorem State.emitSym_cfg (s : State) (v : Sym21) : (s.emitSym v).cfg = s.cfg := rfl
@[simp] theorem State.emitSym_inputs (s : State) (v : Sym21) : (s.emitSym v).inputs = s.inputs := rfl
@[simp] theorem State.emitSym_ctl (s : State) (v : Sym21) : (s.emitSym v).ctl = s.ctl := rfl
@[simp] theorem State.emitSym_flt (s : State) (v : Sym21) : (s.emitSym v).flt = s.flt := rfl
@[simp] theorem State.emitSym_pk (s : State) (v : Sym21) : (s.emitSym v).pk = s.pk := rfl
@[simp] theorem State.emitSym_un (s : State) (v : Sym21) : (s.emitSym v).un = s.un := rfl
@[simp] theorem State.emitSym_de (s : State) (v : Sym21) : (s.emitSym v).de = s.de := rfl
@[simp] theorem State.emitSym_tab (s : State) (v : Sym21) : (s.emitSym v).tab = s.tab := rfl
@[simp] theorem State.emitSym_byteOut (s : State) (v : Sym21) : (s.emitSym v).out.byteOut = s.out.byteOut := rfl
@[simp] theorem State.emitSym_bitOut (s : State) (v : Sym21) : (s.emitSym v).out.bitOut = s.out.bitOut := rfl
@[simp] theorem State.emitSym_symOut (s : State) (v : Sym21) : (s.emitSym v).out.symOut = s.out.symOut ++ [v] := rfl
@[simp] theorem State.emitSym_respOut (s : State) (v : Sym21) : (s.emitSym v).out.respOut = s.out.respOut := rfl

@[simp] theorem State.emitResp_cfg (s : State) (v : Word) : (s.emitResp v).cfg = s.cfg := rfl
@[simp] theorem State.emitResp_inputs (s : State) (v : Word) : (s.emitResp v).inputs = s.inputs := rfl
@[simp] theorem State.emitResp_ctl (s : State) (v : Word) : (s.emitResp v).ctl = s.ctl := rfl
@[simp] theorem State.emitResp_flt (s : State) (v : Word) : (s.emitResp v).flt = s.flt := rfl
@[simp] theorem State.emitResp_pk (s : State) (v : Word) : (s.emitResp v).pk = s.pk := rfl
@[simp] theorem State.emitResp_un (s : State) (v : Word) : (s.emitResp v).un = s.un := rfl
@[simp] theorem State.emitResp_de (s : State) (v : Word) : (s.emitResp v).de = s.de := rfl
@[simp] theorem State.emitResp_tab (s : State) (v : Word) : (s.emitResp v).tab = s.tab := rfl
@[simp] theorem State.emitResp_byteOut (s : State) (v : Word) : (s.emitResp v).out.byteOut = s.out.byteOut := rfl
@[simp] theorem State.emitResp_bitOut (s : State) (v : Word) : (s.emitResp v).out.bitOut = s.out.bitOut := rfl
@[simp] theorem State.emitResp_symOut (s : State) (v : Word) : (s.emitResp v).out.symOut = s.out.symOut := rfl
@[simp] theorem State.emitResp_respOut (s : State) (v : Word) : (s.emitResp v).out.respOut = s.out.respOut ++ [v] := rfl

/-! ## A state is its groups -/

/-- Two states with the same groups are the same state. -/
theorem State.ext_groups (s t : State) (hcfg : s.cfg = t.cfg) (hin : s.inputs = t.inputs) (hctl : s.ctl = t.ctl)
    (hflt : s.flt = t.flt) (hpk : s.pk = t.pk) (hun : s.un = t.un) (hde : s.de = t.de) (htab : s.tab = t.tab)
    (hout : s.out = t.out) : s = t := by
  cases s; cases t; simp_all

/-- Two output groups with the same sequences are the same. -/
theorem Outputs.ext_seqs (a b : Outputs) (hy : a.byteOut = b.byteOut) (hx : a.bitOut = b.bitOut)
    (hs : a.symOut = b.symOut) (hr : a.respOut = b.respOut) : a = b := by
  cases a; cases b; simp_all

end Sys2Proof.Machine
end

