-- ==== Sys2Proof/Laws/Ops.lean ====
section
/-! SUPPORT. What each shared operation can do, said once: the front end, the fault, the bit loops of the packer, the decoder and the
unpacker in closed form, and the groups of state each leaves alone. -/
namespace Sys2Proof.Machine

/-! ## The front end (R238) -/

theorem firstFault_nil : firstFault [] = none := rfl

/-- No check fails exactly when each one passes. -/
theorem firstFault_none (l : List (Bool × Cause)) : firstFault l = none ↔ ∀ p ∈ l, p.1 = false := by
  induction l with
  | nil => simp [firstFault]
  | cons a l ih =>
    obtain ⟨b, c⟩ := a
    cases b <;> simp [firstFault, ih]

/-- What the front end does with a command: it discards it, records its first failing check, or lets it have its effect. -/
theorem guarded_cases (i : Instr) (checks : List (Bool × Cause)) (effect : State → State) (s : State) :
    (s.faulted = true ∧ guarded i checks effect s = .next s)
      ∨ (s.faulted = false ∧ ∃ c, firstFault checks = some c ∧
          guarded i checks effect s = .next (enterFault c (encode i) s))
      ∨ (s.faulted = false ∧ firstFault checks = none ∧ guarded i checks effect s = .next (effect s)) := by
  unfold guarded
  cases hf : s.faulted
  · cases hc : firstFault checks <;> simp
  · simp

theorem guarded_faulted (i : Instr) (checks : List (Bool × Cause)) (effect : State → State) (s : State)
    (h : s.faulted = true) : guarded i checks effect s = .next s := by simp [guarded, h]

theorem guarded_fault (i : Instr) (checks : List (Bool × Cause)) (effect : State → State) (s : State) (c : Cause)
    (h : s.faulted = false) (hc : firstFault checks = some c) :
    guarded i checks effect s = .next (enterFault c (encode i) s) := by simp [guarded, h, hc]

theorem guarded_ok (i : Instr) (checks : List (Bool × Cause)) (effect : State → State) (s : State)
    (h : s.faulted = false) (hc : firstFault checks = none) :
    guarded i checks effect s = .next (effect s) := by simp [guarded, h, hc]

@[simp] theorem decodeUndefined_nil (s : State) : s.decodeUndefined [] = false := rfl

/-- Decoding by a prefix-free table is defined (R126). -/
theorem decodeUndefined_prefixFree (s : State) (bits : Bits) (h : s.tab.prefixFree = true) :
    s.decodeUndefined bits = false := by simp [State.decodeUndefined, h]

/-- A command that decodes stops exactly where it would have its effect and decoding is undefined; elsewhere its front end
is that of any command. -/
theorem guardedDecode_cases (i : Instr) (checks : List (Bool × Cause)) (bits : Bits) (effect : State → State)
    (s : State) :
    (s.faulted = false ∧ firstFault checks = none ∧ s.decodeUndefined bits = true ∧
        guardedDecode i checks bits effect s = .fault .malformedTable)
      ∨ (¬ (s.faulted = false ∧ firstFault checks = none ∧ s.decodeUndefined bits = true) ∧
          guardedDecode i checks bits effect s = guarded i checks effect s) := by
  unfold guardedDecode
  cases hf : s.faulted <;> cases hc : firstFault checks <;> cases hd : s.decodeUndefined bits <;> simp

@[simp] theorem guardedDecode_nil (i : Instr) (checks : List (Bool × Cause)) (effect : State → State) (s : State) :
    guardedDecode i checks [] effect s = guarded i checks effect s := by simp [guardedDecode]

/-- A cause code is never 0 and at most 9 (R236). -/
theorem Cause.code_range (c : Cause) : c.code ≠ 0 ∧ c.code.toNat ≤ 9 := by cases c <;> decide

/-- A block that has taken a fault is faulted (R237). -/
theorem enterFault_faulted (c : Cause) (cw : CmdWord) (s : State) : (enterFault c cw s).faulted = true := by
  cases c <;> rfl

/-- The faulted condition reads the fault record only. -/
theorem faulted_congr (s t : State) (h : s.flt = t.flt) : s.faulted = t.faulted := by simp [State.faulted, h]

/-! ## Loops keep what each round keeps -/

/-- A projection each round of a loop keeps, the loop keeps. -/
theorem foldl_keeps {α β : Type} (f : State → β → State) (p : State → α) (h : ∀ s x, p (f s x) = p s) (l : List β)
    (s : State) : p (l.foldl f s) = p s := by
  induction l generalizing s with
  | nil => rfl
  | cons x l ih => rw [List.foldl_cons, ih, h]

/-! ## The packer (R141) -/

@[simp] theorem packBit_cfg (s : State) (x : Bool) : (packBit s x).cfg = s.cfg := by unfold packBit; split <;> rfl
@[simp] theorem packBit_inputs (s : State) (x : Bool) : (packBit s x).inputs = s.inputs := by unfold packBit; split <;> rfl
@[simp] theorem packBit_ctl (s : State) (x : Bool) : (packBit s x).ctl = s.ctl := by unfold packBit; split <;> rfl
@[simp] theorem packBit_flt (s : State) (x : Bool) : (packBit s x).flt = s.flt := by unfold packBit; split <;> rfl
@[simp] theorem packBit_un (s : State) (x : Bool) : (packBit s x).un = s.un := by unfold packBit; split <;> rfl
@[simp] theorem packBit_de (s : State) (x : Bool) : (packBit s x).de = s.de := by unfold packBit; split <;> rfl
@[simp] theorem packBit_tab (s : State) (x : Bool) : (packBit s x).tab = s.tab := by unfold packBit; split <;> rfl
@[simp] theorem packBit_bitOut (s : State) (x : Bool) : (packBit s x).out.bitOut = s.out.bitOut := by unfold packBit; split <;> rfl
@[simp] theorem packBit_symOut (s : State) (x : Bool) : (packBit s x).out.symOut = s.out.symOut := by unfold packBit; split <;> rfl
@[simp] theorem packBit_respOut (s : State) (x : Bool) : (packBit s x).out.respOut = s.out.respOut := by unfold packBit; split <;> rfl

@[simp] theorem packBit_pact (s : State) (x : Bool) : (packBit s x).pk.pact = s.pk.pact := by unfold packBit; split <;> rfl
@[simp] theorem packBit_pdone (s : State) (x : Bool) : (packBit s x).pk.pdone = s.pk.pdone := by unfold packBit; split <;> rfl
@[simp] theorem packBit_padcnt (s : State) (x : Bool) : (packBit s x).pk.padcnt = s.pk.padcnt := by unfold packBit; split <;> rfl

@[simp] theorem packBits_cfg (bs : Bits) (s : State) : (packBits bs s).cfg = s.cfg := foldl_keeps _ (·.cfg) (by simp) _ _
@[simp] theorem packBits_inputs (bs : Bits) (s : State) : (packBits bs s).inputs = s.inputs := foldl_keeps _ (·.inputs) (by simp) _ _
@[simp] theorem packBits_ctl (bs : Bits) (s : State) : (packBits bs s).ctl = s.ctl := foldl_keeps _ (·.ctl) (by simp) _ _
@[simp] theorem packBits_flt (bs : Bits) (s : State) : (packBits bs s).flt = s.flt := foldl_keeps _ (·.flt) (by simp) _ _
@[simp] theorem packBits_un (bs : Bits) (s : State) : (packBits bs s).un = s.un := foldl_keeps _ (·.un) (by simp) _ _
@[simp] theorem packBits_de (bs : Bits) (s : State) : (packBits bs s).de = s.de := foldl_keeps _ (·.de) (by simp) _ _
@[simp] theorem packBits_tab (bs : Bits) (s : State) : (packBits bs s).tab = s.tab := foldl_keeps _ (·.tab) (by simp) _ _
@[simp] theorem packBits_bitOut (bs : Bits) (s : State) : (packBits bs s).out.bitOut = s.out.bitOut := foldl_keeps _ (·.out.bitOut) (by simp) _ _
@[simp] theorem packBits_symOut (bs : Bits) (s : State) : (packBits bs s).out.symOut = s.out.symOut := foldl_keeps _ (·.out.symOut) (by simp) _ _
@[simp] theorem packBits_respOut (bs : Bits) (s : State) : (packBits bs s).out.respOut = s.out.respOut := foldl_keeps _ (·.out.respOut) (by simp) _ _

@[simp] theorem packBits_pact (bs : Bits) (s : State) : (packBits bs s).pk.pact = s.pk.pact := foldl_keeps _ (·.pk.pact) (by simp) _ _
@[simp] theorem packBits_pdone (bs : Bits) (s : State) : (packBits bs s).pk.pdone = s.pk.pdone := foldl_keeps _ (·.pk.pdone) (by simp) _ _
@[simp] theorem packBits_padcnt (bs : Bits) (s : State) : (packBits bs s).pk.padcnt = s.pk.padcnt := foldl_keeps _ (·.pk.padcnt) (by simp) _ _

theorem packBits_append (a b : Bits) (s : State) : packBits (a ++ b) s = packBits b (packBits a s) :=
  List.foldl_append

/-- The bits the packer holds (R29). -/
def Packer.pending (p : Packer) : Bits := str p.pcnt.toNat p.pacc

/-- The packer and its output after a bit string: the pending bits and the new ones, cut into whole bytes, which leave,
and a rest, which stays (R137, R141). -/
def packed (bs : Bits) (s : State) : State :=
  (s.setOut { s.out with byteOut := s.out.byteOut ++ wholeBytes (s.pk.pending ++ bs) }).setPk
    { s.pk with
      pacc := BitVec.ofNat 8 (val (leftover (s.pk.pending ++ bs)))
      pcnt := BitVec.ofNat 3 (leftover (s.pk.pending ++ bs)).length
      pbitcnt := s.pk.pbitcnt + BitVec.ofNat 32 bs.length
      pbytecnt := s.pk.pbytecnt + BitVec.ofNat 32 (wholeBytes (s.pk.pending ++ bs)).length }

theorem ofNat_succ_word (w : Word) (n : Nat) : w + 1 + BitVec.ofNat 32 n = w + BitVec.ofNat 32 (n + 1) := by
  rw [BitVec.ofNat_add, BitVec.add_assoc, BitVec.add_comm 1]
  rfl

theorem val_pending (p : Packer) (h : p.pacc.toNat < 2 ^ p.pcnt.toNat) : val p.pending = p.pacc.toNat := by
  rw [Packer.pending, val_str, Nat.mod_eq_of_lt h]

@[simp] theorem Packer.pending_length (p : Packer) : p.pending.length = p.pcnt.toNat := str_length _ _

/-- `PackBit` over a bit string in closed form, while the accumulator holds `PCNT` bits (R29, R141). -/
theorem packBits_eq (bs : Bits) (s : State) (h : s.pk.pacc.toNat < 2 ^ s.pk.pcnt.toNat) :
    packBits bs s = packed bs s := by
  induction bs generalizing s with
  | nil =>
    have hlt : s.pk.pending.length < 8 := by rw [Packer.pending_length]; omega
    unfold packed
    rw [List.append_nil, wholeBytes_short _ hlt, leftover_short _ hlt, val_pending _ h]
    simp [packBits, State.setOut, State.setPk]
  | cons x bs ih =>
    have hcons : packBits (x :: bs) s = packBits bs (packBit s x) := rfl
    rw [hcons]
    by_cases h7 : s.pk.pcnt = 7
    · have hbyte : s.pk.pending ++ [x] = str 8 (shiftIn s.pk.pacc x) := by
        rw [Packer.pending, h7]; exact (str_shiftIn 7 s.pk.pacc x (by omega)).symm
      have hs : packBit s x = (s.emitByte (shiftIn s.pk.pacc x)).setPk
          { s.pk with pacc := 0, pcnt := 0, pbitcnt := s.pk.pbitcnt + 1, pbytecnt := s.pk.pbytecnt + 1 } := by
        rw [packBit, if_pos h7]
      rw [hs, ih _ (by simp)]
      unfold packed
      rw [show s.pk.pending ++ x :: bs = bin8 (shiftIn s.pk.pacc x) ++ bs by
        rw [bin8, ← hbyte, List.append_assoc]; rfl]
      rw [wholeBytes_append _ _ (bin8_length _), leftover_append _ _ (bin8_length _), byteOf_bin8]
      have hp : Packer.pending { s.pk with pacc := 0, pcnt := 0, pbitcnt := s.pk.pbitcnt + 1
                                           pbytecnt := s.pk.pbytecnt + 1 } = [] := rfl
      simp only [State.setPk_pk, hp, List.nil_append, List.length_cons, ofNat_succ_word]
      simp [State.setOut, State.setPk, State.emitByte]
    · have hlt : s.pk.pcnt.toNat < 7 := by
        have := s.pk.pcnt.isLt
        rcases Nat.lt_or_ge s.pk.pcnt.toNat 7 with h | h
        · exact h
        · exact absurd (BitVec.eq_of_toNat_eq (show s.pk.pcnt.toNat = (7 : BitVec 3).toNat by simp; omega)) h7
      have hsucc : (s.pk.pcnt + 1).toNat = s.pk.pcnt.toNat + 1 := by
        rw [BitVec.toNat_add]; exact Nat.mod_eq_of_lt (by simp; omega)
      have hs : packBit s x = s.setPk
          { s.pk with pacc := shiftIn s.pk.pacc x, pcnt := s.pk.pcnt + 1, pbitcnt := s.pk.pbitcnt + 1 } := by
        rw [packBit, if_neg h7]
      rw [hs, ih _ (by simp only [State.setPk_pk, hsucc]; exact shiftIn_lt _ _ _ h)]
      have hp : Packer.pending { s.pk with pacc := shiftIn s.pk.pacc x, pcnt := s.pk.pcnt + 1
                                           pbitcnt := s.pk.pbitcnt + 1 } = s.pk.pending ++ [x] := by
        simp only [Packer.pending, hsucc]
        exact str_shiftIn _ _ _ (by omega)
      unfold packed
      simp only [State.setPk_pk, hp, List.append_assoc, List.cons_append, List.nil_append, List.length_cons,
        ofNat_succ_word]
      simp [State.setOut, State.setPk]

/-- After a bit string the accumulator still holds `PCNT` bits (R29). -/
theorem packed_acc (bs : Bits) (s : State) :
    (packed bs s).pk.pacc.toNat < 2 ^ (packed bs s).pk.pcnt.toNat
      ∧ (packed bs s).pk.pending = leftover (s.pk.pending ++ bs) := by
  have hl : (leftover (s.pk.pending ++ bs)).length < 8 := by
    rw [length_leftover]; exact Nat.mod_lt _ (by omega)
  have hv := val_lt (leftover (s.pk.pending ++ bs))
  have hp : 2 ^ (leftover (s.pk.pending ++ bs)).length ≤ 2 ^ 8 := Nat.pow_le_pow_right (by omega) hl.le
  have hc : (BitVec.ofNat 3 (leftover (s.pk.pending ++ bs)).length).toNat = (leftover (s.pk.pending ++ bs)).length := by
    rw [BitVec.toNat_ofNat]; exact Nat.mod_eq_of_lt (by omega)
  constructor
  · show (BitVec.ofNat 8 _).toNat < 2 ^ (BitVec.ofNat 3 _).toNat
    rw [hc, BitVec.toNat_ofNat, Nat.mod_eq_of_lt (by omega)]
    exact hv
  · show str (BitVec.ofNat 3 _).toNat _ = _
    rw [hc]
    exact str_val _ hl.le

/-! ## The decoder (R181) -/

@[simp] theorem decodeBit_cfg (s : State) (x : Bool) : (decodeBit s x).cfg = s.cfg := by
  unfold decodeBit; split_ifs <;> try rfl
  split <;> rfl
@[simp] theorem decodeBit_inputs (s : State) (x : Bool) : (decodeBit s x).inputs = s.inputs := by
  unfold decodeBit; split_ifs <;> try rfl
  split <;> rfl
@[simp] theorem decodeBit_ctl (s : State) (x : Bool) : (decodeBit s x).ctl = s.ctl := by
  unfold decodeBit; split_ifs <;> try rfl
  split <;> rfl
@[simp] theorem decodeBit_flt (s : State) (x : Bool) : (decodeBit s x).flt = s.flt := by
  unfold decodeBit; split_ifs <;> try rfl
  split <;> rfl
@[simp] theorem decodeBit_pk (s : State) (x : Bool) : (decodeBit s x).pk = s.pk := by
  unfold decodeBit; split_ifs <;> try rfl
  split <;> rfl
@[simp] theorem decodeBit_un (s : State) (x : Bool) : (decodeBit s x).un = s.un := by
  unfold decodeBit; split_ifs <;> try rfl
  split <;> rfl
@[simp] theorem decodeBit_tab (s : State) (x : Bool) : (decodeBit s x).tab = s.tab := by
  unfold decodeBit; split_ifs <;> try rfl
  split <;> rfl
@[simp] theorem decodeBit_byteOut (s : State) (x : Bool) : (decodeBit s x).out.byteOut = s.out.byteOut := by
  unfold decodeBit; split_ifs <;> try rfl
  split <;> rfl
@[simp] theorem decodeBit_bitOut (s : State) (x : Bool) : (decodeBit s x).out.bitOut = s.out.bitOut := by
  unfold decodeBit; split_ifs <;> try rfl
  split <;> rfl
@[simp] theorem decodeBit_respOut (s : State) (x : Bool) : (decodeBit s x).out.respOut = s.out.respOut := by
  unfold decodeBit; split_ifs <;> try rfl
  split <;> rfl

@[simp] theorem decodeBit_dact (s : State) (x : Bool) : (decodeBit s x).de.dact = s.de.dact := by
  unfold decodeBit; split_ifs <;> try rfl
  split <;> rfl
@[simp] theorem decodeBit_ddone (s : State) (x : Bool) : (decodeBit s x).de.ddone = s.de.ddone := by
  unfold decodeBit; split_ifs <;> try rfl
  split <;> rfl
@[simp] theorem decodeBit_trail (s : State) (x : Bool) : (decodeBit s x).de.trail = s.de.trail := by
  unfold decodeBit; split_ifs <;> try rfl
  split <;> rfl

@[simp] theorem decodeBits_cfg (bs : Bits) (s : State) : (decodeBits bs s).cfg = s.cfg := foldl_keeps _ (·.cfg) (by simp) _ _
@[simp] theorem decodeBits_inputs (bs : Bits) (s : State) : (decodeBits bs s).inputs = s.inputs := foldl_keeps _ (·.inputs) (by simp) _ _
@[simp] theorem decodeBits_ctl (bs : Bits) (s : State) : (decodeBits bs s).ctl = s.ctl := foldl_keeps _ (·.ctl) (by simp) _ _
@[simp] theorem decodeBits_flt (bs : Bits) (s : State) : (decodeBits bs s).flt = s.flt := foldl_keeps _ (·.flt) (by simp) _ _
@[simp] theorem decodeBits_pk (bs : Bits) (s : State) : (decodeBits bs s).pk = s.pk := foldl_keeps _ (·.pk) (by simp) _ _
@[simp] theorem decodeBits_un (bs : Bits) (s : State) : (decodeBits bs s).un = s.un := foldl_keeps _ (·.un) (by simp) _ _
@[simp] theorem decodeBits_tab (bs : Bits) (s : State) : (decodeBits bs s).tab = s.tab := foldl_keeps _ (·.tab) (by simp) _ _
@[simp] theorem decodeBits_byteOut (bs : Bits) (s : State) : (decodeBits bs s).out.byteOut = s.out.byteOut := foldl_keeps _ (·.out.byteOut) (by simp) _ _
@[simp] theorem decodeBits_bitOut (bs : Bits) (s : State) : (decodeBits bs s).out.bitOut = s.out.bitOut := foldl_keeps _ (·.out.bitOut) (by simp) _ _
@[simp] theorem decodeBits_respOut (bs : Bits) (s : State) : (decodeBits bs s).out.respOut = s.out.respOut := foldl_keeps _ (·.out.respOut) (by simp) _ _

@[simp] theorem decodeBits_dact (bs : Bits) (s : State) : (decodeBits bs s).de.dact = s.de.dact := foldl_keeps _ (·.de.dact) (by simp) _ _
@[simp] theorem decodeBits_ddone (bs : Bits) (s : State) : (decodeBits bs s).de.ddone = s.de.ddone := foldl_keeps _ (·.de.ddone) (by simp) _ _
@[simp] theorem decodeBits_trail (bs : Bits) (s : State) : (decodeBits bs s).de.trail = s.de.trail := foldl_keeps _ (·.de.trail) (by simp) _ _

theorem decodeBits_append (a b : Bits) (s : State) : decodeBits (a ++ b) s = decodeBits b (decodeBits a s) :=
  List.foldl_append

/-- A dead decoder counts a bit and does nothing else (R181, R186). -/
theorem decodeBit_dead (s : State) (x : Bool) (h : s.de.dclen = 33) :
    decodeBit s x = s.setDe { s.de with dbitcnt := s.de.dbitcnt + 1 } := by rw [decodeBit, if_pos h]

/-- The registers stand for a candidate: its length up to 33 and its first 32 bits (R37, R186). -/
def Decoder.Holds (d : Decoder) (cand : Bits) : Prop :=
  d.dclen = BitVec.ofNat 6 (min cand.length 33) ∧ d.dcand = BitVec.ofNat 32 (val (cand.take 32))

/-- The state after a bit string fed to a decoder that holds a candidate. -/
def decoded (cand bs : Bits) (s : State) : State :=
  (s.setOut { s.out with symOut := s.out.symOut ++ (decodeLoop s.tab.toMap cand bs).1 }).setDe
    { s.de with
      dcand := BitVec.ofNat 32 (val ((decodeLoop s.tab.toMap cand bs).2.take 32))
      dclen := BitVec.ofNat 6 (min (decodeLoop s.tab.toMap cand bs).2.length 33)
      dbitcnt := s.de.dbitcnt + BitVec.ofNat 32 bs.length
      dsymcnt := s.de.dsymcnt + BitVec.ofNat 32 (decodeLoop s.tab.toMap cand bs).1.length }

theorem shiftIn_ofNat_val (c : Bits) (x : Bool) (h : c.length < 32) :
    shiftIn (BitVec.ofNat 32 (val c)) x = BitVec.ofNat 32 (val (c ++ [x])) := by
  have h1 := str_shiftIn c.length (BitVec.ofNat 32 (val c)) x h
  rw [str_val c h.le] at h1
  have h2 := str_val (w := 32) (c ++ [x]) (by simp; omega)
  rw [List.length_append, List.length_singleton] at h2
  have hv := val_lt c
  have hv' := val_lt (c ++ [x])
  have hp : 2 ^ (c ++ [x]).length ≤ 2 ^ 32 := Nat.pow_le_pow_right (by omega) (by simp; omega)
  have hp' : 2 ^ c.length ≤ 2 ^ 32 := Nat.pow_le_pow_right (by omega) (by omega)
  refine eq_of_str_eq (c.length + 1) _ _ (h1.trans h2.symm) (shiftIn_lt _ _ _ ?_) ?_
  · rw [BitVec.toNat_ofNat, Nat.mod_eq_of_lt (by omega)]; exact hv
  · rw [BitVec.toNat_ofNat, Nat.mod_eq_of_lt (by omega)]; simpa using hv'

/-- One `DecodeBit` is one round of the reference loop (R127, R181). -/
theorem decodeBit_holds (cand : Bits) (s : State) (x : Bool) (ht : s.tab.CodesOk) (h : s.de.Holds cand) :
    decodeBit s x = decoded cand [x] s := by
  obtain ⟨hl, hc⟩ := h
  have hone : decodeLoop s.tab.toMap cand [x] = refDecodeBit s.tab.toMap ([], cand) x := rfl
  unfold decoded
  rw [hone]
  unfold refDecodeBit
  have hnum : (BitVec.ofNat 6 (min cand.length 33)).toNat = min cand.length 33 := by
    rw [BitVec.toNat_ofNat]; exact Nat.mod_eq_of_lt (by omega)
  rcases Nat.lt_or_ge cand.length 32 with h32 | h32
  · have hmin : min cand.length 33 = cand.length := by omega
    have hsym := symOf_toMap s.tab ht (cand ++ [x]) (by simp; omega)
    have ht32 : cand.take 32 = cand := List.take_of_length_le (by omega)
    have ht32' : (cand ++ [x]).take 32 = cand ++ [x] := List.take_of_length_le (by simp; omega)
    have hne33 : s.de.dclen ≠ 33 := by
      intro h; have := congrArg BitVec.toNat (hl.symm.trans h); rw [hnum] at this; simp at this; omega
    have hne32 : s.de.dclen ≠ 32 := by
      intro h; have := congrArg BitVec.toNat (hl.symm.trans h); rw [hnum] at this; simp at this; omega
    have hlen : s.de.dclen + 1 = BitVec.ofNat 6 (cand ++ [x]).length := by
      rw [hl, hmin, List.length_append, BitVec.ofNat_add]; rfl
    have hcand : shiftIn s.de.dcand x = BitVec.ofNat 32 (val (cand ++ [x])) := by
      rw [hc, ht32, shiftIn_ofNat_val cand x h32]
    rw [decodeBit, if_neg hne33, if_neg hne32, hlen, hcand]
    simp only [hsym]
    cases hm : s.tab.matchCode (BitVec.ofNat 6 (cand ++ [x]).length) (BitVec.ofNat 32 (val (cand ++ [x]))) with
    | none =>
      have hmin' : min (cand ++ [x]).length 33 = (cand ++ [x]).length := by simp; omega
      simp only [Option.map_none, ht32', hmin']
      simp [State.setDe, State.setOut]
    | some e =>
      simp only [Option.map_some]
      simp [State.setDe, State.setOut, State.emitSym]
  · have hlong := symOf_toMap_long s.tab ht (cand ++ [x]) (by simp; omega)
    have htake : (cand ++ [x]).take 32 = cand.take 32 := List.take_append_of_le_length h32
    have hmin' : min (cand ++ [x]).length 33 = 33 := by simp; omega
    simp only [hlong, htake, hmin', ← hc]
    rcases Nat.lt_or_ge 32 cand.length with h33 | h33
    · have hd : s.de.dclen = 33 := by rw [hl, show min cand.length 33 = 33 by omega]; rfl
      rw [decodeBit, if_pos hd]
      simp [State.setDe, State.setOut, hd]
    · have hd : s.de.dclen = 32 := by rw [hl, show min cand.length 33 = 32 by omega]; rfl
      rw [decodeBit, if_neg (by rw [hd]; decide), if_pos hd]
      simp [State.setDe, State.setOut]

theorem decoded_nil (cand : Bits) (s : State) (h : s.de.Holds cand) : decoded cand [] s = s := by
  unfold decoded
  simp [← h.1, ← h.2, State.setDe, State.setOut]

/-- After a bit string the registers stand for the reference fragment (R139, R186). -/
theorem decoded_holds (cand bs : Bits) (s : State) :
    (decoded cand bs s).de.Holds (decodeLoop s.tab.toMap cand bs).2 := ⟨rfl, rfl⟩

theorem decoded_append (cand a b : Bits) (s : State) :
    decoded cand (a ++ b) s = decoded (decodeLoop s.tab.toMap cand a).2 b (decoded cand a s) := by
  unfold decoded
  simp only [State.setDe_tab, State.setOut_tab, decodeLoop_append, List.length_append, BitVec.ofNat_add]
  simp [State.setDe, State.setOut, List.append_assoc, BitVec.add_assoc]

/-- `DecodeBit` over a bit string is the reference decode of it (R127, R139, R181). -/
theorem decodeBits_holds (cand bs : Bits) (s : State) (ht : s.tab.CodesOk) (h : s.de.Holds cand) :
    decodeBits bs s = decoded cand bs s := by
  induction bs generalizing cand s with
  | nil => exact (decoded_nil cand s h).symm
  | cons x bs ih =>
    have hcons : decodeBits (x :: bs) s = decodeBits bs (decodeBit s x) := rfl
    rw [hcons, decodeBit_holds cand s x ht h, ih _ _ (by exact ht) (decoded_holds cand [x] s), ← decoded_append]
    rfl

/-- A decoder that is not dead holds its `DCLEN` candidate bits (R37). -/
theorem Decoder.holds_str (d : Decoder) (hl : d.dclen.toNat ≤ 32) (hc : d.dcand.toNat < 2 ^ d.dclen.toNat) :
    d.Holds (str d.dclen.toNat d.dcand) := by
  constructor
  · rw [str_length, show min d.dclen.toNat 33 = d.dclen.toNat by omega]; simp
  · rw [List.take_of_length_le (by simpa using hl), val_str, Nat.mod_eq_of_lt hc]; simp

/-- A dead decoder stands for any longer candidate that starts with its 32 bits; here its bits and one more (R37). -/
theorem Decoder.holds_dead (d : Decoder) (hl : d.dclen = 33) : d.Holds (str 32 d.dcand ++ [false]) := by
  constructor
  · rw [hl]; simp
  · rw [List.take_left' (by simp), val_str]
    rw [Nat.mod_eq_of_lt d.dcand.isLt, BitVec.ofNat_toNat, BitVec.setWidth_eq]

/-- Once longer than 32 bits, a candidate only grows (R129 (e), R186). -/
theorem decodeLoop_long (t : CodeTable) (ht : t.CodesOk) (cand bs : Bits) (h : 32 < cand.length) :
    decodeLoop t.toMap cand bs = ([], cand ++ bs) := by
  induction bs generalizing cand with
  | nil => simp
  | cons x bs ih =>
    rw [decodeLoop_cons_none _ _ _ _ (symOf_toMap_long t ht _ (by simp; omega)), ih _ (by simp; omega)]
    simp

/-- `DecodeBit` over a bit string is `feedLoop`, dead or not (R139, R181, R186). -/
theorem decodeBits_eq (bs : Bits) (s : State) (ht : s.tab.CodesOk) (hl : s.de.dclen.toNat ≤ 33)
    (hc : s.de.dclen.toNat ≤ 32 → s.de.dcand.toNat < 2 ^ s.de.dclen.toNat) :
    decodeBits bs s = (s.setOut { s.out with symOut := s.out.symOut ++ (feedLoop s.tab s.de bs).2 }).setDe
      (feedLoop s.tab s.de bs).1 := by
  by_cases hd : s.de.dclen = 33
  · have hlong := decodeLoop_long s.tab ht (str 32 s.de.dcand ++ [false]) bs (by simp)
    rw [decodeBits_holds _ bs s ht (s.de.holds_dead hd), decoded, hlong, feedLoop, if_pos hd]
    have htake : (str 32 s.de.dcand ++ [false] ++ bs).take 32 = str 32 s.de.dcand := by
      rw [List.append_assoc]; exact List.take_left' (by simp)
    have hmin : min (str 32 s.de.dcand ++ [false] ++ bs).length 33 = 33 := by simp; omega
    simp only [htake, hmin, val_str, Nat.mod_eq_of_lt s.de.dcand.isLt, BitVec.ofNat_toNat, BitVec.setWidth_eq]
    simp [State.setDe, State.setOut, hd]
  · have hl' : s.de.dclen.toNat ≤ 32 := by
      rcases Nat.lt_or_ge 32 s.de.dclen.toNat with h | h
      · exact absurd (BitVec.eq_of_toNat_eq (show s.de.dclen.toNat = (33 : BitVec 6).toNat by simp; omega)) hd
      · exact h
    rw [decodeBits_holds _ bs s ht (s.de.holds_str hl' (hc hl')), decoded, feedLoop, if_neg hd]

/-! ## The unpacker (R162) -/

/-- A released bit of an unrouted session goes to `BIT_OUT` (R162). -/
theorem releaseBits_bitOut (bs : Bits) (s : State) (h : s.un.udst = .bitOut) :
    bs.foldl releaseBit s =
      (s.setUn { s.un with ubitcnt := s.un.ubitcnt + BitVec.ofNat 32 bs.length }).setOut
        { s.out with bitOut := s.out.bitOut ++ bs } := by
  induction bs generalizing s with
  | nil => simp [State.setUn, State.setOut]
  | cons x bs ih =>
    have hs : releaseBit s x = (s.setUn { s.un with ubitcnt := s.un.ubitcnt + 1 }).emitBit x := by
      rw [releaseBit, h]
    rw [List.foldl_cons, hs, ih _ (by simpa using h)]
    simp only [State.emitBit_un, State.setUn_un, List.length_cons, ofNat_succ_word]
    simp [State.setUn, State.setOut, State.emitBit]

/-- The decoder does not touch the unpacker, nor the unpacker's registers the decoder. -/
theorem decodeBit_setUn (s : State) (u : Unpacker) (x : Bool) :
    decodeBit (s.setUn u) x = (decodeBit s x).setUn u := by
  by_cases h33 : s.de.dclen = 33
  · rw [decodeBit, if_pos (by exact h33), decodeBit, if_pos h33]; rfl
  · by_cases h32 : s.de.dclen = 32
    · rw [decodeBit, if_neg (by exact h33), if_pos (by exact h32), decodeBit, if_neg h33, if_pos h32]; rfl
    · rw [decodeBit, if_neg (by exact h33), if_neg (by exact h32), decodeBit, if_neg h33, if_neg h32]
      simp only [State.setUn_de, State.setUn_tab]
      split <;> rfl

theorem decodeBits_setUn (s : State) (u : Unpacker) (bs : Bits) :
    decodeBits bs (s.setUn u) = (decodeBits bs s).setUn u := by
  induction bs generalizing s with
  | nil => rfl
  | cons x bs ih =>
    show decodeBits bs (decodeBit (s.setUn u) x) = (decodeBits bs (decodeBit s x)).setUn u
    rw [decodeBit_setUn, ih]

/-- A released bit of a routed session goes to the decoder (R162). -/
theorem releaseBits_decoder (bs : Bits) (s : State) (h : s.un.udst = .decoder) :
    bs.foldl releaseBit s =
      decodeBits bs (s.setUn { s.un with ubitcnt := s.un.ubitcnt + BitVec.ofNat 32 bs.length }) := by
  induction bs generalizing s with
  | nil => simp [State.setUn, decodeBits]
  | cons x bs ih =>
    have hs : releaseBit s x = decodeBit (s.setUn { s.un with ubitcnt := s.un.ubitcnt + 1 }) x := by
      rw [releaseBit, h]
    rw [List.foldl_cons, hs, ih _ (by simpa using h)]
    simp only [decodeBit_un, State.setUn_un, List.length_cons, ofNat_succ_word]
    show decodeBits bs _ = decodeBits bs (decodeBit _ x)
    rw [← decodeBit_setUn]
    rfl


@[simp] theorem releaseBit_cfg (s : State) (x : Bool) : (releaseBit s x).cfg = s.cfg := by
  unfold releaseBit; split <;> simp
@[simp] theorem releaseBit_inputs (s : State) (x : Bool) : (releaseBit s x).inputs = s.inputs := by
  unfold releaseBit; split <;> simp
@[simp] theorem releaseBit_ctl (s : State) (x : Bool) : (releaseBit s x).ctl = s.ctl := by
  unfold releaseBit; split <;> simp
@[simp] theorem releaseBit_flt (s : State) (x : Bool) : (releaseBit s x).flt = s.flt := by
  unfold releaseBit; split <;> simp
@[simp] theorem releaseBit_pk (s : State) (x : Bool) : (releaseBit s x).pk = s.pk := by
  unfold releaseBit; split <;> simp
@[simp] theorem releaseBit_tab (s : State) (x : Bool) : (releaseBit s x).tab = s.tab := by
  unfold releaseBit; split <;> simp
@[simp] theorem releaseBit_byteOut (s : State) (x : Bool) : (releaseBit s x).out.byteOut = s.out.byteOut := by
  unfold releaseBit; split <;> simp
@[simp] theorem releaseBit_respOut (s : State) (x : Bool) : (releaseBit s x).out.respOut = s.out.respOut := by
  unfold releaseBit; split <;> simp

@[simp] theorem releaseBit_dact (s : State) (x : Bool) : (releaseBit s x).de.dact = s.de.dact := by
  unfold releaseBit; split <;> simp
@[simp] theorem releaseBit_ddone (s : State) (x : Bool) : (releaseBit s x).de.ddone = s.de.ddone := by
  unfold releaseBit; split <;> simp
@[simp] theorem releaseBit_trail (s : State) (x : Bool) : (releaseBit s x).de.trail = s.de.trail := by
  unfold releaseBit; split <;> simp
@[simp] theorem releaseBit_uact (s : State) (x : Bool) : (releaseBit s x).un.uact = s.un.uact := by
  unfold releaseBit; split <;> simp
@[simp] theorem releaseBit_udone (s : State) (x : Bool) : (releaseBit s x).un.udone = s.un.udone := by
  unfold releaseBit; split <;> simp
@[simp] theorem releaseBit_upad (s : State) (x : Bool) : (releaseBit s x).un.upad = s.un.upad := by
  unfold releaseBit; split <;> simp
@[simp] theorem releaseBit_udst (s : State) (x : Bool) : (releaseBit s x).un.udst = s.un.udst := by
  unfold releaseBit; split <;> simp
@[simp] theorem releaseBit_uholdv (s : State) (x : Bool) : (releaseBit s x).un.uholdv = s.un.uholdv := by
  unfold releaseBit; split <;> simp
@[simp] theorem releaseBit_uhold (s : State) (x : Bool) : (releaseBit s x).un.uhold = s.un.uhold := by
  unfold releaseBit; split <;> simp
@[simp] theorem releaseBit_ubytecnt (s : State) (x : Bool) : (releaseBit s x).un.ubytecnt = s.un.ubytecnt := by
  unfold releaseBit; split <;> simp

@[simp] theorem release_cfg (y : Byte) (k : Nat) (s : State) : (release y k s).cfg = s.cfg := foldl_keeps _ (·.cfg) (by simp) _ _
@[simp] theorem release_inputs (y : Byte) (k : Nat) (s : State) : (release y k s).inputs = s.inputs := foldl_keeps _ (·.inputs) (by simp) _ _
@[simp] theorem release_ctl (y : Byte) (k : Nat) (s : State) : (release y k s).ctl = s.ctl := foldl_keeps _ (·.ctl) (by simp) _ _
@[simp] theorem release_flt (y : Byte) (k : Nat) (s : State) : (release y k s).flt = s.flt := foldl_keeps _ (·.flt) (by simp) _ _
@[simp] theorem release_pk (y : Byte) (k : Nat) (s : State) : (release y k s).pk = s.pk := foldl_keeps _ (·.pk) (by simp) _ _
@[simp] theorem release_tab (y : Byte) (k : Nat) (s : State) : (release y k s).tab = s.tab := foldl_keeps _ (·.tab) (by simp) _ _
@[simp] theorem release_byteOut (y : Byte) (k : Nat) (s : State) : (release y k s).out.byteOut = s.out.byteOut := foldl_keeps _ (·.out.byteOut) (by simp) _ _
@[simp] theorem release_respOut (y : Byte) (k : Nat) (s : State) : (release y k s).out.respOut = s.out.respOut := foldl_keeps _ (·.out.respOut) (by simp) _ _

@[simp] theorem release_dact (y : Byte) (k : Nat) (s : State) : (release y k s).de.dact = s.de.dact := foldl_keeps _ (·.de.dact) (by simp) _ _
@[simp] theorem release_ddone (y : Byte) (k : Nat) (s : State) : (release y k s).de.ddone = s.de.ddone := foldl_keeps _ (·.de.ddone) (by simp) _ _
@[simp] theorem release_trail (y : Byte) (k : Nat) (s : State) : (release y k s).de.trail = s.de.trail := foldl_keeps _ (·.de.trail) (by simp) _ _
@[simp] theorem release_uact (y : Byte) (k : Nat) (s : State) : (release y k s).un.uact = s.un.uact := foldl_keeps _ (·.un.uact) (by simp) _ _
@[simp] theorem release_udone (y : Byte) (k : Nat) (s : State) : (release y k s).un.udone = s.un.udone := foldl_keeps _ (·.un.udone) (by simp) _ _
@[simp] theorem release_upad (y : Byte) (k : Nat) (s : State) : (release y k s).un.upad = s.un.upad := foldl_keeps _ (·.un.upad) (by simp) _ _
@[simp] theorem release_udst (y : Byte) (k : Nat) (s : State) : (release y k s).un.udst = s.un.udst := foldl_keeps _ (·.un.udst) (by simp) _ _
@[simp] theorem release_uholdv (y : Byte) (k : Nat) (s : State) : (release y k s).un.uholdv = s.un.uholdv := foldl_keeps _ (·.un.uholdv) (by simp) _ _
@[simp] theorem release_uhold (y : Byte) (k : Nat) (s : State) : (release y k s).un.uhold = s.un.uhold := foldl_keeps _ (·.un.uhold) (by simp) _ _
@[simp] theorem release_ubytecnt (y : Byte) (k : Nat) (s : State) : (release y k s).un.ubytecnt = s.un.ubytecnt := foldl_keeps _ (·.un.ubytecnt) (by simp) _ _

/-- `Release(y, k)` of an unrouted session (R162). -/
theorem release_unrouted (y : Byte) (k : Nat) (s : State) (h : s.un.udst = .bitOut) (hk : k ≤ 8) :
    release y k s = (s.setUn { s.un with ubitcnt := s.un.ubitcnt + BitVec.ofNat 32 k }).setOut
      { s.out with bitOut := s.out.bitOut ++ (bin8 y).take k } := by
  rw [release, releaseBits_bitOut _ _ h, List.length_take, bin8_length, Nat.min_eq_left hk]

/-- `Release(y, k)` of a routed session (R162). -/
theorem release_routed (y : Byte) (k : Nat) (s : State) (h : s.un.udst = .decoder) (hk : k ≤ 8) :
    release y k s = decodeBits ((bin8 y).take k)
      (s.setUn { s.un with ubitcnt := s.un.ubitcnt + BitVec.ofNat 32 k }) := by
  rw [release, releaseBits_decoder _ _ h, List.length_take, bin8_length, Nat.min_eq_left hk]

end Sys2Proof.Machine
end

