-- ==== Sys2Proof/Laws/Exec.lean ====
section
/-! SUPPORT. What executing a command can do, said once: the checks and the effect of each command, and the three ways `exec` can
answer. Later proofs take `exec` apart through `exec_cases` and never unfold the sixteen meanings together. -/
namespace Sys2Proof.Machine

/-- The checks of a command in their order, after those its word has passed (R239). -/
def checksOf (i : Instr) (s : State) : List (Bool × Cause) :=
  match i with
  | .nop | .srst | .rdsr _ => []
  | .pstart => [(s.pk.pact, .seq)]
  | .pbits n _ => [(!groupCountOk n, .badOperand), (!s.pk.pact, .seq)]
  | .pend => [(!s.pk.pact, .seq)]
  | .encs sym => [(!s.pk.pact, .seq), ((s.tab.lookupSym sym).isNone, .noSymbol)]
  | .ustart _ dst => [(s.un.uact, .seq), (dst == .decoder && !s.de.dact, .seq)]
  | .ubyte _ => [(!s.un.uact, .seq)]
  | .uend => [(!s.un.uact, .seq), (!s.un.uholdv && s.un.upad != 0, .pad)]
  | .dstart => [(s.de.dact, .seq)]
  | .dbits n _ => [(!groupCountOk n, .badOperand), (!s.de.dact, .seq), (s.un.routed, .seq)]
  | .dend => [(!s.de.dact, .seq), (s.un.routed, .seq), (s.ctl.strict && s.de.dclen != 0, .trailFrag)]
  | .tclr => [(s.tableLocked, .seq)]
  | .tld sym len code => tldChecks sym len code s
  | .wrsr r v => [(!writeOk r v, .illegalCmd)]

/-- The effect of a command whose checks pass. -/
def effectOf (i : Instr) (s : State) : State :=
  match i with
  | .nop => s
  | .srst => softReset s
  | .pstart => startPack s
  | .pbits n v => packBits (str n.toNat v) s
  | .pend => endPack s
  | .encs sym => packBits (encodedBits s.tab sym) s
  | .ustart pad dst => startUnpack pad dst s
  | .ubyte b => holdByte b (flushHold s)
  | .uend => closeUnpack (flushLast s)
  | .dstart => startDecode s
  | .dbits n v => decodeBits (str n.toNat v) s
  | .dend => endDecode s
  | .tclr => s.setTab .cleared
  | .tld sym len code => s.setTab (s.tab.append { sym := sym, len := len, code := maskCode len code })
  | .rdsr r => s.emitResp (regRead r s)
  | .wrsr r v => writeReg r v s

/-- The bits a command gives to the decoder (R162, R184). -/
def decoderBits (i : Instr) (s : State) : Bits :=
  match i with
  | .dbits n v => str n.toNat v
  | .ubyte _ => s.routedBits 8
  | .uend => s.routedBits (8 - s.un.upad.toNat)
  | .nop | .srst | .pstart | .pbits _ _ | .pend | .encs _ | .ustart _ _ | .dstart | .dend | .tclr | .tld _ _ _
  | .rdsr _ | .wrsr _ _ => []

/-- `exec` is the front end around a command's checks and effect; three commands run without it (R238). -/
theorem exec_eq (i : Instr) (s : State) :
    exec i s = if runsFaulted i then .next (effectOf i s)
      else guardedDecode i (checksOf i s) (decoderBits i s) (effectOf i) s := by
  have h : ∀ i : Instr, decoderBits i s = [] → guardedDecode i (checksOf i s) (decoderBits i s) (effectOf i) s =
      guarded i (checksOf i s) (effectOf i) s := fun i hi => by rw [hi, guardedDecode_nil]
  cases i <;> first | rfl | (rw [h] <;> rfl)

/-- A command stops exactly where it would decode by a table that is not prefix-free (R126). -/
theorem exec_stops (i : Instr) (s : State) (r : Fault) (h : exec i s = .fault r) :
    runsFaulted i = false ∧ s.faulted = false ∧ firstFault (checksOf i s) = none
      ∧ s.decodeUndefined (decoderBits i s) = true := by
  rw [exec_eq] at h
  cases hr : runsFaulted i
  · rw [hr] at h
    rcases guardedDecode_cases i (checksOf i s) (decoderBits i s) (effectOf i) s with ⟨hf, hc, hd, _⟩ | ⟨_, hg⟩
    · exact ⟨rfl, hf, hc, hd⟩
    · simp [hg, guarded] at h
  · simp [hr] at h

/-- A command that does not decode, or decodes by a prefix-free table, has the front end of any command. -/
theorem exec_defined (i : Instr) (s : State) (hd : s.decodeUndefined (decoderBits i s) = false) :
    exec i s = if runsFaulted i then .next (effectOf i s) else guarded i (checksOf i s) (effectOf i) s := by
  rw [exec_eq]
  rcases guardedDecode_cases i (checksOf i s) (decoderBits i s) (effectOf i) s with ⟨_, _, h, _⟩ | ⟨_, hg⟩
  · simp [hd] at h
  · rw [hg]

/-- A faulted block discards every command that does not run faulted (R238). -/
theorem exec_faulted (i : Instr) (s : State) (hf : s.faulted = true) (hr : runsFaulted i = false) :
    exec i s = .next s := by
  rw [exec_eq, hr]
  rcases guardedDecode_cases i (checksOf i s) (decoderBits i s) (effectOf i) s with ⟨h, _⟩ | ⟨_, hg⟩
  · simp [hf] at h
  · rw [hg]; exact guarded_faulted _ _ _ _ hf

/-- No command is refused. -/
theorem exec_not_refused (i : Instr) (s : State) (r : Refusal) : exec i s ≠ .refused r := by
  rw [exec_eq]
  rcases guardedDecode_cases i (checksOf i s) (decoderBits i s) (effectOf i) s with ⟨_, _, _, hg⟩ | ⟨_, hg⟩ <;>
    rw [hg] <;> split <;> simp [guarded]

/-- The three ways a command can be answered (R238): discarded, refused with a fault, or done. -/
theorem exec_cases (i : Instr) (s t : State) (h : exec i s = .next t) :
    (s.faulted = true ∧ runsFaulted i = false ∧ t = s)
      ∨ (s.faulted = false ∧ runsFaulted i = false ∧
          ∃ c, firstFault (checksOf i s) = some c ∧ t = enterFault c (encode i) s)
      ∨ ((runsFaulted i = true ∨ s.faulted = false) ∧ firstFault (checksOf i s) = none ∧ t = effectOf i s) := by
  rw [exec_eq] at h
  cases hr : runsFaulted i
  · rw [hr] at h
    simp only [Bool.false_eq_true, if_false] at h
    rcases guardedDecode_cases i (checksOf i s) (decoderBits i s) (effectOf i) s with ⟨_, _, _, hg⟩ | ⟨_, hg⟩ <;>
      rw [hg] at h
    · cases h
    rcases guarded_cases i (checksOf i s) (effectOf i) s with ⟨hf, hg⟩ | ⟨hf, c, hc, hg⟩ | ⟨hf, hc, hg⟩ <;>
      rw [hg] at h <;> cases h
    · exact .inl ⟨hf, rfl, rfl⟩
    · exact .inr (.inl ⟨hf, rfl, c, hc, rfl⟩)
    · exact .inr (.inr ⟨.inr hf, hc, rfl⟩)
  · rw [hr] at h
    simp only [if_true, Host.Outcome.next.injEq] at h
    refine .inr (.inr ⟨.inl rfl, ?_, h.symm⟩)
    cases i <;> first | rfl | simp [runsFaulted, Instr.op] at hr

/-- Every command answers a next state where it does not decode by a malformed table (R280, R126). -/
theorem exec_answers (i : Instr) (s : State) (hd : s.decodeUndefined (decoderBits i s) = false) :
    ∃ t, exec i s = .next t := by
  rw [exec_defined i s hd]
  split
  · exact ⟨_, rfl⟩
  · exact ⟨_, rfl⟩

/-- A command whose checks pass, in an unfaulted block, has its effect. -/
theorem exec_ok (i : Instr) (s : State) (hf : s.faulted = false) (hc : firstFault (checksOf i s) = none)
    (hd : s.decodeUndefined (decoderBits i s) = false) : exec i s = .next (effectOf i s) := by
  rw [exec_defined i s hd]
  split
  · rfl
  · exact guarded_ok _ _ _ _ hf hc

/-- A command with a failing check, in an unfaulted block, is refused with its cause. -/
theorem exec_fault (i : Instr) (s : State) (c : Cause) (hf : s.faulted = false)
    (hc : firstFault (checksOf i s) = some c) : exec i s = .next (enterFault c (encode i) s) := by
  rw [exec_eq, if_neg]
  · rcases guardedDecode_cases i (checksOf i s) (decoderBits i s) (effectOf i) s with ⟨_, h, _⟩ | ⟨_, hg⟩
    · simp [hc] at h
    · rw [hg]; exact guarded_fault _ _ _ _ _ hf hc
  · intro hr
    cases i <;> first | (simp [runsFaulted, Instr.op] at hr; done) | (simp [checksOf, firstFault] at hc)

/-- No effect but the software reset writes the fault record (R26). -/
theorem effectOf_flt (i : Instr) (s : State) (h : i ≠ .srst) : (effectOf i s).flt = s.flt := by
  cases i with
  | srst => exact absurd rfl h
  | pend =>
    show (endPack s).flt = _
    unfold endPack; split <;> rfl
  | ubyte b =>
    show (flushHold s).flt = _
    unfold flushHold; split <;> simp
  | uend =>
    show (flushLast s).flt = _
    unfold flushLast; split <;> simp
  | wrsr r v => cases r <;> rfl
  | pbits n v => exact packBits_flt _ _
  | encs sym => exact packBits_flt _ _
  | dbits n v => exact decodeBits_flt _ _
  | _ => rfl

/-- No effect writes the parameter, nor the pending inputs. -/
theorem effectOf_cfg_inputs (i : Instr) (s : State) :
    (effectOf i s).cfg = s.cfg ∧ (effectOf i s).inputs = s.inputs := by
  cases i with
  | pend =>
    show (endPack s).cfg = _ ∧ (endPack s).inputs = _
    unfold endPack; split <;> exact ⟨rfl, rfl⟩
  | ubyte b =>
    show (flushHold s).cfg = _ ∧ (flushHold s).inputs = _
    unfold flushHold; split <;> simp
  | uend =>
    show (flushLast s).cfg = _ ∧ (flushLast s).inputs = _
    unfold flushLast; split <;> simp
  | wrsr r v => cases r <;> exact ⟨rfl, rfl⟩
  | pbits n v => exact ⟨packBits_cfg _ _, packBits_inputs _ _⟩
  | encs sym => exact ⟨packBits_cfg _ _, packBits_inputs _ _⟩
  | dbits n v => exact ⟨decodeBits_cfg _ _, decodeBits_inputs _ _⟩
  | _ => exact ⟨rfl, rfl⟩

/-- The entries of a state that meets the invariant are codes of 1 to 32 bits held canonically (R51 (c), (d)). -/
theorem State.Inv.codesOk {s : State} (h : s.Inv) : s.tab.CodesOk := fun e he =>
  ⟨(h.codeLengths e he).1, (h.codeLengths e he).2, h.codesCanonical e he⟩

/-- The table of a state that meets the invariant has the properties of R125 and decoding by it is defined (R51, R126). -/
theorem State.Inv.legal {s : State} (h : s.Inv) : s.tab.toMap.Legal :=
  s.tab.toMap_legal h.codesOk h.oneCodePerSymbol h.prefixFree

theorem State.Inv.decodeDefined {s : State} (h : s.Inv) (bits : Bits) : s.decodeUndefined bits = false :=
  decodeUndefined_prefixFree s bits (s.tab.prefixFree_iff.mpr h.prefixFree)

/-- What the next input is, and what is left when it is taken. -/
theorem nextInput_cases (s : State) :
    (s.inputs = [] ∧ nextInput s = none)
      ∨ (∃ rest, s.inputs = .hwReset :: rest ∧ nextInput s = some (.hwReset, s.setInputs rest))
      ∨ (∃ cw rest, s.inputs = .command cw :: rest ∧ nextInput s = some (.command cw, s.setInputs rest)) := by
  unfold nextInput
  rcases s.inputs with _ | ⟨_ | _, rest⟩
  · exact .inl ⟨rfl, rfl⟩
  · exact .inr (.inr ⟨_, rest, rfl, rfl⟩)
  · exact .inr (.inl ⟨rest, rfl, rfl⟩)

/-- The four ways a step can go (R8, R238, R260): wait, hardware reset, execute a command, or refuse a word. -/
theorem step_cases (s t : State) (h : step s = .next t) :
    (s.inputs = [] ∧ t = s)
      ∨ (∃ rest, s.inputs = .hwReset :: rest ∧ t = hardReset (s.setInputs rest))
      ∨ (∃ cw rest i, s.inputs = .command cw :: rest ∧ decode cw = .ok i ∧ exec i (s.setInputs rest) = .next t)
      ∨ (∃ cw rest e, s.inputs = .command cw :: rest ∧ decode cw = .error e
          ∧ t = raiseFault (causeOf e) cw (s.setInputs rest)) := by
  unfold step at h
  rcases nextInput_cases s with ⟨hi, hn⟩ | ⟨rest, hi, hn⟩ | ⟨cw, rest, hi, hn⟩ <;> rw [hn] at h <;> dsimp only at h
  · cases h; exact .inl ⟨hi, rfl⟩
  · cases h; exact .inr (.inl ⟨rest, hi, rfl⟩)
  · unfold stepWord at h
    cases hd : decode cw with
    | ok i => rw [hd] at h; exact .inr (.inr (.inl ⟨cw, rest, i, hi, hd, h⟩))
    | error e => rw [hd] at h; cases h; exact .inr (.inr (.inr ⟨cw, rest, e, hi, hd, rfl⟩))

/-! ## Faults along a run -/

/-- A check of a command whose checks all pass, passes. -/
theorem check_passed (i : Instr) (s : State) (h : firstFault (checksOf i s) = none) (p : Bool × Cause)
    (hp : p ∈ checksOf i s) : p.1 = false := (firstFault_none _).mp h p hp

/-- The effect of a command faults no block that is unfaulted (R237). -/
theorem effectOf_unfaulted (i : Instr) (s : State) (hf : s.faulted = false) : (effectOf i s).faulted = false := by
  by_cases h : i = .srst
  · subst h; rfl
  · rw [← hf]; exact faulted_congr _ _ (effectOf_flt i s h)

/-- Only `SRST` leaves the faulted state (R240). -/
theorem exec_keeps_faulted (i : Instr) (s t : State) (h : exec i s = .next t) (hi : i ≠ .srst)
    (hf : s.faulted = true) : t.faulted = true := by
  rcases exec_cases i s t h with ⟨_, _, rfl⟩ | ⟨hf', _⟩ | ⟨_, _, rfl⟩
  · exact hf
  · simp [hf] at hf'
  · rw [← hf]; exact faulted_congr _ _ (effectOf_flt i s hi)

/-- A run that answers a next state goes on from the next state its first command answers. -/
theorem runInstrs_cons (i : Instr) (is : List Instr) (s t : State) (h : runInstrs (i :: is) s = .next t) :
    ∃ u, exec i s = .next u ∧ runInstrs is u = .next t := by
  cases hu : exec i s with
  | next u => exact ⟨u, rfl, by simpa only [runInstrs, hu] using h⟩
  | fault r => simp [runInstrs, hu] at h
  | refused r => simp [runInstrs, hu] at h

/-- A run of two lists of commands is the run of the one and then of the other. -/
theorem runInstrs_append (a b : List Instr) (s t : State) (h : runInstrs a s = .next t) :
    runInstrs (a ++ b) s = runInstrs b t := by
  induction a generalizing s with
  | nil => cases h; rfl
  | cons i a ih =>
    obtain ⟨u, hu, h⟩ := runInstrs_cons i a s t h
    simp only [List.cons_append, runInstrs, hu]
    exact ih u h

/-- A run without `SRST` from a faulted block ends faulted (R240). -/
theorem runInstrs_keeps_faulted (is : List Instr) (s t : State) (h : runInstrs is s = .next t)
    (hi : ∀ i ∈ is, i ≠ .srst) (hf : s.faulted = true) : t.faulted = true := by
  induction is generalizing s with
  | nil => cases h; exact hf
  | cons i is ih =>
    obtain ⟨u, hu, h⟩ := runInstrs_cons i is s t h
    exact ih u h (fun j hj => hi j (by simp [hj])) (exec_keeps_faulted _ _ _ hu (hi i (by simp)) hf)

/-- In a run without `SRST` that ends unfaulted, every command passes its checks and has its effect. -/
theorem runInstrs_cons_unfaulted (i : Instr) (is : List Instr) (s u : State)
    (h : runInstrs (i :: is) s = .next u) (hs : s.faulted = false) (hu : u.faulted = false)
    (his : ∀ j ∈ is, j ≠ .srst) :
    firstFault (checksOf i s) = none ∧ (effectOf i s).faulted = false ∧ runInstrs is (effectOf i s) = .next u := by
  obtain ⟨v, hv, h⟩ := runInstrs_cons i is s u h
  have hvf : v.faulted = false := by
    cases hh : v.faulted
    · rfl
    · have := runInstrs_keeps_faulted _ _ _ h his hh
      simp [hu] at this
  rcases exec_cases i s v hv with ⟨h1, _⟩ | ⟨_, _, c, _, rfl⟩ | ⟨_, hc, rfl⟩
  · simp [hs] at h1
  · simp [enterFault_faulted] at hvf
  · exact ⟨hc, hvf, h⟩

end Sys2Proof.Machine
end

