-- ==== Sys2Proof/Laws/PerInstr.lean ====
section
/-! SUPPORT. Statements about every command as syntax, one lemma per constructor. -/
namespace Sys2Proof.Laws.WordLayout

/-- The word of a command carries its opcode, has every reserved bit 0, and holds its operands in their fields. -/
def Statement (i : Instr) : Prop :=
  opField (encode i) = i.op.code ∧ reservedClear i.op (encode i) = true ∧ withOperands i.op (encode i) = some i

theorem nop : Statement .nop := ⟨rfl, rfl, rfl⟩
theorem srst : Statement .srst := ⟨rfl, rfl, rfl⟩
theorem pstart : Statement .pstart := ⟨rfl, rfl, rfl⟩

theorem pbits (n : BitVec 6) (v : Word) : Statement (.pbits n v) := by
  obtain ⟨ho, hr, hn, hs, hv⟩ := formatB_fields Op.pbits.code n v
  exact ⟨ho, by simp [reservedClear, Instr.op, encode, hr, hs], by simp [withOperands, Instr.op, encode, hn, hv]⟩

theorem pend : Statement .pend := ⟨rfl, rfl, rfl⟩

theorem encs (sym : Sym21) : Statement (.encs sym) := by
  obtain ⟨ho, hr, hs, hv⟩ := formatS_fields Op.encs.code sym
  exact ⟨ho, by simp [reservedClear, Instr.op, encode, hr, hv], by simp [withOperands, Instr.op, encode, hs]⟩

theorem ustart (pad : BitVec 3) (dst : Dest) : Statement (.ustart pad dst) := by
  obtain ⟨ho, hr, hd, hs, hp⟩ := formatU_fields Op.ustart.code dst.bit pad
  exact ⟨ho, by simp [reservedClear, Instr.op, encode, hr, hs], by simp [withOperands, Instr.op, encode, hd, hp]⟩

theorem ubyte (b : Byte) : Statement (.ubyte b) := by
  obtain ⟨ho, hr, hb⟩ := formatY_fields Op.ubyte.code b
  exact ⟨ho, by simp [reservedClear, Instr.op, encode, hr], by simp [withOperands, Instr.op, encode, hb]⟩

theorem uend : Statement .uend := ⟨rfl, rfl, rfl⟩
theorem dstart : Statement .dstart := ⟨rfl, rfl, rfl⟩

theorem dbits (n : BitVec 6) (v : Word) : Statement (.dbits n v) := by
  obtain ⟨ho, hr, hn, hs, hv⟩ := formatB_fields Op.dbits.code n v
  exact ⟨ho, by simp [reservedClear, Instr.op, encode, hr, hs], by simp [withOperands, Instr.op, encode, hn, hv]⟩

theorem dend : Statement .dend := ⟨rfl, rfl, rfl⟩
theorem tclr : Statement .tclr := ⟨rfl, rfl, rfl⟩

theorem tld (sym : Sym21) (len : BitVec 6) (code : Word) : Statement (.tld sym len code) := by
  obtain ⟨ho, hr, hn, hs, hv⟩ := formatT_fields Op.tld.code len sym code
  exact ⟨ho, by simp [reservedClear, Instr.op, encode, hr],
    by simp [withOperands, Instr.op, encode, hn, hs, hv]⟩

theorem rdsr (r : Reg) : Statement (.rdsr r) := by cases r <;> exact ⟨rfl, rfl, rfl⟩

theorem wrsr (r : Reg) (v : Word) : Statement (.wrsr r v) := by
  obtain ⟨ho, hr, hn, hv⟩ := formatR_fields Op.wrsr.code r.number v
  exact ⟨ho, by simp [reservedClear, Instr.op, encode, hr], by simp [withOperands, Instr.op, encode, hn, hv]⟩

end Sys2Proof.Laws.WordLayout

namespace Sys2Proof.Laws.WordLayout

/-- The layout statement for every command, case by case. -/
theorem of_every_instr (i : Instr) : Statement i :=
  match i with
  | .nop => nop
  | .srst => srst
  | .pstart => pstart
  | .pbits n v => pbits n v
  | .pend => pend
  | .encs sym => encs sym
  | .ustart pad dst => ustart pad dst
  | .ubyte b => ubyte b
  | .uend => uend
  | .dstart => dstart
  | .dbits n v => dbits n v
  | .dend => dend
  | .tclr => tclr
  | .tld sym len code => tld sym len code
  | .rdsr r => rdsr r
  | .wrsr r v => wrsr r v

end Sys2Proof.Laws.WordLayout
end

