-- ==== Sys2Proof/Tests/Slice0.lean ====
section
/-! SUPPORT. Tests on fixed values, expected results from the spec's examples and formats; and, for every obligation with hypotheses,
a state and operands that meet them, each clause at a boundary of its range. -/
namespace Sys2Proof.Tests
open Sys2Proof Sys2Proof.Machine

/-! ## Small states -/

/-- The state after an outcome; a command always answers a next state. -/
def after (r : Result) : State :=
  match r with
  | .next t => t
  | .fault _ => State.reset
  | .refused _ => State.reset

/-- The table of R181's example: `'c' ↦ "0"`, `'a' ↦ "10"`, `'b' ↦ "11"`. -/
def table3 : CodeTable :=
  { tcount := 3, mem := [(0, { sym := 0x63, len := 1, code := 0 }), (1, { sym := 0x61, len := 2, code := 2 }),
                         (2, { sym := 0x62, len := 2, code := 3 })] }

/-- The table of R202's example: `'c' ↦ "0"`. -/
def table1 : CodeTable := { tcount := 1, mem := [(0, { sym := 0x63, len := 1, code := 0 })] }

/-- A state with a table and every unit idle. -/
def withTable (t : CodeTable) : State := { State.reset with tab := t }

/-- In a pack session that holds the three bits `101` (R143's example). -/
def packing : State := { withTable table3 with pk := { Packer.reset with pact := true, pacc := 5, pcnt := 3, pbitcnt := 3 } }

/-- In a pack session that holds no bit. -/
def packingEmpty : State := { withTable table3 with pk := { Packer.reset with pact := true } }

/-- In an unrouted unpack session with padding count 3 that holds the byte `0xA5` (R164's example). -/
def unpacking : State :=
  { State.reset with un := { Unpacker.reset with uact := true, upad := 3, uholdv := true, uhold := 0xA5, ubytecnt := 1 } }

/-- In an unrouted unpack session with padding count 3 and no byte yet. -/
def unpackingEmpty : State := { State.reset with un := { Unpacker.reset with uact := true, upad := 3 } }

/-- In a decode session with the table of R181's example. -/
def decoding : State := { withTable table3 with de := { Decoder.reset with dact := true } }

/-- In a decode session with the fragment `1`. -/
def fragment : State :=
  { withTable table3 with de := { Decoder.reset with dact := true, dcand := 1, dclen := 1, dbitcnt := 1 } }

/-- In a routed unpack session of a decode session, the byte `0xA5` held. -/
def routed : State :=
  { decoding with un := { Unpacker.reset with uact := true, upad := 3, udst := .decoder, uholdv := true, uhold := 0xA5
                                              ubytecnt := 1 } }

/-- A table that no run reaches: `'a' ↦ "0"`, `'b' ↦ "00"`. -/
def malformed : CodeTable :=
  { tcount := 2, mem := [(0, { sym := 0x61, len := 1, code := 0 }), (1, { sym := 0x62, len := 2, code := 0 })] }

/-- A block that has recorded the fault `SEQ`, its interrupt enabled. -/
def faulted : State := { State.reset with ctl := { Control.reset with fie := true }, flt := { fcause := 3, fcmd := 0x4000000000000000 } }

/-- A state with one word presented. -/
def presented (s : State) (cw : CmdWord) : State := { s with inputs := [.command cw] }

/-! ## Well-formedness refuses the ill-formed terms (R92, R94, R100) -/

theorem test_wf_refuses_pbits_33 : (Instr.pbits 33 0).wf = false := by decide
theorem test_wf_refuses_dbits_63 : (Instr.dbits 63 0).wf = false := by decide
theorem test_wf_refuses_tld_empty_code : (Instr.tld 0x61 0 0).wf = false := by decide
theorem test_wf_refuses_tld_33 : (Instr.tld 0x61 33 0).wf = false := by decide
theorem test_wf_refuses_read_only : (Instr.wrsr .status 0).wf = false := by decide
theorem test_wf_refuses_ctrl_reserved : (Instr.wrsr .ctrl 4).wf = false := by decide
theorem test_wf_admits_the_bounds : (Instr.pbits 32 0).wf && (Instr.tld 0 1 0).wf && (Instr.tld 0 32 0).wf
    && (Instr.wrsr .ctrl 3).wf && (Instr.wrsr .tidx 0xFFFFFFFF).wf = true := by decide

/-! ## Decoding: one word per command, written out from its format (R91 to R98) -/

theorem test_decode_nop : decode 0x0000000000000000 = .ok .nop := by decide
theorem test_decode_srst : decode 0x1000000000000000 = .ok .srst := by decide
theorem test_decode_pstart : decode 0x2000000000000000 = .ok .pstart := by decide
theorem test_decode_pbits : decode 0x3060000000000005 = .ok (.pbits 3 5) := by decide
theorem test_decode_pend : decode 0x4000000000000000 = .ok .pend := by decide
theorem test_decode_encs : decode 0x5000006100000000 = .ok (.encs 0x61) := by decide
theorem test_decode_ustart : decode 0x6000000000000102 = .ok (.ustart 2 .decoder) := by decide
theorem test_decode_ubyte : decode 0x70000000000000A5 = .ok (.ubyte 0xA5) := by decide
theorem test_decode_uend : decode 0x8000000000000000 = .ok .uend := by decide
theorem test_decode_dstart : decode 0x9000000000000000 = .ok .dstart := by decide
theorem test_decode_dbits : decode 0xA08000000000000B = .ok (.dbits 4 0xB) := by decide
theorem test_decode_dend : decode 0xB000000000000000 = .ok .dend := by decide
theorem test_decode_tclr : decode 0xC000000000000000 = .ok .tclr := by decide
theorem test_decode_tld : decode 0xD040006100000002 = .ok (.tld 0x61 2 2) := by decide
theorem test_decode_rdsr : decode 0xE000000600000000 = .ok (.rdsr .padcnt) := by decide
theorem test_decode_wrsr : decode 0xF000000100000001 = .ok (.wrsr .ctrl 1) := by decide
/-- The widest fields: `TLD` with `len = 32`, the largest symbol and every code bit set. -/
theorem test_decode_widest : decode 0xD41FFFFFFFFFFFFF = .ok (.tld 0x1FFFFF 32 0xFFFFFFFF) := by decide
/-- A reserved bit, a register that does not exist, a read-only one, a reserved bit of `CTRL` (R100 (a) to (d)). -/
theorem test_decode_illegal :
    decode 0x0000000000000001 = .error .illegalCmd ∧ decode 0xE000001700000000 = .error .illegalCmd
      ∧ decode 0xF000000000000000 = .error .illegalCmd ∧ decode 0xF000000100000004 = .error .illegalCmd := by decide
/-- A count of 33, a code of 0 and of 33 bits (R100). -/
theorem test_decode_bad_operand :
    decode 0x3420000000000000 = .error .badOperand ∧ decode 0xD000006100000000 = .error .badOperand
      ∧ decode 0xD420006100000000 = .error .badOperand := by decide
/-- Number, mask and match of `PBITS` and `USTART` (R98). -/
theorem test_masks : Op.pbits.matches 0x37E00000FFFFFFFF = true ∧ Op.pbits.matches 0x3800000000000000 = false
    ∧ Op.ustart.matches 0x6000000000000107 = true ∧ Op.ustart.matches 0x6000000000000108 = false := by decide

/-! ## One step of each command, from the examples of its rule -/

theorem test_nop : exec .nop faulted = .next faulted := rfl
/-- R217's example. -/
theorem test_srst : regRead .status faulted = 0x80000100 ∧ regRead .status (after (exec .srst faulted)) = 0
    ∧ (after (exec .srst faulted)).irq = false := by decide
theorem test_pstart : regRead .status (after (exec .pstart State.reset)) = 0x00000001 := by decide
/-- R143's example, from `PSTART`. -/
theorem test_pbits : regRead .pstate (after (exec (.pbits 3 5) packingEmpty)) = 0x305
    ∧ (after (exec (.pbits 3 5) packingEmpty)).out.byteOut = [] := by decide
/-- The byte completed by 5 more bits leaves, the earliest bit highest (R73). -/
theorem test_pbits_byte : (after (exec (.pbits 6 0x01) packing)).out.byteOut = [0xA0]
    ∧ regRead .pstate (after (exec (.pbits 6 0x01) packing)) = 0x101 := by decide
/-- R144's example. -/
theorem test_pend : (after (exec .pend packing)).out.byteOut = [0xA0]
    ∧ regRead .padcnt (after (exec .pend packing)) = 5 ∧ regRead .status (after (exec .pend packing)) = 2 := by decide
/-- R146's example. -/
theorem test_encs : regRead .pstate (after (exec (.encs 0x61) packingEmpty)) = 0x202 := by decide
theorem test_encs_missing : regRead .fcause (after (exec (.encs 0x7A) packingEmpty)) = 4 := by decide
/-- R163's example. -/
theorem test_ustart : regRead .ustate (after (exec (.ustart 2 .decoder) decoding)) = 0x0000000A := by decide
/-- R164's example. -/
theorem test_ubyte : (after (exec (.ubyte 0x3C) unpacking)).out.bitOut = [true, false, true, false, false, true, false, true]
    ∧ regRead .ustate (after (exec (.ubyte 0x3C) unpacking)) = 0x00003C13
    ∧ regRead .ubitcnt (after (exec (.ubyte 0x3C) unpacking)) = 8 := by decide
/-- R165: the last three bits of `0xA5` are dropped. -/
theorem test_uend : (after (exec .uend unpacking)).out.bitOut = [true, false, true, false, false] := by decide
/-- R123: no byte, padding 3. -/
theorem test_uend_pad : regRead .fcause (after (exec .uend unpackingEmpty)) = 8 := by decide
theorem test_dstart : regRead .status (after (exec .dstart State.reset)) = 0x00000010 := by decide
/-- R184's example. -/
theorem test_dbits : (after (exec (.dbits 4 0xB) decoding)).out.symOut = [0x61, 0x62]
    ∧ regRead .dclen (after (exec (.dbits 4 0xB) decoding)) = 0
    ∧ regRead .dsymcnt (after (exec (.dbits 4 0xB) decoding)) = 2 := by decide
/-- R185: the fragment `1` is dropped in permissive mode. -/
theorem test_dend : regRead .status (after (exec .dend fragment)) = 0x00000060 := by decide
theorem test_tclr : regRead .tcount (after (exec .tclr (withTable table3))) = 0
    ∧ regRead .tentsym (after (exec .tclr (withTable table3))) = 0 := by decide
/-- R202's example: `'a' ↦ "10"` into `'c' ↦ "0"`. -/
theorem test_tld : regRead .tcount (after (exec (.tld 0x61 2 2) (withTable table1))) = 2 := by decide
/-- R202's example: `"1"` is a prefix of `"10"`. -/
theorem test_tld_prefix : regRead .fcause (after (exec (.tld 0x78 1 1) (withTable table3))) = 6 := by decide
/-- R41: entry 0 of the table. -/
theorem test_rdsr : (after (exec (.rdsr .tentsym) (withTable table3))).out.respOut = [0x80000063] := by decide
theorem test_wrsr : regRead .ctrl (after (exec (.wrsr .ctrl 1) State.reset)) = 1
    ∧ regRead .fcause (after (exec (.wrsr .ctrl 4) State.reset)) = 1 := by decide
/-- R186's example: the 33rd bit of `0xDEADBEEF 1` with the empty table. -/
theorem test_dead :
    regRead .status (after (exec (.dbits 1 1)
      { State.reset with de := { Decoder.reset with dact := true, dcand := 0xDEADBEEF, dclen := 32 } })) = 0x00000090 := by
  decide
/-- R121, R122: `pack("101") = ([0xA0], 5)` and back. -/
theorem test_reference : refPack [true, false, true] = ([0xA0], 5)
    ∧ refUnpack [0xA0] 5 = some [true, false, true] ∧ refUnpack [] 1 = none := by decide
/-- R126, R122: the table `'a' ↦ "0", 'b' ↦ "00"` is decoded by no function, a padding count of 9 is outside the domain. -/
theorem test_no_value : refDecode [false, false] [(0x61, [false]), (0x62, [false, false])] = none
    ∧ refUnpack [0, 0] 9 = none := by decide
/-- R271's example: `"aaaa"` in one zero byte; the padding taken for data decodes to four symbols more. -/
theorem test_padding_must_go :
    refDecode (List.replicate 4 false) [(0x61, [false])] = some (List.replicate 4 0x61, [])
      ∧ refDecode (List.replicate 8 false) [(0x61, [false])] = some (List.replicate 8 0x61, []) := by decide
/-- A step takes the word presented and runs it; with nothing presented it waits. -/
theorem test_step : step (presented State.reset 0x2000000000000000) = exec .pstart State.reset
    ∧ step State.reset = .next State.reset := ⟨rfl, rfl⟩
theorem test_withFetchWord : step (State.reset.withFetchWord 64 0x9000000000000000) = exec .dstart State.reset
    ∧ decodeTableWord 64 0x9000000000000000 = some .dstart := ⟨rfl, by decide⟩
/-- The assembler (R108, R109), on lines of the spec's programs and examples. -/
theorem test_assemble : assemble "PBITS 3, 0x5 ; a group\nENCS 'a'\n\nTLD 'a', 2, 0b10\nRDSR PADCNT" =
    some [0x3060000000000005, 0x5000006100000000, 0xD040006100000002, 0xE000000600000000] := by decide
theorem test_assemble_pseudo : assemble "PSTR \"101\"\nUSTART 2, 1" = some [0x3060000000000005, 0x6000000000000102]
    ∧ assemble "PBITS 3" = none := by decide

/-! ## Witnesses: the hypotheses of each obligation are met together

Each theorem is named after its obligation; a conjunct stands for a clause, at a boundary of its range. -/

theorem table3_unused (i : Nat) (h : 3 ≤ i) : table3.mem.read i = Entry.zero := by
  simp only [table3, Memory.read]
  rw [if_neg (by omega), if_neg (by omega), if_neg (by omega)]

theorem table1_unused (i : Nat) (h : 1 ≤ i) : table1.mem.read i = Entry.zero := by
  simp only [table1, Memory.read]
  rw [if_neg (by omega)]

theorem reset_inv : State.reset.Inv := by
  constructor
  case unusedZero => exact fun _ _ => rfl
  all_goals decide

theorem withTable1_inv : (withTable table1).Inv := by
  constructor
  case unusedZero => exact table1_unused
  all_goals decide

theorem withTable3_inv : (withTable table3).Inv := by
  constructor
  case unusedZero => exact table3_unused
  all_goals decide

/-- The table of capacity 1, full. -/
def fullTable : State := { withTable table1 with cfg := { ctEntries := 1 } }

theorem fullTable_inv : fullTable.Inv := by
  constructor
  case unusedZero => exact table1_unused
  all_goals decide

theorem packing_inv : packing.Inv := by
  constructor
  case unusedZero => exact table3_unused
  all_goals decide

theorem unpacking_inv : unpacking.Inv := by
  constructor
  case unusedZero => exact fun _ _ => rfl
  all_goals decide

theorem unpackingEmpty_inv : unpackingEmpty.Inv := by
  constructor
  case unusedZero => exact fun _ _ => rfl
  all_goals decide

theorem decoding_inv : decoding.Inv := by
  constructor
  case unusedZero => exact table3_unused
  all_goals decide

theorem routed_inv : routed.Inv := by
  constructor
  case unusedZero => exact table3_unused
  all_goals decide

theorem reset_counters : State.reset.CounterLaw := by constructor <;> decide

theorem witness_DecodeOfEncode : (Instr.pbits 32 0xFFFFFFFF).wf = true ∧ (Instr.tld 0x1FFFFF 1 0).wf = true := by decide

theorem witness_EncodeOfDecode : decode 0x3FE0000000000000 = .error .illegalCmd
    ∧ decode 0x3400000000000000 = .ok (.pbits 32 0) := by decide

theorem witness_MaskAndMatchSelectTheRow :
    (0x3420000000000000 &&& Op.pbits.mask = Op.pbits.matchWord ∧ decode 0x3420000000000000 = .error .badOperand)
      ∧ (0xE000001700000000 &&& Op.rdsr.mask = Op.rdsr.matchWord ∧ decode 0xE000001700000000 = .error .illegalCmd)
      ∧ (0x3400000000000000 &&& Op.pbits.mask = Op.pbits.matchWord ∧ decode 0x3400000000000000 = .ok (.pbits 32 0))
      ∧ Op.nop.matches 1 = false ∧ Op.tld.matches 1 = false := by decide

theorem witness_MaskAndMatch_no_row (op : Op) : (1 : CmdWord) &&& op.mask ≠ op.matchWord := by cases op <;> decide

theorem witness_BadWordsAreTheListedOnes :
    ((presented State.reset 1).inputs = .command 1 :: [] ∧ State.reset.faulted = false ∧ decode 1 = .error .illegalCmd)
      ∧ decode 0xD420006100000000 = .error .badOperand := by decide

theorem witness_PseudoInstructionsExpand : (List.replicate 32 true).length ≤ 32 ∧ 32 < (List.replicate 33 true).length
    ∧ List.replicate 32 true ≠ [] := by decide

theorem witness_StepRunsTheDecodedCommand :
    (presented State.reset 0x3400000000000000).inputs = .command 0x3400000000000000 :: []
      ∧ decode 0x3400000000000000 = .ok (.pbits 32 0) := by decide

theorem witness_EveryWordPassesTheFrontEnd :
    (presented faulted 0xE000000300000000).faulted = true ∧ decode 0xE000000300000000 = .ok (.rdsr .fcause)
      ∧ decode 0x2000000000000000 = .ok .pstart ∧ (Instr.pstart.op = .nop ∨ Instr.pstart.op = .srst ∨ Instr.pstart.op = .rdsr) = False
      ∧ decode 1 = .error .illegalCmd ∧ State.reset.faulted = false ∧ decode 0x3420000000000000 = .error .badOperand
      ∧ ∃ t, step (presented State.reset 0x3400000000000000) = .next t ∧ t.faulted = true := by
  refine ⟨rfl, by decide, by decide, ?_, by decide, rfl, by decide, _, rfl, rfl⟩
  simp [Instr.op]

theorem witness_HardwareResetAndWaiting : ({ packing with inputs := [.hwReset] } : State).inputs = .hwReset :: []
    ∧ State.reset.inputs = [] := by decide

theorem witness_FaultIsPrecise :
    (presented packing 0x2000000000000000).faulted = false
      ∧ ∃ t, step (presented packing 0x2000000000000000) = .next t ∧ t.faulted = true := ⟨rfl, _, rfl, rfl⟩

theorem witness_FaultedBlockDiscards : faulted.faulted = true ∧ runsFaulted .pstart = false := by decide

theorem witness_FirstFaultIsKept :
    faulted.faulted = true ∧ (0x0000000000000001 : CmdWord) ≠ 0x1000000000000000
      ∧ ∃ t, step (presented faulted 0x0000000000000001) = .next t := ⟨rfl, by decide, _, rfl⟩

theorem witness_EveryStepAnswersANextState : packing.Inv ∧ step packing = .next packing
    ∧ step (presented { decoding with tab := malformed } 0xA020000000000000) = .fault .malformedTable :=
  ⟨packing_inv, rfl, rfl⟩

theorem witness_StreamRunsInOrder : (∀ i ∈ [Instr.pstart, .pbits 32 7, .pend], i.wf = true) ∧ State.reset.Inv :=
  ⟨by decide, reset_inv⟩

theorem witness_PstartBeginsASession :
    (opField 0x2000000000000001 = 0x2 ∧ (0x2000000000000001 : CmdWord).extractLsb' 0 60 ≠ 0)
      ∧ (packing.faulted = false ∧ packing.pk.pact = true)
      ∧ (State.reset.faulted = false ∧ State.reset.pk.pact = false) := by decide

theorem witness_PbitsPacksTheGroup :
    (opField 0x3800000000000000 = 0x3 ∧ (0x3800000000000000 : CmdWord).extractLsb' 59 1 ≠ 0)
      ∧ (State.reset.faulted = false ∧ 32 < (33 : BitVec 6).toNat)
      ∧ ((32 : BitVec 6).toNat ≤ 32 ∧ State.reset.pk.pact = false)
      ∧ (packing.faulted = false ∧ packing.pk.pact = true ∧ packing.pk.pacc.toNat < 2 ^ packing.pk.pcnt.toNat)
      ∧ (32 : BitVec 6).toNat ≤ (32 : BitVec 6).toNat := by decide

theorem witness_PendPadsTheLastByte :
    (opField 0x4000000000000001 = 0x4 ∧ (0x4000000000000001 : CmdWord).extractLsb' 0 60 ≠ 0)
      ∧ (State.reset.faulted = false ∧ State.reset.pk.pact = false)
      ∧ (packing.faulted = false ∧ packing.pk.pact = true ∧ packing.pk.pcnt ≠ 0)
      ∧ (packingEmpty.faulted = false ∧ packingEmpty.pk.pact = true ∧ packingEmpty.pk.pcnt = 0) := by decide

theorem witness_EncsPacksTheCode :
    (opField 0x5000000000000001 = 0x5 ∧ (0x5000000000000001 : CmdWord).extractLsb' 0 32 ≠ 0)
      ∧ (State.reset.Inv ∧ State.reset.faulted = false ∧ State.reset.pk.pact = false)
      ∧ (packing.Inv ∧ packing.faulted = false ∧ packing.pk.pact = true)
      ∧ (∀ e ∈ packing.tab.entries, e.sym ≠ 0x7A) ∧ { sym := 0x61, len := 2, code := 2 } ∈ packing.tab.entries :=
  ⟨by decide, ⟨reset_inv, rfl, rfl⟩, ⟨packing_inv, rfl, rfl⟩, by decide, by decide⟩

theorem witness_PackFrame : isPackCmd (.pbits 32 1) = true ∧ (∃ t, exec (.pbits 32 1) packing = .next t)
    ∧ isPackCmd .pend = true ∧ isPackCmd .pstart = true ∧ isPackCmd (.encs 0x61) = true :=
  ⟨rfl, ⟨_, rfl⟩, rfl, rfl, rfl⟩

theorem witness_UstartBeginsASession :
    (opField 0x6000000000000200 = 0x6 ∧ (0x6000000000000200 : CmdWord).extractLsb' 9 51 ≠ 0)
      ∧ (unpacking.faulted = false ∧ unpacking.un.uact = true)
      ∧ (State.reset.faulted = false ∧ State.reset.un.uact = false ∧ State.reset.de.dact = false)
      ∧ (decoding.faulted = false ∧ decoding.un.uact = false ∧ decoding.de.dact = true) := by decide

theorem witness_UbyteReleasesTheHeldByte :
    (opField 0x7000000000000100 = 0x7 ∧ (0x7000000000000100 : CmdWord).extractLsb' 8 52 ≠ 0)
      ∧ (State.reset.Inv ∧ State.reset.faulted = false ∧ State.reset.un.uact = false)
      ∧ (unpacking.Inv ∧ unpacking.faulted = false ∧ unpacking.un.uact = true ∧ unpacking.un.udst = .bitOut)
      ∧ (routed.Inv ∧ routed.faulted = false ∧ routed.un.uact = true ∧ routed.un.udst = .decoder) :=
  ⟨by decide, ⟨reset_inv, rfl, rfl⟩, ⟨unpacking_inv, rfl, rfl, rfl⟩, ⟨routed_inv, rfl, rfl, rfl⟩⟩

theorem witness_UendDropsThePadding :
    (opField 0x8000000000000001 = 0x8 ∧ (0x8000000000000001 : CmdWord).extractLsb' 0 60 ≠ 0)
      ∧ (State.reset.Inv ∧ State.reset.faulted = false ∧ State.reset.un.uact = false)
      ∧ (unpackingEmpty.Inv ∧ unpackingEmpty.un.uact = true ∧ unpackingEmpty.un.uholdv = false ∧ unpackingEmpty.un.upad ≠ 0)
      ∧ (unpacking.Inv ∧ unpacking.un.uact = true ∧ unpacking.un.uholdv = true ∧ unpacking.un.udst = .bitOut)
      ∧ (routed.Inv ∧ routed.un.uact = true ∧ routed.un.uholdv = true ∧ routed.un.udst = .decoder) :=
  ⟨by decide, ⟨reset_inv, rfl, rfl⟩, ⟨unpackingEmpty_inv, by decide⟩, ⟨unpacking_inv, by decide⟩, ⟨routed_inv, by decide⟩⟩

theorem witness_UnpackFrame : isUnpackCmd (.ubyte 1) = true ∧ (∃ t, exec (.ubyte 1) routed = .next t)
    ∧ isUnpackCmd .uend = true ∧ isUnpackCmd (.ustart 7 .decoder) = true ∧ routed.un.udst = .decoder
    ∧ unpacking.un.udst = .bitOut := ⟨rfl, ⟨_, rfl⟩, rfl, rfl, rfl, rfl⟩

theorem witness_DstartBeginsASession :
    (opField 0x9000000000000001 = 0x9 ∧ (0x9000000000000001 : CmdWord).extractLsb' 0 60 ≠ 0)
      ∧ (decoding.faulted = false ∧ decoding.de.dact = true)
      ∧ (State.reset.faulted = false ∧ State.reset.de.dact = false) := by decide

theorem witness_DbitsDecodesTheGroup :
    (opField 0xA000000100000000 = 0xA ∧ (0xA000000100000000 : CmdWord).extractLsb' 32 21 ≠ 0)
      ∧ 32 < (33 : BitVec 6).toNat ∧ (State.reset.Inv ∧ State.reset.faulted = false ∧ State.reset.de.dact = false)
      ∧ (routed.Inv ∧ routed.faulted = false ∧ routed.un.uact = true ∧ routed.un.udst = .decoder)
      ∧ (decoding.Inv ∧ decoding.faulted = false ∧ decoding.de.dact = true
          ∧ ¬ (decoding.un.uact = true ∧ decoding.un.udst = .decoder)) ∧ (0 : BitVec 6).toNat ≤ (32 : BitVec 6).toNat :=
  ⟨by decide, by decide, ⟨reset_inv, rfl, rfl⟩, ⟨routed_inv, rfl, rfl, rfl⟩, ⟨decoding_inv, rfl, rfl, by decide⟩, by decide⟩

/-- Decoding with 32 unmatched bits, and dead. -/
def unmatched (l : BitVec 6) : State :=
  { State.reset with de := { Decoder.reset with dact := true, dcand := 0xDEADBEEF, dclen := l } }

theorem unmatched_inv : (unmatched 32).Inv ∧ (unmatched 33).Inv := by
  constructor <;> constructor
  case left.unusedZero => exact fun _ _ => rfl
  case right.unusedZero => exact fun _ _ => rfl
  all_goals decide

theorem witness_DeadDecoderOnlyCounts :
    ((unmatched 32).Inv ∧ (unmatched 33).Inv)
      ∧ ((unmatched 32).faulted = false ∧ (unmatched 32).de.dact = true ∧ (unmatched 32).de.dclen = 32
        ∧ ¬ ((unmatched 32).un.uact = true ∧ (unmatched 32).un.udst = .decoder) ∧ 1 ≤ (32 : BitVec 6).toNat)
      ∧ ((unmatched 33).faulted = false ∧ (unmatched 33).de.dact = true ∧ (unmatched 33).de.dclen = 33) :=
  ⟨unmatched_inv, by decide⟩

/-- R126: the machine does not decode by it. -/
theorem test_malformed_stops : exec (.dbits 1 0) { decoding with tab := malformed } = .fault .malformedTable
    ∧ (after (exec .dend { decoding with tab := malformed })).de.ddone = true := ⟨rfl, rfl⟩

theorem witness_MalformedTableIsNotDecoded :
    (¬ ([(0x61, [false]), (0x62, [false, false])] : CodeMap).Pairwise fun a b => ¬ a.2 <+: b.2 ∧ ¬ b.2 <+: a.2)
      ∧ decoding.Inv ∧ (∃ t, step decoding = .next t)
      ∧ (¬ malformed.entries.Pairwise fun a b => conflicts a.len a.code b.len b.code = false)
      ∧ ({ decoding with tab := malformed } : State).faulted = false ∧ decoding.de.dact = true
      ∧ ¬ (decoding.un.uact = true ∧ decoding.un.udst = .decoder) ∧ 1 ≤ (1 : BitVec 6).toNat
      ∧ ({ routed with tab := malformed } : State).faulted = false ∧ routed.un.uact = true
      ∧ routed.un.udst = .decoder ∧ routed.un.uholdv = true :=
  ⟨by decide, decoding_inv, ⟨_, rfl⟩, by decide, rfl, rfl, by decide, by decide, rfl, rfl, rfl, rfl⟩

theorem witness_DendEndsOrRefuses :
    (opField 0xB000000000000001 = 0xB ∧ (0xB000000000000001 : CmdWord).extractLsb' 0 60 ≠ 0)
      ∧ (State.reset.faulted = false ∧ State.reset.de.dact = false)
      ∧ (routed.faulted = false ∧ routed.un.uact = true ∧ routed.un.udst = .decoder)
      ∧ (fragment.faulted = false ∧ fragment.de.dact = true ∧ fragment.un.uact = false ∧ fragment.ctl.strict = false
          ∧ fragment.de.dclen ≠ 0) ∧ decoding.de.dclen = 0
      ∧ ({ fragment with ctl := { Control.reset with strict := true } } : State).ctl.strict = true := by decide

theorem witness_DecodeFrame : isDecodeCmd (.dbits 32 1) = true ∧ (∃ t, exec (.dbits 32 1) decoding = .next t)
    ∧ isDecodeCmd .dend = true ∧ isDecodeCmd .dstart = true := ⟨rfl, ⟨_, rfl⟩, rfl, rfl⟩

theorem witness_TclrEmptiesTheTable :
    (opField 0xC000000000000001 = 0xC ∧ (0xC000000000000001 : CmdWord).extractLsb' 0 60 ≠ 0)
      ∧ (packing.faulted = false ∧ packing.pk.pact = true) ∧ (decoding.faulted = false ∧ decoding.de.dact = true)
      ∧ ((withTable table3).faulted = false ∧ (withTable table3).pk.pact = false ∧ (withTable table3).de.dact = false) := by
  decide

theorem witness_TldAppendsTheEntry :
    (opField 0xD800000000000000 = 0xD ∧ (0xD800000000000000 : CmdWord).extractLsb' 59 1 ≠ 0)
      ∧ ((withTable table1).Inv ∧ (withTable table1).faulted = false ∧ (withTable table1).pk.pact = false
          ∧ (withTable table1).de.dact = false)
      ∧ ((0 : BitVec 6).toNat = 0 ∧ 32 < (33 : BitVec 6).toNat) ∧ (packing.Inv ∧ packing.pk.pact = true)
      ∧ (∃ e ∈ table1.entries, e.sym = 0x63)
      ∧ ((¬ ∃ e ∈ table1.entries, e.sym = 0x61) ∧ ∃ e ∈ table1.entries, str e.len.toNat e.code <+: str 32 (0 : Word))
      ∧ (fullTable.Inv ∧ fullTable.tab.tcount = fullTable.cfg.ctEntries ∧ fullTable.pk.pact = false
          ∧ (¬ ∃ e ∈ fullTable.tab.entries, e.sym = 0x61)
          ∧ ¬ ∃ e ∈ fullTable.tab.entries, str e.len.toNat e.code <+: str 1 (1 : Word)
            ∨ str 1 (1 : Word) <+: str e.len.toNat e.code)
      ∧ (withTable table1).tab.tcount ≠ (withTable table1).cfg.ctEntries :=
  ⟨by decide, ⟨withTable1_inv, rfl, rfl, rfl⟩, by decide, ⟨packing_inv, rfl⟩, by decide, by decide,
    ⟨fullTable_inv, by decide⟩, by decide⟩

theorem witness_TableFrame : isTableCmd (.tld 0x61 2 2) = true ∧ (∃ t, exec (.tld 0x61 2 2) (withTable table1) = .next t)
    ∧ isTableCmd .tclr = true := ⟨rfl, ⟨_, rfl⟩, rfl⟩

theorem witness_TableIsStableInASession : packing.pk.pact = true ∧ decoding.de.dact = true ∧ packing.faulted = false
    ∧ 1 ≤ (1 : BitVec 6).toNat ∧ (Instr.pend ≠ .srst) ∧ ∃ t, exec .pend packing = .next t :=
  ⟨rfl, rfl, rfl, by decide, by decide, _, rfl⟩

theorem witness_NopDoesNothing : opField 0x0000000000000001 = 0x0 ∧ (0x0000000000000001 : CmdWord) ≠ 0 := by decide

theorem witness_SrstResetsAllButTheOutputs :
    (opField 0x1000000000000001 = 0x1 ∧ (0x1000000000000001 : CmdWord).extractLsb' 0 60 ≠ 0)
      ∧ (presented faulted 0x1000000000000001).inputs = .command 0x1000000000000001 :: []
      ∧ (presented faulted 0x1000000000000001).faulted = true
      ∧ (after (exec .srst faulted)).faulted = false ∧ faulted.faulted = true := by decide

theorem witness_RdsrAppendsTheRegister :
    (opField 0xE000010000000000 = 0xE ∧ (0xE000010000000000 : CmdWord).extractLsb' 40 20 ≠ 0)
      ∧ (0xE000000000000001 : CmdWord).extractLsb' 0 32 ≠ 0 ∧ 0x16 < (regField 0xE000001700000000).toNat
      ∧ (presented faulted 0xE000001700000000).faulted = true := by decide

theorem witness_WrsrWritesTheTwoRegisters :
    (opField 0xF000010000000000 = 0xF ∧ (0xF000010000000000 : CmdWord).extractLsb' 40 20 ≠ 0)
      ∧ 0x16 < (regField 0xF000001700000000).toNat ∧ regField 0xF000000000000000 ≠ 0x01
      ∧ (regField 0xF000000100000004 = 0x01 ∧ (valueField 0xF000000100000004).extractLsb' 2 30 ≠ 0)
      ∧ faulted.faulted = true ∧ State.reset.faulted = false ∧ (3 : Word).extractLsb' 2 30 = 0 ∧ (4 : Word).extractLsb' 2 30 ≠ 0
      ∧ Reg.status ≠ .ctrl ∧ Reg.status ≠ .tidx := by decide

theorem witness_StatusBits : 9 ≤ 30 ∧ 30 ≤ 30 := by decide

theorem witness_TentShowsTheEntry : (withTable table3).ctl.tidx.toNat < (withTable table3).tab.tcount.toNat
    ∧ State.reset.tab.tcount.toNat ≤ State.reset.ctl.tidx.toNat ∧ State.reset.faulted = false := by decide

theorem witness_SystemFrame : Instr.nop.op = .nop ∧ (Instr.rdsr .id).op = .rdsr ∧ (Instr.wrsr .tidx 1).op = .wrsr
    ∧ (∃ t, exec (.wrsr .tidx 1) State.reset = .next t) ∧ ∃ t, exec (.wrsr .ctrl 3) State.reset = .next t :=
  ⟨rfl, rfl, rfl, ⟨_, rfl⟩, _, rfl⟩

theorem witness_ResetMeetsTheInvariants : Config.ok { ctEntries := 1 } ∧ Config.ok { ctEntries := 0xFFFFFFFF } := by decide

theorem witness_StepKeepsTheInvariant : (presented (withTable table1) 0xD040006100000002).Inv
    ∧ ∃ t, step (presented (withTable table1) 0xD040006100000002) = .next t := by
  refine ⟨?_, _, rfl⟩
  constructor
  case unusedZero => exact table1_unused
  all_goals decide

theorem witness_StepKeepsTheCounterLaws : (presented packing 0x4000000000000000).Inv
    ∧ (presented packing 0x4000000000000000).CounterLaw
    ∧ ∃ t, step (presented packing 0x4000000000000000) = .next t := by
  refine ⟨?_, ?_, _, rfl⟩
  · constructor
    case unusedZero => exact table3_unused
    all_goals decide
  · constructor <;> decide

theorem witness_OutputsOnlyGrowAndAreNotRead : packing.Inv ∧ (∃ t, exec .pend packing = .next t)
    ∧ exec (.dbits 1 0) { decoding with tab := malformed } = .fault .malformedTable := ⟨packing_inv, ⟨_, rfl⟩, rfl⟩

theorem witness_EmissionsAreBounded : packing.Inv ∧ ∃ t, exec (.pbits 32 1) packing = .next t := ⟨packing_inv, _, rfl⟩

theorem witness_PackingLaws : (refPack [true]).1.getLast? = some 0x80 ∧ [true].length % 8 ≠ 0
    ∧ (List.replicate 8 true).length % 8 = 0 ∧ refUnpack [0x80] 7 = some [true] := by decide

theorem witness_CornerCasesOfTheFunctions : 7 < 8 ∧ CodeMap.Legal [(0x61, [false])]
    ∧ refDecode [true] [(0x61, [false])] = some ([], [true]) ∧ (0x61, [false]) ∈ ([(0x61, [false])] : CodeMap)
    ∧ ∀ p ∈ ([(0x61, [false])] : CodeMap), p.2.length ≤ [true].length := by decide

theorem witness_ReferenceRoundTrip : CodeMap.Legal [(0x61, [false]), (0x62, [true])]
    ∧ ∀ x ∈ ([0x62, 0x61] : List Sym21), ∃ p ∈ ([(0x61, [false]), (0x62, [true])] : CodeMap), p.1 = x := by
  refine ⟨⟨by decide, by decide, by decide⟩, fun x hx => ?_⟩
  obtain rfl | rfl : x = 0x62 ∨ x = 0x61 := by simpa using hx
  · exact ⟨(0x62, [true]), by decide, rfl⟩
  · exact ⟨(0x61, [false]), by decide, rfl⟩

/-- One group, and the code of one symbol. -/
theorem witness_PackSessionComputesPack :
    (withTable table3).Inv ∧ (withTable table3).faulted = false ∧ (withTable table3).pk.pact = false
      ∧ (∀ i ∈ [Instr.pbits 3 5, .encs 0x61], i ≠ .pstart ∧ i ≠ .pend ∧ i ≠ .srst)
      ∧ ∃ u, runInstrs [.pstart, .pbits 3 5, .encs 0x61] (withTable table3) = .next u ∧ u.faulted = false :=
  ⟨withTable3_inv, rfl, rfl, by decide, _, rfl, by decide⟩

/-- One byte; and no byte with padding 1, which `UEND` refuses. -/
theorem witness_UnpackSessionComputesUnpack :
    State.reset.faulted = false ∧ State.reset.un.uact = false
      ∧ (∃ u, runInstrs [.ustart 7 .bitOut, .ubyte 0x80] State.reset = .next u ∧ u.faulted = false)
      ∧ refUnpack [0x80] 7 = some [true]
      ∧ (∃ u, runInstrs [.ustart 1 .bitOut] State.reset = .next u ∧ u.faulted = false) ∧ refUnpack [] 1 = none :=
  ⟨rfl, rfl, ⟨_, rfl, by decide⟩, by decide, ⟨_, rfl, by decide⟩, by decide⟩

/-- One group that ends inside a code; a strict block with the same; and a routed session that is complete. -/
theorem witness_DecodeSessionComputesDecode :
    (withTable table3).Inv ∧ (withTable table3).de.dact = false
      ∧ (∃ u, runInstrs [.dstart, .dbits 3 5] (withTable table3) = .next u ∧ u.faulted = false ∧ u.ctl.strict = false
          ∧ ¬ (u.un.uact = true ∧ u.un.udst = .decoder))
      ∧ (∃ u, runInstrs [.dstart, .wrsr .ctrl 1, .dbits 3 5] (withTable table3) = .next u ∧ u.faulted = false
          ∧ u.ctl.strict = true)
      ∧ refDecode (decoderInput none [.dbits 3 5]) table3.toMap = some ([0x61], [true])
      ∧ decoderInput none [.ustart 7 .decoder, .ubyte 0x80, .uend] = [true] :=
  ⟨withTable3_inv, rfl, ⟨_, rfl, by decide, by decide, by decide⟩, ⟨_, rfl, by decide, by decide⟩, by decide, by decide⟩

theorem witness_MachineRoundTrip : (withTable table3).Inv ∧ (withTable table3).faulted = false
    ∧ (withTable table3).pk.pact = false ∧ (withTable table3).un.uact = false ∧ (withTable table3).de.dact = false
    ∧ ∀ x ∈ ([0x61, 0x63] : List Sym21), ∃ e ∈ (withTable table3).tab.entries, e.sym = x := by
  refine ⟨withTable3_inv, rfl, rfl, rfl, rfl, fun x hx => ?_⟩
  obtain rfl | rfl : x = 0x61 ∨ x = 0x63 := by simpa using hx
  · exact ⟨{ sym := 0x61, len := 2, code := 2 }, by decide, rfl⟩
  · exact ⟨{ sym := 0x63, len := 1, code := 0 }, by decide, rfl⟩

end Sys2Proof.Tests
end

/-! # Scope (00_scope.md): what a step does with the next word, how a stream of words runs, and how much a command emits -/

namespace Sys2Proof

/-- The word of a well-formed command passes every check of R101. -/
theorem decode_encode (i : Instr) (h : i.wf = true) : decode (encode i) = .ok i := by
  obtain ⟨hop, hreserved, hoperands⟩ := Laws.WordLayout.of_every_instr i
  simp [decode, hop, hreserved, hoperands, h]

end Sys2Proof

namespace Sys2Proof.Machine

/-! ## A step on a command word (R9) -/

/-- A step takes the next word from the port and executes the command it decodes to. -/
theorem step_command (s : State) (cw : CmdWord) (rest : List HostInput) (i : Instr)
    (hin : s.inputs = .command cw :: rest) (hd : decode cw = .ok i) : step s = exec i (s.setInputs rest) := by
  simp [step, nextInput, hin, stepWord, hd]

/-- Settles O7: the next input and its decoding pick the branch of `step`. -/
theorem stepRunsTheDecodedCommand : Obligations.StepRunsTheDecodedCommand := step_command

/-! ## The byte held by the unpacker: what `UBYTE` and `UEND` share -/

/-- The first `k` bits of the byte held are released, if one is held (R164, R165). -/
def releaseHeld (k : Nat) (s : State) : State := if s.un.uholdv then release s.un.uhold k s else s

theorem flushHold_eq (s : State) : flushHold s = releaseHeld 8 s := rfl

theorem flushLast_eq (s : State) : flushLast s = releaseHeld (8 - s.un.upad.toNat) s := rfl

@[simp] theorem releaseHeld_uact (k : Nat) (s : State) : (releaseHeld k s).un.uact = s.un.uact := by
  unfold releaseHeld; split <;> simp
@[simp] theorem releaseHeld_byteOut (k : Nat) (s : State) : (releaseHeld k s).out.byteOut = s.out.byteOut := by
  unfold releaseHeld; split <;> simp
@[simp] theorem releaseHeld_respOut (k : Nat) (s : State) : (releaseHeld k s).out.respOut = s.out.respOut := by
  unfold releaseHeld; split <;> simp

/-! ## No command reads or writes the pending inputs (log 2) -/

/-- An outcome with other inputs pending. -/
def withInputs (x : List HostInput) : Result → Result
  | .next t => .next (t.setInputs x)
  | .fault r => .fault r
  | .refused r => .refused r

theorem packBit_setInputs (s : State) (x : List HostInput) (b : Bool) :
    packBit (s.setInputs x) b = (packBit s b).setInputs x := by
  simp only [packBit, apply_ite (State.setInputs · x)]
  rfl

theorem endPack_setInputs (s : State) (x : List HostInput) :
    endPack (s.setInputs x) = (endPack s).setInputs x := by
  simp only [endPack, apply_ite (State.setInputs · x)]
  rfl

theorem decodeBit_setInputs (s : State) (x : List HostInput) (b : Bool) :
    decodeBit (s.setInputs x) b = (decodeBit s b).setInputs x := by
  simp only [decodeBit, apply_ite (State.setInputs · x), State.setInputs_de, State.setInputs_tab]
  cases s.tab.matchCode (s.de.dclen + 1) (shiftIn s.de.dcand b) <;> rfl

theorem releaseBit_setInputs (s : State) (x : List HostInput) (b : Bool) :
    releaseBit (s.setInputs x) b = (releaseBit s b).setInputs x := by
  simp only [releaseBit, State.setInputs_un]
  cases s.un.udst with
  | bitOut => rfl
  | decoder => exact decodeBit_setInputs (s.setUn _) x b

theorem packBits_setInputs (bs : Bits) (s : State) (x : List HostInput) :
    packBits bs (s.setInputs x) = (packBits bs s).setInputs x :=
  List.foldl_hom (State.setInputs · x) fun s b => packBit_setInputs s x b

theorem decodeBits_setInputs (bs : Bits) (s : State) (x : List HostInput) :
    decodeBits bs (s.setInputs x) = (decodeBits bs s).setInputs x :=
  List.foldl_hom (State.setInputs · x) fun s b => decodeBit_setInputs s x b

theorem release_setInputs (y : Byte) (k : Nat) (s : State) (x : List HostInput) :
    release y k (s.setInputs x) = (release y k s).setInputs x :=
  List.foldl_hom (State.setInputs · x) fun s b => releaseBit_setInputs s x b

theorem releaseHeld_setInputs (k : Nat) (s : State) (x : List HostInput) :
    releaseHeld k (s.setInputs x) = (releaseHeld k s).setInputs x := by
  simp only [releaseHeld, State.setInputs_un, release_setInputs, apply_ite (State.setInputs · x)]

theorem effectOf_setInputs (i : Instr) (s : State) (x : List HostInput) :
    effectOf i (s.setInputs x) = (effectOf i s).setInputs x := by
  cases i with
  | pbits n v => exact packBits_setInputs _ s x
  | encs sym => exact packBits_setInputs _ s x
  | dbits n v => exact decodeBits_setInputs _ s x
  | pend => exact endPack_setInputs s x
  | ubyte b => exact congrArg (holdByte b) (releaseHeld_setInputs 8 s x)
  | uend => exact congrArg closeUnpack (releaseHeld_setInputs _ s x)
  | rdsr r => cases r <;> rfl
  | wrsr r v => cases r <;> rfl
  | _ => rfl

/-- With other inputs pending a command has the same outcome but for them. -/
theorem exec_setInputs (i : Instr) (s : State) (x : List HostInput) :
    exec i (s.setInputs x) = withInputs x (exec i s) := by
  have hchecks : checksOf i (s.setInputs x) = checksOf i s := by cases i <;> rfl
  have hbits : decoderBits i (s.setInputs x) = decoderBits i s := by cases i <;> rfl
  have hfaulted : (s.setInputs x).faulted = s.faulted := rfl
  have hundef : (s.setInputs x).decodeUndefined (decoderBits i s) = s.decodeUndefined (decoderBits i s) := rfl
  simp only [exec_eq, guardedDecode, guarded, hchecks, hbits, hfaulted, hundef, effectOf_setInputs]
  split_ifs
  · rfl
  · rfl
  · rfl
  · cases firstFault (checksOf i s) <;> rfl

/-! ## A stream of command words -/

/-- The inputs by which the host presents a list of commands. -/
def commandInputs (is : List Instr) : List HostInput := is.map fun i => .command (encode i)

/-- As many steps as there are words presented run their commands in order. -/
theorem run_commandInputs (is : List Instr) (rest : List HostInput) (s : State) (hwf : ∀ i ∈ is, i.wf = true) :
    core.run is.length (s.setInputs (commandInputs is ++ rest)) = runInstrs is (s.setInputs rest) := by
  induction is generalizing s with
  | nil => rfl
  | cons i is ih =>
    obtain ⟨hi, his⟩ := List.forall_mem_cons.mp hwf
    have hstep : core.step (s.setInputs (commandInputs (i :: is) ++ rest)) =
        withInputs (commandInputs is ++ rest) (exec i s) :=
      (step_command (s.setInputs _) (encode i) _ i rfl (decode_encode i hi)).trans (exec_setInputs i s _)
    simp only [List.length_cons, Host.Core.run, runInstrs, hstep, exec_setInputs i s rest]
    cases exec i s with
    | next t => exact ih t his
    | fault r => rfl
    | refused r => rfl

/-! ## The checks of a command, as one condition each -/

theorem pbits_checks (n : BitVec 6) (v : Word) (s : State) :
    firstFault (checksOf (.pbits n v) s) = none ↔ n.toNat ≤ 32 ∧ s.pk.pact = true := by
  simp [firstFault_none, checksOf, groupCountOk]

theorem encs_checks (sym : Sym21) (s : State) :
    firstFault (checksOf (.encs sym) s) = none ↔ s.pk.pact = true ∧ ∃ e, s.tab.lookupSym sym = some e := by
  simp [firstFault_none, checksOf, Option.isSome_iff_exists]

theorem ustart_checks (pad : BitVec 3) (dst : Dest) (s : State) :
    firstFault (checksOf (.ustart pad dst) s) = none ↔ s.un.uact = false ∧ (dst = .decoder → s.de.dact = true) := by
  simp [firstFault_none, checksOf]

theorem ubyte_checks (b : Byte) (s : State) : firstFault (checksOf (.ubyte b) s) = none ↔ s.un.uact = true := by
  simp [firstFault_none, checksOf]

theorem dbits_checks (n : BitVec 6) (v : Word) (s : State) :
    firstFault (checksOf (.dbits n v) s) = none ↔ n.toNat ≤ 32 ∧ s.de.dact = true ∧ s.un.routed = false := by
  simp [firstFault_none, checksOf, groupCountOk]

theorem dend_checks (s : State) :
    firstFault (checksOf .dend s) = none ↔
      s.de.dact = true ∧ s.un.routed = false ∧ (s.ctl.strict = true → s.de.dclen = 0) := by
  simp [firstFault_none, checksOf]

theorem tld_checks (sym : Sym21) (len : BitVec 6) (code : Word) (s : State) :
    firstFault (checksOf (.tld sym len code) s) = none ↔
      (1 ≤ len.toNat ∧ len.toNat ≤ 32) ∧ (s.pk.pact = false ∧ s.de.dact = false)
        ∧ (∀ x ∈ s.tab.entries, x.sym ≠ sym)
        ∧ (∀ x ∈ s.tab.entries, conflicts x.len x.code len (maskCode len code) = false)
        ∧ s.tab.tcount ≠ s.cfg.ctEntries := by
  simp [firstFault_none, checksOf, tldChecks, State.tableLocked, codeLenOk, CodeTable.hasConflict,
    CodeTable.lookupSym_none]

/-! ## The invariant, group by group (R66) -/

/-- The output sequences stand in no clause of the invariant. -/
theorem State.Inv.setOut {s : State} (h : s.Inv) (o : Outputs) : (s.setOut o).Inv := { h with }

/-- The pending inputs stand in no clause of the invariant. -/
theorem State.Inv.setInputs {s : State} (h : s.Inv) (x : List HostInput) : (s.setInputs x).Inv := { h with }

/-- The control registers stand in no clause of the invariant. -/
theorem State.Inv.setCtl {s : State} (h : s.Inv) (c : Control) : (s.setCtl c).Inv := { h with }

theorem State.Inv.setPk {s : State} (h : s.Inv) {p : Packer} (hflags : ¬ (p.pact = true ∧ p.pdone = true))
    (hacc : p.pacc.toNat < 2 ^ p.pcnt.toNat) (hidle : p.pact = false → p.pacc = 0 ∧ p.pcnt = 0) : (s.setPk p).Inv :=
  { h with packFlags := hflags, accFits := hacc, accIdle := hidle }

theorem State.Inv.setUn {s : State} (h : s.Inv) {u : Unpacker} (hflags : ¬ (u.uact = true ∧ u.udone = true))
    (hempty : u.uholdv = false → u.uhold = 0) (hidle : u.uact = false → u.uholdv = false)
    (hrouted : u.uact = true → u.udst = .decoder → s.de.dact = true) : (s.setUn u).Inv :=
  { h with unpackFlags := hflags, holdEmpty := hempty, holdIdle := hidle, routedActive := hrouted }

theorem State.Inv.setDe {s : State} (h : s.Inv) {d : Decoder} (hflags : ¬ (d.dact = true ∧ d.ddone = true))
    (hlen : d.dclen.toNat ≤ 33) (hcand : d.dclen.toNat ≤ 32 → d.dcand.toNat < 2 ^ d.dclen.toNat)
    (hrouted : s.un.uact = true → s.un.udst = .decoder → d.dact = true)
    (hmatch : d.dact = true → d.dclen.toNat ≤ 32 → ∀ e ∈ s.tab.entries, ¬ (e.len = d.dclen ∧ e.code = d.dcand)) :
    (s.setDe d).Inv :=
  { h with decodeFlags := hflags, candLen := hlen, candFits := hcand, routedActive := hrouted, noMatchPending := hmatch }

/-- A valid entry's code is not empty, so no entry matches the empty candidate (R51 (c)). -/
theorem State.Inv.no_match_empty {s : State} (h : s.Inv) (c : Word) :
    ∀ e ∈ s.tab.entries, ¬ (e.len = 0 ∧ e.code = c) := by
  rintro e he ⟨hlen, -⟩
  obtain ⟨hpos, -⟩ := h.codeLengths e he
  simp [hlen] at hpos

/-- Hardware reset meets the invariant at every legal capacity (R65). -/
theorem State.resetWith_inv (cfg : Config) (ins : List HostInput) (hcfg : cfg.ok) : (State.resetWith cfg ins).Inv := by
  constructor
  case countFits => exact Nat.zero_le _
  case unusedZero => exact fun _ _ => rfl
  case memWf => exact Memory.cleared_wf
  case capacityOk => exact hcfg
  case oneCodePerSymbol => exact .nil
  case prefixFree => exact .nil
  case codeLengths => exact List.forall_mem_nil _
  case codesCanonical => exact List.forall_mem_nil _
  all_goals simp [State.resetWith, Packer.reset, Unpacker.reset, Decoder.reset, FaultRecord.reset]

theorem softReset_keeps_inv {s : State} (h : s.Inv) : (softReset s).Inv :=
  (State.resetWith_inv s.cfg s.inputs h.capacityOk).setOut s.out

/-- Recording a fault keeps the invariant (R237). -/
theorem enterFault_keeps_inv {s : State} (h : s.Inv) (c : Cause) (cw : CmdWord) : (enterFault c cw s).Inv :=
  { h with
    causeLegal := c.code_range.2
    noFaultNoCmd := fun h0 => absurd h0 c.code_range.1 }

/-! ### Packer -/

theorem startPack_keeps_inv {s : State} (h : s.Inv) : (startPack s).Inv :=
  h.setPk (by simp) (by simp) (by simp)

theorem packBits_keeps_inv {s : State} (h : s.Inv) (hact : s.pk.pact = true) (bs : Bits) : (packBits bs s).Inv := by
  rw [packBits_eq bs s h.accFits]
  have hidle : s.pk.pact ≠ false := by simp [hact]
  exact (h.setOut _).setPk h.packFlags (packed_acc bs s).1 (absurd · hidle)

theorem endPack_keeps_inv {s : State} (h : s.Inv) : (endPack s).Inv := by
  unfold endPack
  split
  · exact (h.setOut _).setPk (by simp) (by simp) (by simp)
  · exact h.setPk (by simp) (by simp) (by simp)

/-! ### Decoder -/

theorem startDecode_keeps_inv {s : State} (h : s.Inv) : (startDecode s).Inv :=
  h.setDe (by simp) (by simp) (by simp) (fun _ _ => rfl) fun _ _ => h.no_match_empty _

theorem endDecode_keeps_inv {s : State} (h : s.Inv) (hunrouted : s.un.routed = false) : (endDecode s).Inv :=
  h.setDe (by simp) h.candLen h.candFits (fun hact hdst => by simp [Unpacker.routed, hact, hdst] at hunrouted) (by simp)

theorem decodeBit_keeps_inv {s : State} (h : s.Inv) (x : Bool) : (decodeBit s x).Inv := by
  unfold decodeBit
  split_ifs with hdead hfull
  · exact h.setDe h.decodeFlags h.candLen h.candFits h.routedActive h.noMatchPending
  · exact h.setDe h.decodeFlags (by simp) (by simp) h.routedActive (by simp)
  · have hlen : s.de.dclen.toNat < 32 := by
      have hle := h.candLen
      bv_omega
    have hsucc : (s.de.dclen + 1).toNat = s.de.dclen.toNat + 1 := by
      rw [BitVec.toNat_add]; exact Nat.mod_eq_of_lt (by simp; omega)
    split
    next e _ => exact (h.setOut _).setDe h.decodeFlags (by simp) (by simp) h.routedActive fun _ _ => h.no_match_empty _
    next hnone =>
      refine h.setDe h.decodeFlags (by rw [hsucc]; omega) (fun _ => ?_) h.routedActive fun _ _ =>
        (s.tab.matchCode_none _ _).mp hnone
      rw [hsucc]
      exact shiftIn_lt _ _ _ (h.candFits hlen.le)

theorem decodeBits_keeps_inv {s : State} (h : s.Inv) (bs : Bits) : (decodeBits bs s).Inv :=
  List.foldlRecOn bs decodeBit h fun _ ht x _ => decodeBit_keeps_inv ht x

/-! ### Unpacker -/

theorem startUnpack_keeps_inv {s : State} (h : s.Inv) (pad : BitVec 3) (dst : Dest)
    (hdst : dst = .decoder → s.de.dact = true) : (startUnpack pad dst s).Inv :=
  h.setUn (by simp) (by simp) (by simp) fun _ => hdst

theorem releaseBit_keeps_inv {s : State} (h : s.Inv) (x : Bool) : (releaseBit s x).Inv := by
  have hcount : (s.setUn { s.un with ubitcnt := s.un.ubitcnt + 1 }).Inv :=
    h.setUn h.unpackFlags h.holdEmpty h.holdIdle h.routedActive
  unfold releaseBit
  split
  · exact hcount.setOut _
  · exact decodeBit_keeps_inv hcount x

theorem release_keeps_inv {s : State} (h : s.Inv) (y : Byte) (k : Nat) : (release y k s).Inv :=
  List.foldlRecOn _ releaseBit h fun _ ht x _ => releaseBit_keeps_inv ht x

theorem releaseHeld_keeps_inv {s : State} (h : s.Inv) (k : Nat) : (releaseHeld k s).Inv := by
  unfold releaseHeld
  split
  · exact release_keeps_inv h _ _
  · exact h

theorem holdByte_keeps_inv {s : State} (h : s.Inv) (hact : s.un.uact = true) (b : Byte) : (holdByte b s).Inv :=
  h.setUn h.unpackFlags (by simp) (by simp [hact]) h.routedActive

theorem closeUnpack_keeps_inv {s : State} (h : s.Inv) : (closeUnpack s).Inv :=
  h.setUn (by simp) (by simp) (by simp) (by simp)

/-! ### Table and system -/

theorem clearTable_keeps_inv {s : State} (h : s.Inv) : (s.setTab .cleared).Inv :=
  { h with
    countFits := Nat.zero_le _
    oneCodePerSymbol := .nil
    prefixFree := .nil
    codeLengths := by simp
    codesCanonical := by simp
    unusedZero := fun _ _ => rfl
    memWf := Memory.cleared_wf
    noMatchPending := by simp }

/-- Appending an entry that passes the checks of R202 keeps the invariant. -/
theorem appendEntry_keeps_inv {s : State} (h : s.Inv) (e : Entry) (hidle : s.de.dact = false)
    (hnew : ∀ x ∈ s.tab.entries, x.sym ≠ e.sym)
    (hfree : ∀ x ∈ s.tab.entries, conflicts x.len x.code e.len e.code = false)
    (hroom : s.tab.tcount ≠ s.cfg.ctEntries) (hlen : 1 ≤ e.len.toNat ∧ e.len.toNat ≤ 32)
    (hcode : e.code.toNat < 2 ^ e.len.toNat) : (s.setTab (s.tab.append e)).Inv := by
  have hlt : s.tab.tcount.toNat < s.cfg.ctEntries.toNat :=
    lt_of_le_of_ne h.countFits fun heq => hroom (BitVec.eq_of_toNat_eq heq)
  have hfits : s.tab.tcount.toNat + 1 < 2 ^ 32 := by omega
  have hcount : (s.tab.append e).tcount.toNat = s.tab.tcount.toNat + 1 := by
    rw [CodeTable.append, BitVec.toNat_add]; exact Nat.mod_eq_of_lt hfits
  have hentries : (s.tab.append e).entries = s.tab.entries ++ [e] := s.tab.entries_append e h.memWf hfits
  exact
    { h with
      countFits := hcount.trans_le hlt
      oneCodePerSymbol := by
        rw [State.setTab_tab, hentries, List.pairwise_append]
        exact ⟨h.oneCodePerSymbol, List.pairwise_singleton _ _, by simpa using hnew⟩
      prefixFree := by
        rw [State.setTab_tab, hentries, List.pairwise_append]
        exact ⟨h.prefixFree, List.pairwise_singleton _ _, by simpa using hfree⟩
      codeLengths := by
        rw [State.setTab_tab, hentries]
        exact List.forall_mem_append.mpr ⟨h.codeLengths, List.forall_mem_singleton.mpr hlen⟩
      codesCanonical := by
        rw [State.setTab_tab, hentries]
        exact List.forall_mem_append.mpr ⟨h.codesCanonical, List.forall_mem_singleton.mpr hcode⟩
      unusedZero := fun i hi => by
        rw [State.setTab_tab, hcount] at hi
        exact (Memory.read_write_other _ _ _ _ (by omega)).trans (h.unusedZero i (by omega))
      memWf := Memory.write_wf _ _ _ h.memWf
      noMatchPending := fun hact => by simp [hidle] at hact }

theorem writeReg_keeps_inv {s : State} (h : s.Inv) (r : Reg) (v : Word) : (writeReg r v s).Inv := by
  cases r with
  | ctrl => exact h.setCtl _
  | tidx => exact h.setCtl _
  | _ => exact h

/-! ### Commands -/

/-- The effect of a command whose checks pass keeps the invariant. -/
theorem effectOf_keeps_inv {s : State} (h : s.Inv) (i : Instr) (hc : firstFault (checksOf i s) = none) :
    (effectOf i s).Inv := by
  cases i with
  | nop => exact h
  | srst => exact softReset_keeps_inv h
  | pstart => exact startPack_keeps_inv h
  | pbits n v =>
    obtain ⟨-, hact⟩ := (pbits_checks n v s).mp hc
    exact packBits_keeps_inv h hact _
  | pend => exact endPack_keeps_inv h
  | encs sym =>
    obtain ⟨hact, -⟩ := (encs_checks sym s).mp hc
    exact packBits_keeps_inv h hact _
  | ustart pad dst =>
    obtain ⟨-, hdst⟩ := (ustart_checks pad dst s).mp hc
    exact startUnpack_keeps_inv h pad dst hdst
  | ubyte b =>
    have hact := (ubyte_checks b s).mp hc
    exact holdByte_keeps_inv (releaseHeld_keeps_inv h 8) ((releaseHeld_uact 8 s).trans hact) b
  | uend => exact closeUnpack_keeps_inv (releaseHeld_keeps_inv h _)
  | dstart => exact startDecode_keeps_inv h
  | dbits n v => exact decodeBits_keeps_inv h _
  | dend =>
    obtain ⟨-, hunrouted, -⟩ := (dend_checks s).mp hc
    exact endDecode_keeps_inv h hunrouted
  | tclr => exact clearTable_keeps_inv h
  | tld sym len code =>
    obtain ⟨hlen, ⟨-, hidle⟩, hnew, hfree, hroom⟩ := (tld_checks sym len code s).mp hc
    exact appendEntry_keeps_inv h _ hidle hnew hfree hroom hlen (maskCode_lt len code hlen.2)
  | rdsr r => exact h.setOut _
  | wrsr r v => exact writeReg_keeps_inv h r v

/-- Every command keeps the invariant: discarded, refused or done. -/
theorem exec_keeps_inv {s t : State} (h : s.Inv) (i : Instr) (hexec : exec i s = .next t) : t.Inv := by
  rcases exec_cases i s t hexec with ⟨-, -, rfl⟩ | ⟨-, -, c, -, rfl⟩ | ⟨-, hc, rfl⟩
  · exact h
  · exact enterFault_keeps_inv h c _
  · exact effectOf_keeps_inv h i hc

/-- From a state that meets the invariant a run of commands answers a next state, which meets it too. -/
theorem runInstrs_answers {s : State} (h : s.Inv) (is : List Instr) : ∃ t, runInstrs is s = .next t ∧ t.Inv := by
  induction is generalizing s with
  | nil => exact ⟨s, rfl, h⟩
  | cons i is ih =>
    obtain ⟨u, hu⟩ := exec_answers i s (h.decodeDefined _)
    obtain ⟨t, ht, hinv⟩ := ih (exec_keeps_inv h i hu)
    exact ⟨t, by rw [runInstrs, hu]; exact ht, hinv⟩

/-- Settles O14, by induction on the commands: none reads or writes the inputs still pending, and each keeps the
invariant, under which the next one answers. -/
theorem streamRunsInOrder : Obligations.StreamRunsInOrder := by
  intro is rest s hwf
  refine ⟨run_commandInputs is rest s hwf, fun h => ?_⟩
  obtain ⟨t, ht, -⟩ := runInstrs_answers (h.setInputs rest) is
  exact ⟨t, ht⟩

/-! ## How much a command emits (R10) -/

/-- A loop whose rounds raise a measure by at most 1 raises it by at most their number. -/
theorem foldl_grows {β : Type} (f : State → β → State) (m : State → Nat) (h : ∀ s x, m (f s x) ≤ m s + 1) (l : List β)
    (s : State) : m (l.foldl f s) ≤ m s + l.length := by
  induction l generalizing s with
  | nil => exact le_rfl
  | cons x l ih =>
    have hx := h s x
    have hl := ih (f s x)
    simp only [List.foldl_cons, List.length_cons]
    omega

theorem decodeBit_symOut_le (s : State) (x : Bool) : (decodeBit s x).out.symOut.length ≤ s.out.symOut.length + 1 := by
  unfold decodeBit
  split_ifs
  · simp
  · simp
  · split <;> simp

theorem decodeBits_symOut_le (bs : Bits) (s : State) :
    (decodeBits bs s).out.symOut.length ≤ s.out.symOut.length + bs.length :=
  foldl_grows decodeBit (·.out.symOut.length) decodeBit_symOut_le bs s

theorem releaseBit_bitOut_le (s : State) (x : Bool) : (releaseBit s x).out.bitOut.length ≤ s.out.bitOut.length + 1 := by
  unfold releaseBit; split <;> simp

theorem releaseBit_symOut_le (s : State) (x : Bool) : (releaseBit s x).out.symOut.length ≤ s.out.symOut.length + 1 := by
  unfold releaseBit
  split
  · simp
  · exact decodeBit_symOut_le _ x

theorem length_take_bin8_le (y : Byte) (k : Nat) : ((bin8 y).take k).length ≤ 8 :=
  (List.length_take_le' k _).trans_eq (bin8_length y)

theorem release_bitOut_le (y : Byte) (k : Nat) (s : State) :
    (release y k s).out.bitOut.length ≤ s.out.bitOut.length + 8 :=
  (foldl_grows releaseBit (·.out.bitOut.length) releaseBit_bitOut_le _ s).trans
    (Nat.add_le_add_left (length_take_bin8_le y k) _)

theorem release_symOut_le (y : Byte) (k : Nat) (s : State) :
    (release y k s).out.symOut.length ≤ s.out.symOut.length + 8 :=
  (foldl_grows releaseBit (·.out.symOut.length) releaseBit_symOut_le _ s).trans
    (Nat.add_le_add_left (length_take_bin8_le y k) _)

theorem releaseHeld_bitOut_le (k : Nat) (s : State) :
    (releaseHeld k s).out.bitOut.length ≤ s.out.bitOut.length + 8 := by
  unfold releaseHeld
  split
  · exact release_bitOut_le _ k s
  · exact Nat.le_add_right _ 8

theorem releaseHeld_symOut_le (k : Nat) (s : State) :
    (releaseHeld k s).out.symOut.length ≤ s.out.symOut.length + 8 := by
  unfold releaseHeld
  split
  · exact release_symOut_le _ k s
  · exact Nat.le_add_right _ 8

/-- With at most 7 bits held, up to 32 new ones complete at most 4 bytes. -/
theorem packBits_byteOut_le (bs : Bits) (s : State) (hacc : s.pk.pacc.toNat < 2 ^ s.pk.pcnt.toNat)
    (hbs : bs.length ≤ 32) : (packBits bs s).out.byteOut.length ≤ s.out.byteOut.length + 4 := by
  have hbytes : (wholeBytes (s.pk.pending ++ bs)).length = (s.pk.pcnt.toNat + bs.length) / 8 := by
    rw [length_wholeBytes, List.length_append, Packer.pending_length]
  have hcnt : s.pk.pcnt.toNat < 8 := s.pk.pcnt.isLt
  rw [packBits_eq bs s hacc, packed, State.setPk_out, State.setOut_out, List.length_append, hbytes]
  omega

/-- A code is at most 32 bits long (R51 (c)). -/
theorem State.Inv.encodedBits_length_le {s : State} (h : s.Inv) (sym : Sym21) : (encodedBits s.tab sym).length ≤ 32 := by
  unfold encodedBits
  split
  next e he => exact (str_length _ _).trans_le (h.codeLengths e (s.tab.lookupSym_some sym e he).1).2
  next => exact Nat.zero_le _

theorem endPack_byteOut_le (s : State) : (endPack s).out.byteOut.length ≤ s.out.byteOut.length + 1 := by
  unfold endPack; split <;> simp

/-! ### Operations that emit nothing on a stream -/

@[simp] theorem softReset_out (s : State) : (softReset s).out = s.out := rfl
@[simp] theorem startPack_out (s : State) : (startPack s).out = s.out := rfl
@[simp] theorem startUnpack_out (pad : BitVec 3) (dst : Dest) (s : State) : (startUnpack pad dst s).out = s.out := rfl
@[simp] theorem holdByte_out (b : Byte) (s : State) : (holdByte b s).out = s.out := rfl
@[simp] theorem closeUnpack_out (s : State) : (closeUnpack s).out = s.out := rfl
@[simp] theorem startDecode_out (s : State) : (startDecode s).out = s.out := rfl
@[simp] theorem endDecode_out (s : State) : (endDecode s).out = s.out := rfl
@[simp] theorem writeReg_out (r : Reg) (v : Word) (s : State) : (writeReg r v s).out = s.out := by cases r <;> rfl

@[simp] theorem endPack_bitOut (s : State) : (endPack s).out.bitOut = s.out.bitOut := by unfold endPack; split <;> rfl
@[simp] theorem endPack_symOut (s : State) : (endPack s).out.symOut = s.out.symOut := by unfold endPack; split <;> rfl
@[simp] theorem endPack_respOut (s : State) : (endPack s).out.respOut = s.out.respOut := by unfold endPack; split <;> rfl

/-! ### Commands, stream by stream -/

theorem effectOf_byteOut_le {s : State} (h : s.Inv) (i : Instr) (hc : firstFault (checksOf i s) = none) :
    (effectOf i s).out.byteOut.length ≤ s.out.byteOut.length +
      (if i.op = .pbits ∨ i.op = .encs then 4 else if i.op = .pend then 1 else 0) := by
  cases i with
  | pbits n v =>
    obtain ⟨hn, -⟩ := (pbits_checks n v s).mp hc
    exact packBits_byteOut_le _ s h.accFits ((str_length _ _).trans_le hn)
  | encs sym => exact packBits_byteOut_le _ s h.accFits (h.encodedBits_length_le sym)
  | pend => exact endPack_byteOut_le s
  | _ => simp [effectOf, Instr.op, flushHold_eq, flushLast_eq]

theorem effectOf_bitOut_le (i : Instr) (s : State) :
    (effectOf i s).out.bitOut.length ≤ s.out.bitOut.length + (if i.op = .ubyte ∨ i.op = .uend then 8 else 0) := by
  cases i with
  | ubyte b => exact releaseHeld_bitOut_le 8 s
  | uend => exact releaseHeld_bitOut_le _ s
  | _ => simp [effectOf, Instr.op]

theorem effectOf_symOut_le (i : Instr) (s : State) (hc : firstFault (checksOf i s) = none) :
    (effectOf i s).out.symOut.length ≤ s.out.symOut.length +
      (if i.op = .ubyte ∨ i.op = .uend then 8 else if i.op = .dbits then 32 else 0) := by
  cases i with
  | ubyte b => exact releaseHeld_symOut_le 8 s
  | uend => exact releaseHeld_symOut_le _ s
  | dbits n v =>
    obtain ⟨hn, -⟩ := (dbits_checks n v s).mp hc
    exact (decodeBits_symOut_le _ s).trans (Nat.add_le_add_left ((str_length _ _).trans_le hn) _)
  | _ => simp [effectOf, Instr.op]

theorem effectOf_respOut_length (i : Instr) (s : State) :
    (effectOf i s).out.respOut.length = s.out.respOut.length + (if i.op = .rdsr then 1 else 0) := by
  cases i <;> simp [effectOf, Instr.op, flushHold_eq, flushLast_eq]

/-- A command that is discarded or refused emits nothing, and is no `RDSR`, which always runs (R237, R238). -/
theorem exec_silent_or_done (i : Instr) (s t : State) (h : exec i s = .next t) :
    (i.op ≠ .rdsr ∧ t.out = s.out) ∨ (firstFault (checksOf i s) = none ∧ t = effectOf i s) := by
  have hop : runsFaulted i = false → i.op ≠ .rdsr := fun hr ho => by simp [runsFaulted, ho] at hr
  rcases exec_cases i s t h with ⟨-, hr, rfl⟩ | ⟨-, hr, c, -, rfl⟩ | ⟨-, hc, ht⟩
  · exact .inl ⟨hop hr, rfl⟩
  · exact .inl ⟨hop hr, rfl⟩
  · exact .inr ⟨hc, ht⟩

/-- Settles O47: a command that runs is bounded stream by stream, any other emits nothing. -/
theorem emissionsAreBounded : Obligations.EmissionsAreBounded := by
  intro i s t hinv hexec
  rcases exec_silent_or_done i s t hexec with ⟨hop, hout⟩ | ⟨hc, rfl⟩
  · simp [hop, hout]
  · exact ⟨effectOf_byteOut_le hinv i hc, effectOf_bitOut_le i s, effectOf_symOut_le i s hc,
      effectOf_respOut_length i s⟩

end Sys2Proof.Machine

namespace Sys2Proof.Machine

/-! # State (10_state.md): the invariants a step keeps, reset, the fault record, the outputs, and the register views -/

/-! ## The state invariant (R66) -/

/-- Refusing a word keeps the invariant, faulted or not (R237, R238). -/
theorem raiseFault_keeps_inv {s : State} (h : s.Inv) (c : Cause) (cw : CmdWord) : (raiseFault c cw s).Inv := by
  unfold raiseFault
  split
  · exact h
  · exact enterFault_keeps_inv h c cw

/-- Settles O44: each of the four ways a step can go keeps the invariant. -/
theorem stepKeepsTheInvariant : Obligations.StepKeepsTheInvariant := by
  intro s t h hstep
  rcases step_cases s t hstep with ⟨-, rfl⟩ | ⟨rest, -, rfl⟩ | ⟨-, rest, i, -, -, hexec⟩ | ⟨cw, rest, e, -, -, rfl⟩
  · exact h
  · exact State.resetWith_inv _ _ h.capacityOk
  · exact exec_keeps_inv (h.setInputs rest) i hexec
  · exact raiseFault_keeps_inv (h.setInputs rest) _ cw

/-! ## The counter laws (R31, R35) -/

/-- The counter laws speak of the packer and the unpacker only. -/
theorem State.CounterLaw.of_units {s t : State} (h : s.CounterLaw) (hpk : t.pk = s.pk) (hun : t.un = s.un) :
    t.CounterLaw := by
  obtain ⟨hpa, hpd, hua, hud⟩ := h
  constructor <;> simpa only [hpk, hun]

theorem State.CounterLaw.setPk {s : State} (h : s.CounterLaw) {p : Packer}
    (hactive : p.pact = true → p.pbytecnt * 8 + p.pcnt.setWidth 32 = p.pbitcnt)
    (hdone : p.pdone = true → p.pbytecnt * 8 - p.padcnt.setWidth 32 = p.pbitcnt) : (s.setPk p).CounterLaw :=
  { h with packActive := hactive, packDone := hdone }

theorem State.CounterLaw.setUn {s : State} (h : s.CounterLaw) {u : Unpacker}
    (hactive : u.uact = true → u.ubitcnt + (if u.uholdv then 8 else 0) = u.ubytecnt * 8)
    (hdone : u.udone = true → u.ubytecnt * 8 - u.upad.setWidth 32 = u.ubitcnt) : (s.setUn u).CounterLaw :=
  { h with unpackActive := hactive, unpackDone := hdone }

/-- After reset every counter is 0 and no session is active or done (R65). -/
theorem State.resetWith_counters (cfg : Config) (ins : List HostInput) : (State.resetWith cfg ins).CounterLaw := by
  constructor <;> exact fun hflag => absurd hflag Bool.false_ne_true

/-! ### The checks of `PEND` and `UEND` -/

theorem pend_checks (s : State) : firstFault (checksOf .pend s) = none ↔ s.pk.pact = true := by
  simp [firstFault_none, checksOf]

theorem uend_checks (s : State) :
    firstFault (checksOf .uend s) = none ↔ s.un.uact = true ∧ (s.un.uholdv = false → s.un.upad = 0) := by
  simp [firstFault_none, checksOf]

/-! ### Packer -/

theorem startPack_keeps_counters {s : State} (h : s.CounterLaw) : (startPack s).CounterLaw :=
  h.setPk (by simp) (by simp)

/-- A bit moves the bit counter by 1 and the bits held by 1, or by a byte less 7 (R141). -/
theorem packBit_keeps_counters {s : State} (h : s.CounterLaw) (hact : s.pk.pact = true) (hnot : s.pk.pdone = false)
    (x : Bool) : (packBit s x).CounterLaw := by
  have hlaw := h.packActive hact
  unfold packBit
  split
  next hfull =>
    refine (h.of_units rfl rfl : (s.emitByte _).CounterLaw).setPk (fun _ => ?_) (by simp [hnot])
    rw [hfull] at hlaw
    dsimp only
    bv_omega
  next hroom =>
    refine h.setPk (fun _ => ?_) (by simp [hnot])
    dsimp only
    bv_omega

theorem packBits_keeps_counters {s : State} (h : s.CounterLaw) (hact : s.pk.pact = true) (hnot : s.pk.pdone = false)
    (bs : Bits) : (packBits bs s).CounterLaw := by
  induction bs generalizing s with
  | nil => exact h
  | cons x bs ih => exact ih (packBit_keeps_counters h hact hnot x) (by simpa) (by simpa)

/-- The padded byte holds the bits left over and `PADCNT` more (R144). -/
theorem endPack_keeps_counters {s : State} (h : s.CounterLaw) (hact : s.pk.pact = true) : (endPack s).CounterLaw := by
  have hlaw := h.packActive hact
  unfold endPack
  split
  next hheld =>
    refine (h.of_units rfl rfl : (s.emitByte _).CounterLaw).setPk (by simp) fun _ => ?_
    dsimp only
    bv_omega
  next hnone =>
    refine h.setPk (by simp) fun _ => ?_
    dsimp only
    bv_omega

/-! ### Unpacker -/

theorem startUnpack_keeps_counters {s : State} (h : s.CounterLaw) (pad : BitVec 3) (dst : Dest) :
    (startUnpack pad dst s).CounterLaw :=
  h.setUn (by simp) (by simp)

/-- A release counts its bits and leaves the rest of the unpacker alone, routed or not (R162). -/
theorem release_un (y : Byte) (k : Nat) (s : State) (hk : k ≤ 8) :
    (release y k s).un = { s.un with ubitcnt := s.un.ubitcnt + BitVec.ofNat 32 k } := by
  cases hdst : s.un.udst with
  | bitOut => rw [release_unrouted y k s hdst hk]; rfl
  | decoder => rw [release_routed y k s hdst hk, decodeBits_un]; rfl

theorem releaseHeld_un (k : Nat) (s : State) (hk : k ≤ 8) :
    (releaseHeld k s).un =
      { s.un with ubitcnt := s.un.ubitcnt + if s.un.uholdv then BitVec.ofNat 32 k else 0 } := by
  unfold releaseHeld
  split
  · exact release_un _ k s hk
  · simp

@[simp] theorem releaseHeld_pk (k : Nat) (s : State) : (releaseHeld k s).pk = s.pk := by
  unfold releaseHeld; split <;> simp

/-- The byte held before is released whole, and the new one is held (R164). -/
theorem ubyte_keeps_counters {s : State} (h : s.CounterLaw) (hact : s.un.uact = true) (hnot : s.un.udone = false)
    (b : Byte) : (holdByte b (releaseHeld 8 s)).CounterLaw := by
  have hlaw := h.unpackActive hact
  have hun := releaseHeld_un 8 s le_rfl
  refine (h.setUn (u := (holdByte b (releaseHeld 8 s)).un) (fun _ => ?_) ?_).of_units (releaseHeld_pk 8 s) rfl
  · simp only [holdByte, State.setUn_un, hun, if_true, BitVec.add_mul]
    exact congrArg (· + _) hlaw
  · simp [holdByte, hun, hnot]

/-- The last byte is released without its padding bits (R165). -/
theorem uend_keeps_counters {s : State} (h : s.CounterLaw) (hact : s.un.uact = true)
    (hpad : s.un.uholdv = false → s.un.upad = 0) : (closeUnpack (flushLast s)).CounterLaw := by
  have hlaw := h.unpackActive hact
  have hun := releaseHeld_un (8 - s.un.upad.toNat) s (Nat.sub_le _ _)
  rw [flushLast_eq]
  refine (h.setUn (u := (closeUnpack (releaseHeld _ s)).un) (by simp [closeUnpack]) fun _ => ?_).of_units
    (releaseHeld_pk _ s) rfl
  simp only [closeUnpack, State.setUn_un, hun]
  cases hheld : s.un.uholdv with
  | false =>
    simp only [hheld, Bool.false_eq_true, if_false] at hlaw ⊢
    rw [hpad hheld, ← hlaw]
    simp
  | true =>
    simp only [hheld, if_true] at hlaw ⊢
    bv_omega

/-! ### Commands and steps -/

/-- The effect of a command whose checks pass keeps the counter laws. -/
theorem effectOf_keeps_counters {s : State} (hinv : s.Inv) (h : s.CounterLaw) (i : Instr)
    (hc : firstFault (checksOf i s) = none) : (effectOf i s).CounterLaw := by
  have hpdone : s.pk.pact = true → s.pk.pdone = false := by simpa using hinv.packFlags
  have hudone : s.un.uact = true → s.un.udone = false := by simpa using hinv.unpackFlags
  cases i with
  | nop => exact h
  | srst => exact (State.resetWith_counters s.cfg s.inputs).of_units rfl rfl
  | pstart => exact startPack_keeps_counters h
  | pbits n v =>
    obtain ⟨-, hact⟩ := (pbits_checks n v s).mp hc
    exact packBits_keeps_counters h hact (hpdone hact) _
  | pend => exact endPack_keeps_counters h ((pend_checks s).mp hc)
  | encs sym =>
    obtain ⟨hact, -⟩ := (encs_checks sym s).mp hc
    exact packBits_keeps_counters h hact (hpdone hact) _
  | ustart pad dst => exact startUnpack_keeps_counters h pad dst
  | ubyte b =>
    have hact := (ubyte_checks b s).mp hc
    exact ubyte_keeps_counters h hact (hudone hact) b
  | uend =>
    obtain ⟨hact, hpad⟩ := (uend_checks s).mp hc
    exact uend_keeps_counters h hact hpad
  | dbits n v => exact h.of_units (decodeBits_pk _ s) (decodeBits_un _ s)
  | wrsr r v => cases r <;> exact h.of_units rfl rfl
  | dstart | dend | tclr | tld _ _ _ | rdsr _ => exact h.of_units rfl rfl

/-- Every command keeps the counter laws: discarded, refused or done. -/
theorem exec_keeps_counters {s t : State} (hinv : s.Inv) (h : s.CounterLaw) (i : Instr)
    (hexec : exec i s = .next t) : t.CounterLaw := by
  rcases exec_cases i s t hexec with ⟨-, -, rfl⟩ | ⟨-, -, c, -, rfl⟩ | ⟨-, hc, rfl⟩
  · exact h
  · exact h.of_units rfl rfl
  · exact effectOf_keeps_counters hinv h i hc

theorem raiseFault_keeps_counters {s : State} (h : s.CounterLaw) (c : Cause) (cw : CmdWord) :
    (raiseFault c cw s).CounterLaw := by
  unfold raiseFault
  split
  · exact h
  · exact h.of_units rfl rfl

/-- Settles O45: each of the four ways a step can go keeps the counter laws. -/
theorem stepKeepsTheCounterLaws : Obligations.StepKeepsTheCounterLaws := by
  intro s t hinv h hstep
  have hrest (rest : List HostInput) : (s.setInputs rest).CounterLaw := h.of_units rfl rfl
  rcases step_cases s t hstep with ⟨-, rfl⟩ | ⟨rest, -, rfl⟩ | ⟨-, rest, i, -, -, hexec⟩ | ⟨cw, rest, e, -, -, rfl⟩
  · exact h
  · exact State.resetWith_counters _ _
  · exact exec_keeps_counters (hinv.setInputs rest) (hrest rest) i hexec
  · exact raiseFault_keeps_counters (hrest rest) _ cw

/-! ## Reset (R65) -/

/-- Settles O43. -/
theorem resetMeetsTheInvariants : Obligations.ResetMeetsTheInvariants := fun cfg ins hcfg =>
  ⟨State.resetWith_inv cfg ins hcfg, State.resetWith_counters cfg ins⟩

@[simp] theorem flagAt_false (k : Nat) : flagAt false k = 0 := by simp [flagAt]

theorem statusView_resetWith (cfg : Config) (ins : List HostInput) : (State.resetWith cfg ins).statusView = 0 := by
  simp [State.statusView, State.irq, State.faulted, Decoder.dead, State.resetWith, Control.reset, FaultRecord.reset,
    Packer.reset, Unpacker.reset, Decoder.reset]

theorem shownEntry_resetWith (cfg : Config) (ins : List HostInput) : (State.resetWith cfg ins).shownEntry = none := rfl

/-- The registers of the reset state, in the order of their numbers (R65). -/
theorem allRegisters_resetWith (cfg : Config) (ins : List HostInput) :
    allRegisters (State.resetWith cfg ins) =
      [0x48425055, 0, 0, 0, 0, 0, 0, 0, 0, 0, 0, 0, 0, 0, 0, 0, 0, 0, 0, 0, 0, 0, cfg.ctEntries] := by
  simp only [allRegisters, List.map_cons, List.map_nil, regRead, statusView_resetWith, State.tentSymView,
    State.tentLenView, State.tentCodeView, shownEntry_resetWith]
  simp [State.ctrlView, Packer.stateView, Unpacker.stateView, State.resetWith, Control.reset, FaultRecord.reset,
    Packer.reset, Unpacker.reset, Decoder.reset, CodeTable.reset, Dest.bit]

/-- Settles O42: the reset state is written out by its definition. -/
theorem resetValues : Obligations.ResetValues :=
  ⟨fun cfg ins => ⟨rfl, rfl, rfl, rfl, rfl, rfl, fun _ => rfl, rfl, rfl, allRegisters_resetWith cfg ins⟩, fun _ => rfl⟩

/-! ## The fault record (R26) -/

/-- What decodes has clear reserved bits and the operands of its row, and is well-formed (R101). -/
theorem decode_ok (cw : CmdWord) (i : Instr) (h : decode cw = .ok i) :
    reservedClear (Op.ofCode (opField cw)) cw = true
      ∧ withOperands (Op.ofCode (opField cw)) cw = some i ∧ i.wf = true := by
  unfold decode at h
  split at h
  next hreserved =>
    split at h
    next => cases h
    next j hoperands =>
      split at h
      next hwf => cases h; exact ⟨hreserved, hoperands, hwf⟩
      next => cases h
  next => cases h

theorem withOperands_op (op : Op) (cw : CmdWord) (i : Instr) (h : withOperands op cw = some i) : i.op = op := by
  cases op with
  | rdsr | wrsr =>
    obtain ⟨r, -, rfl⟩ := Option.map_eq_some_iff.mp h
    rfl
  | _ => cases h; rfl

/-- Only one word is the legal `SRST` (R217). -/
theorem decode_srst (cw : CmdWord) (h : decode cw = .ok .srst) : cw = 0x1000000000000000 := by
  obtain ⟨hreserved, hoperands, -⟩ := decode_ok cw _ h
  have hop : Op.ofCode (opField cw) = .srst := (withOperands_op _ cw _ hoperands).symm
  have hcode : opField cw = Op.srst.code := by rw [← hop, Op.code_ofCode]
  rw [hop] at hreserved
  have hjoin := formatZ_join cw (by simpa [reservedClear] using hreserved)
  rw [← hjoin, hcode]
  rfl

/-- In the faulted state no command but `SRST` writes the fault record. -/
theorem exec_keeps_record (i : Instr) (s t : State) (hf : s.faulted = true) (hi : i ≠ .srst)
    (h : exec i s = .next t) : t.flt = s.flt := by
  rcases exec_cases i s t h with ⟨-, -, rfl⟩ | ⟨hnot, -⟩ | ⟨-, -, rfl⟩
  · rfl
  · simp [hf] at hnot
  · exact effectOf_flt i s hi

/-- Settles O12: the step executes a command that is not `SRST`, or discards the word. -/
theorem firstFaultIsKept : Obligations.FirstFaultIsKept := by
  intro s t cw rest hin hf hcw hstep
  rcases step_cases s t hstep with
    ⟨-, rfl⟩ | ⟨rest', hin', -⟩ | ⟨cw', rest', i, hin', hd, hexec⟩ | ⟨cw', rest', e, -, -, rfl⟩
  · rfl
  · simp [hin] at hin'
  · obtain ⟨rfl, rfl⟩ : cw = cw' ∧ rest = rest' := by simpa [hin] using hin'
    exact exec_keeps_record i (s.setInputs rest) t hf (fun hi => hcw (decode_srst cw (hi ▸ hd))) hexec
  · rw [raiseFault, if_pos (by exact hf)]
    rfl

/-! ## The dead decoder (R37) -/

theorem decodeBits_cons (x : Bool) (bs : Bits) (s : State) :
    decodeBits (x :: bs) s = decodeBits bs (decodeBit s x) := rfl

/-- A dead decoder counts the bits it is given and does nothing else (R186). -/
theorem decodeBits_dead (bs : Bits) (s : State) (h : s.de.dclen = 33) :
    decodeBits bs s = s.setDe { s.de with dbitcnt := s.de.dbitcnt + BitVec.ofNat 32 bs.length } := by
  induction bs generalizing s with
  | nil => simp [decodeBits, State.setDe]
  | cons x bs ih =>
    rw [decodeBits_cons, decodeBit_dead s x h, ih _ (by exact h), List.length_cons, ← ofNat_succ_word]
    rfl

/-- A bit after 32 unmatched ones makes the decoder dead (R181). -/
theorem decodeBit_full (s : State) (x : Bool) (h : s.de.dclen = 32) :
    decodeBit s x = s.setDe { s.de with dbitcnt := s.de.dbitcnt + 1, dclen := 33 } := by
  rw [decodeBit, if_neg (by simp [h]), if_pos h]

theorem decodeBits_full (bs : Bits) (s : State) (h : s.de.dclen = 32) (hbs : bs ≠ []) :
    decodeBits bs s = s.setDe { s.de with dclen := 33, dbitcnt := s.de.dbitcnt + BitVec.ofNat 32 bs.length } := by
  obtain ⟨x, bs, rfl⟩ := List.exists_cons_of_ne_nil hbs
  rw [decodeBits_cons, decodeBit_full s x h, decodeBits_dead bs _ (by simp), List.length_cons, ← ofNat_succ_word]
  rfl

/-- Settles O26: the group passes its checks, and the closed forms of the loop at length 32 and 33 do the rest. -/
theorem deadDecoderOnlyCounts : Obligations.DeadDecoderOnlyCounts := by
  intro n v s hinv hf hact hn hunrouted
  have hroute : s.un.routed = false := by simpa [Unpacker.routed] using hunrouted
  have hexec : exec (.dbits n v) s = .next (decodeBits (str n.toNat v) s) :=
    exec_ok _ s hf ((dbits_checks n v s).mpr ⟨hn, hact, hroute⟩) (hinv.decodeDefined _)
  rw [hexec]
  refine ⟨fun hfull hpos => ?_, fun hdead => ?_⟩
  · have hne : str n.toNat v ≠ [] := List.ne_nil_of_length_pos (by rw [str_length]; exact hpos)
    rw [decodeBits_full _ s hfull hne, str_length]
    rfl
  · rw [decodeBits_dead _ s hdead, str_length]
    rfl

/-! ## The output sequences (R60) -/

/-- The four sequences, each with the values of another after its own. -/
def Outputs.append (o e : Outputs) : Outputs :=
  { byteOut := o.byteOut ++ e.byteOut, bitOut := o.bitOut ++ e.bitOut, symOut := o.symOut ++ e.symOut
    respOut := o.respOut ++ e.respOut }

@[simp] theorem Outputs.append_reset (o : Outputs) : o.append .reset = o := by simp [Outputs.append, Outputs.reset]

theorem Outputs.append_assoc (o a b : Outputs) : (o.append a).append b = o.append (a.append b) := by
  simp [Outputs.append]

/-- From this state the operation appends the same values whatever the sequences hold, and the rest of what it does is
the same. -/
def AppendsOnly (f : State → State) (s : State) : Prop :=
  ∃ e : Outputs, ∀ o, f (s.setOut o) = (f s).setOut (o.append e)

/-- An operation that leaves the sequences alone. -/
theorem AppendsOnly.of_silent {f : State → State} {s : State} (h : ∀ o, f (s.setOut o) = (f s).setOut o) :
    AppendsOnly f s :=
  ⟨.reset, fun o => (h o).trans (congrArg _ o.append_reset.symm)⟩

theorem AppendsOnly.comp {f g : State → State} {s : State} (hg : AppendsOnly g (f s)) (hf : AppendsOnly f s) :
    AppendsOnly (fun s => g (f s)) s := by
  obtain ⟨a, ha⟩ := hf
  obtain ⟨b, hb⟩ := hg
  exact ⟨a.append b, fun o => by simp only [ha, hb, Outputs.append_assoc]⟩

theorem AppendsOnly.foldl {β : Type} {f : State → β → State} (h : ∀ s x, AppendsOnly (f · x) s) (l : List β)
    (s : State) : AppendsOnly (l.foldl f) s := by
  induction l generalizing s with
  | nil => exact .of_silent fun _ => rfl
  | cons x l ih => exact (ih (f s x)).comp (h s x)

/-! ### The four streams, and the operations that emit on them -/

theorem emitByte_appendsOnly (y : Byte) (s : State) : AppendsOnly (·.emitByte y) s :=
  ⟨{ Outputs.reset with byteOut := [y] }, fun o => by simp [State.emitByte, Outputs.append, Outputs.reset, State.setOut]⟩

theorem emitBit_appendsOnly (x : Bool) (s : State) : AppendsOnly (·.emitBit x) s :=
  ⟨{ Outputs.reset with bitOut := [x] }, fun o => by simp [State.emitBit, Outputs.append, Outputs.reset, State.setOut]⟩

theorem emitSym_appendsOnly (v : Sym21) (s : State) : AppendsOnly (·.emitSym v) s :=
  ⟨{ Outputs.reset with symOut := [v] }, fun o => by simp [State.emitSym, Outputs.append, Outputs.reset, State.setOut]⟩

theorem emitResp_appendsOnly (v : Word) (s : State) : AppendsOnly (·.emitResp v) s :=
  ⟨{ Outputs.reset with respOut := [v] }, fun o => by simp [State.emitResp, Outputs.append, Outputs.reset, State.setOut]⟩

theorem setPk_appendsOnly (p : Packer) (s : State) : AppendsOnly (·.setPk p) s := .of_silent fun _ => rfl
theorem setUn_appendsOnly (u : Unpacker) (s : State) : AppendsOnly (·.setUn u) s := .of_silent fun _ => rfl
theorem setDe_appendsOnly (d : Decoder) (s : State) : AppendsOnly (·.setDe d) s := .of_silent fun _ => rfl

theorem packBit_appendsOnly (s : State) (x : Bool) : AppendsOnly (packBit · x) s := by
  by_cases hfull : s.pk.pcnt = 7 <;> simp only [AppendsOnly, packBit, State.setOut_pk, hfull, if_true, if_false]
  · exact (setPk_appendsOnly _ _).comp (emitByte_appendsOnly _ s)
  · exact setPk_appendsOnly _ s

theorem endPack_appendsOnly (s : State) : AppendsOnly endPack s := by
  by_cases hnone : s.pk.pcnt = 0 <;>
    simp only [AppendsOnly, endPack, State.setOut_pk, hnone, ne_eq, not_true, not_false_iff, if_true, if_false]
  · exact setPk_appendsOnly _ s
  · exact (setPk_appendsOnly _ _).comp (emitByte_appendsOnly _ s)

theorem decodeBit_appendsOnly (s : State) (x : Bool) : AppendsOnly (decodeBit · x) s := by
  simp only [AppendsOnly, decodeBit, State.setOut_de, State.setOut_tab]
  by_cases hdead : s.de.dclen = 33
  · simp only [hdead, if_true]
    exact setDe_appendsOnly _ s
  by_cases hfull : s.de.dclen = 32
  · simp only [hfull, if_true]
    exact setDe_appendsOnly _ s
  simp only [hdead, hfull, if_false]
  cases s.tab.matchCode (s.de.dclen + 1) (shiftIn s.de.dcand x) with
  | some e => exact (setDe_appendsOnly _ _).comp (emitSym_appendsOnly e.sym s)
  | none => exact setDe_appendsOnly _ s

theorem releaseBit_appendsOnly (s : State) (x : Bool) : AppendsOnly (releaseBit · x) s := by
  simp only [AppendsOnly, releaseBit, State.setOut_un]
  cases s.un.udst with
  | bitOut => exact (emitBit_appendsOnly x _).comp (setUn_appendsOnly _ s)
  | decoder => exact (decodeBit_appendsOnly _ x).comp (setUn_appendsOnly _ s)

theorem releaseHeld_appendsOnly (k : Nat) (s : State) : AppendsOnly (releaseHeld k) s := by
  by_cases hheld : s.un.uholdv = true <;>
    simp only [AppendsOnly, releaseHeld, State.setOut_un, hheld, if_true, Bool.false_eq_true]
  · exact AppendsOnly.foldl releaseBit_appendsOnly ((bin8 s.un.uhold).take k) s
  · exact AppendsOnly.of_silent (f := id) (s := s) fun _ => rfl

theorem effectOf_appendsOnly (i : Instr) (s : State) : AppendsOnly (effectOf i) s := by
  cases i with
  | pbits n v => exact .foldl packBit_appendsOnly _ s
  | encs sym => exact AppendsOnly.foldl packBit_appendsOnly (encodedBits s.tab sym) s
  | dbits n v => exact .foldl decodeBit_appendsOnly _ s
  | pend => exact endPack_appendsOnly s
  | ubyte b => exact AppendsOnly.comp (g := holdByte b) (.of_silent fun _ => rfl) (releaseHeld_appendsOnly 8 s)
  | uend =>
    exact AppendsOnly.comp (g := closeUnpack) (.of_silent fun _ => rfl)
      (releaseHeld_appendsOnly (8 - s.un.upad.toNat) s)
  | rdsr r =>
    have hread (o : Outputs) : regRead r (s.setOut o) = regRead r s := by cases r <;> rfl
    simpa only [AppendsOnly, effectOf, hread] using emitResp_appendsOnly (regRead r s) s
  | wrsr r v => exact .of_silent fun _ => by cases r <;> rfl
  | _ => exact .of_silent fun _ => rfl

/-! ### Commands -/

/-- An outcome with other output sequences. -/
def withOutputs (o : Outputs) : Result → Result
  | .next t => .next (t.setOut o)
  | .fault r => .fault r
  | .refused r => .refused r

/-- A command appends the same values whatever the sequences hold, and is otherwise answered the same (R60). -/
theorem exec_appendsOnly (i : Instr) (s : State) :
    ∃ e : Outputs, ∀ o, exec i (s.setOut o) = withOutputs (o.append e) (exec i s) := by
  obtain ⟨e, he⟩ := effectOf_appendsOnly i s
  have hchecks (o : Outputs) : checksOf i (s.setOut o) = checksOf i s := by cases i <;> rfl
  have hbits (o : Outputs) : decoderBits i (s.setOut o) = decoderBits i s := by cases i <;> rfl
  have hfaulted (o : Outputs) : (s.setOut o).faulted = s.faulted := rfl
  have hundef (o : Outputs) :
      (s.setOut o).decodeUndefined (decoderBits i s) = s.decodeUndefined (decoderBits i s) := rfl
  simp only [exec_eq, guardedDecode, guarded, hchecks, hbits, hfaulted, hundef, he]
  split_ifs
  · exact ⟨e, fun _ => rfl⟩
  · exact ⟨.reset, fun _ => rfl⟩
  · exact ⟨.reset, fun o => by rw [Outputs.append_reset]; rfl⟩
  · cases firstFault (checksOf i s) with
    | none => exact ⟨e, fun _ => rfl⟩
    | some c => exact ⟨.reset, fun o => by rw [Outputs.append_reset]; rfl⟩

/-- Settles O46: the values appended are those of `exec_appendsOnly`, at the sequences of the state itself and at any
others. -/
theorem outputsOnlyGrowAndAreNotRead : Obligations.OutputsOnlyGrowAndAreNotRead := by
  intro i s o
  obtain ⟨e, he⟩ := exec_appendsOnly i s
  refine ⟨fun t ht => ⟨e.byteOut, e.bitOut, e.symOut, e.respOut, ?_, ?_⟩,
    fun hinv => exec_answers i s (hinv.decodeDefined _), fun r hr => ?_⟩
  · have hself : exec i s = withOutputs (s.out.append e) (exec i s) := he s.out
    rw [ht] at hself
    exact congrArg State.out (Host.Outcome.next.inj hself)
  · rw [ht] at he
    exact he o
  · rw [hr] at he
    exact he o

/-! ## What the registers show (R25, R41) -/

theorem faulted_eq (s : State) : s.faulted = decide (s.flt.fcause ≠ 0) := by
  simp [State.faulted, bne, Bool.beq_eq_decide_eq]

theorem irq_eq (s : State) : s.irq = (s.ctl.fie && decide (s.flt.fcause ≠ 0)) := by rw [State.irq, faulted_eq]

theorem dead_eq (d : Decoder) : d.dead = decide (d.dclen = 33) := by
  simp [Decoder.dead, Bool.beq_eq_decide_eq]

/-- Bit by bit, the flags of `STATUS` (R25). -/
theorem statusView_getLsbD (s : State) (k : Nat) :
    s.statusView.getLsbD k =
      (decide (k = 31) && s.faulted || decide (k = 8) && s.irq || decide (k = 7) && s.de.dead
        || decide (k = 6) && s.de.trail || decide (k = 5) && s.de.ddone || decide (k = 4) && s.de.dact
        || decide (k = 3) && s.un.udone || decide (k = 2) && s.un.uact || decide (k = 1) && s.pk.pdone
        || decide (k = 0) && s.pk.pact) := by
  simp (disch := decide) only [State.statusView, BitVec.getLsbD_or, getLsbD_flagAt]

/-- Settles O38: each flag stands at a bit of its own. -/
theorem statusBits : Obligations.StatusBits := by
  refine ⟨fun cfg ins => ⟨statusView_resetWith cfg ins, rfl⟩, fun s => ?_⟩
  simp only [regRead, statusView_getLsbD]
  refine ⟨by simp, by simp, by simp, by simp, by simp, by simp, by simp, by simp [dead_eq], by simp [irq_eq], irq_eq s,
    fun k hlow hhigh => ?_, by simp [faulted_eq]⟩
  simp (disch := omega) only [decide_eq_false, Bool.false_and, Bool.or_false]

theorem shownEntry_valid (s : State) (h : s.ctl.tidx.toNat < s.tab.tcount.toNat) :
    s.shownEntry = some (s.tab.mem.read s.ctl.tidx.toNat) := if_pos h

theorem shownEntry_invalid (s : State) (h : s.tab.tcount.toNat ≤ s.ctl.tidx.toNat) : s.shownEntry = none :=
  if_neg (Nat.not_lt.mpr h)

/-- `TENTSYM` of a valid entry, bit by bit: the valid bit, and the symbol from bit 20 down. -/
theorem tentSymView_getLsbD (s : State) (e : Entry) (h : s.shownEntry = some e) (k : Nat) :
    s.tentSymView.getLsbD k = (decide (k = 31) || e.sym.getLsbD k) := by
  have hview : s.tentSymView = flagAt true 31 ||| e.sym.setWidth 32 := by rw [State.tentSymView, h]; rfl
  rw [hview, BitVec.getLsbD_or, getLsbD_flagAt _ _ _ (by decide), Bool.and_true, BitVec.getLsbD_setWidth]
  by_cases hk : k < 32
  · simp [hk]
  · simp [hk, e.sym.getLsbD_of_ge k (by omega)]

/-- A write to a register that is not writable is refused as an illegal command (R220). -/
theorem exec_wrsr_readOnly (r : Reg) (v : Word) (s : State) (hf : s.faulted = false) (hr : writeOk r v = false) :
    exec (.wrsr r v) s = refusedWith 1 (.wrsr r v) s :=
  exec_fault _ s .illegalCmd hf (by simp [checksOf, firstFault, hr])

/-- Settles O40: the entry selected, or none, decides all three views. -/
theorem tentShowsTheEntry : Obligations.TentShowsTheEntry := by
  intro s
  refine ⟨fun hvalid => ?_, fun hinvalid => ?_, fun r v hr hf => exec_wrsr_readOnly r v s hf ?_⟩
  · have hshown := shownEntry_valid s hvalid
    have hbit := tentSymView_getLsbD s _ hshown
    generalize s.tab.mem.read s.ctl.tidx.toNat = e at hshown hbit
    simp only [regRead, State.tentLenView, State.tentCodeView, hshown, hbit]
    refine ⟨by simp, BitVec.eq_of_getLsbD_eq fun k hk => ?_, BitVec.eq_of_getLsbD_eq fun k hk => ?_,
      BitVec.toNat_setWidth_of_le (by decide), trivial⟩
    · simp [hbit, hk, show k ≠ 31 by omega]
    · simp [hbit, show 21 + k ≠ 31 by omega]
  · simp [regRead, State.tentSymView, State.tentLenView, State.tentCodeView, shownEntry_invalid s hinvalid]
  · rcases hr with rfl | rfl | rfl <;> rfl

end Sys2Proof.Machine

/-! # Memory (20_memory.md): the table is constant while a session is active -/

namespace Sys2Proof.Machine

/-! ## Only the table family and `SRST` write the table -/

@[simp] theorem endPack_tab (s : State) : (endPack s).tab = s.tab := by unfold endPack; split <;> rfl
@[simp] theorem releaseHeld_tab (k : Nat) (s : State) : (releaseHeld k s).tab = s.tab := by
  unfold releaseHeld; split <;> simp

/-- No effect but those of the table family and of `SRST` writes the table. -/
theorem effectOf_tab (i : Instr) (s : State) (htable : isTableCmd i = false) (hi : i ≠ .srst) :
    (effectOf i s).tab = s.tab := by
  cases i with
  | srst => exact absurd rfl hi
  | tclr => exact Bool.noConfusion htable
  | tld sym len code => exact Bool.noConfusion htable
  | pbits n v => exact packBits_tab _ s
  | encs sym => exact packBits_tab _ s
  | pend => exact endPack_tab s
  | ubyte b => exact releaseHeld_tab 8 s
  | uend => exact releaseHeld_tab _ s
  | dbits n v => exact decodeBits_tab _ s
  | wrsr r v => cases r <;> rfl
  | _ => rfl

/-! ## The table family while a session is active (R80) -/

theorem tableLocked_iff (s : State) : s.tableLocked = true ↔ s.pk.pact = true ∨ s.de.dact = true := by
  simp [State.tableLocked]

/-- The session check stands among those of both commands of the family (R201, R202). -/
theorem tableLocked_mem_checksOf (i : Instr) (s : State) (htable : isTableCmd i = true) :
    (s.tableLocked, .seq) ∈ checksOf i s := by
  cases i with
  | tclr => exact .head _
  | tld sym len code => exact .tail _ (.head _)
  | _ => exact Bool.noConfusion htable

/-- `TCLR` has no check before that of the session. -/
theorem exec_tclr_locked (s : State) (hlocked : s.tableLocked = true) (hf : s.faulted = false) :
    exec .tclr s = refusedWith 3 .tclr s :=
  exec_fault .tclr s .seq hf (by simp [checksOf, firstFault, hlocked])

/-- `TLD` checks the length of the code before the session. -/
theorem exec_tld_locked (sym : Sym21) (len : BitVec 6) (code : Word) (s : State) (hlocked : s.tableLocked = true)
    (hf : s.faulted = false) (hlen : 1 ≤ len.toNat ∧ len.toNat ≤ 32) :
    exec (.tld sym len code) s = refusedWith 3 (.tld sym len code) s :=
  exec_fault _ s .seq hf (by simp [checksOf, tldChecks, codeLenOk, firstFault, hlen, hlocked])

/-- Discarded, refused or done, a command other than `SRST` leaves a locked table as it is: one of the table family is
never done. -/
theorem exec_tab_locked (i : Instr) (s t : State) (hlocked : s.tableLocked = true) (hi : i ≠ .srst)
    (h : exec i s = .next t) : t.tab = s.tab := by
  rcases exec_cases i s t h with ⟨-, -, rfl⟩ | ⟨-, -, c, -, rfl⟩ | ⟨-, hchecks, rfl⟩
  · rfl
  · rfl
  · cases htable : isTableCmd i with
    | false => exact effectOf_tab i s htable hi
    | true =>
      have hunlocked : s.tableLocked = false :=
        check_passed i s hchecks _ (tableLocked_mem_checksOf i s htable)
      exact absurd hlocked (Bool.eq_false_iff.mp hunlocked)

/-- Settles O33: the session check refuses the table family, and no other command but `SRST` writes the table. -/
theorem tableIsStableInASession : Obligations.TableIsStableInASession := by
  intro s hsession
  have hlocked := (tableLocked_iff s).mpr hsession
  exact ⟨exec_tclr_locked s hlocked,
    fun sym len code hf hpos hle => exec_tld_locked sym len code s hlocked hf ⟨hpos, hle⟩,
    fun i t hi h => exec_tab_locked i s t hlocked hi h⟩

end Sys2Proof.Machine

/-! # Encoding (30_encoding.md): rows, masks and bad words, the word of a command, and the pseudo-instructions -/

namespace Sys2Proof

/-! ## A row's mask covers its opcode and its reserved bits (R98) -/

/-- The reserved fields of a row's format (R91 to R97), each as its lowest bit and its width. -/
def Op.reservedFields : Op → List (Nat × Nat)
  | .nop | .srst | .pstart | .pend | .uend | .dstart | .dend | .tclr => [(0, 60)]
  | .pbits | .dbits => [(59, 1), (32, 21)]
  | .encs => [(53, 7), (0, 32)]
  | .ustart => [(9, 51), (3, 5)]
  | .ubyte => [(8, 52)]
  | .tld => [(59, 1)]
  | .rdsr => [(40, 20), (0, 32)]
  | .wrsr => [(40, 20)]

theorem reservedClear_eq_all (op : Op) (cw : CmdWord) :
    reservedClear op cw = op.reservedFields.all fun f => cw.extractLsb' f.1 f.2 == 0 := by
  cases op <;> simp [reservedClear, Op.reservedFields]

theorem extract_eq_zero_iff (cw : CmdWord) (k n : Nat) :
    cw.extractLsb' k n = 0 ↔ ∀ i, k ≤ i → i < k + n → cw.getLsbD i = false := by
  constructor
  · intro h i hlo hhi
    have hbit := congrArg (·.getLsbD (i - k)) h
    simpa [show i - k < n by omega, Nat.add_sub_cancel' hlo] using hbit
  · intro h
    refine BitVec.eq_of_getLsbD_eq fun i hi => ?_
    simpa [hi] using h (k + i) (by omega) (by omega)

/-- Below the opcode, a row's mask has the bits of its reserved fields. -/
theorem Op.mask_getLsbD_iff (op : Op) (i : Nat) (hi : i < 60) :
    op.mask.getLsbD i = true ↔ ∃ f ∈ op.reservedFields, f.1 ≤ i ∧ i < f.1 + f.2 := by
  have hall : ∀ i : Fin 60, op.mask.getLsbD i = true ↔ ∃ f ∈ op.reservedFields, f.1 ≤ i.val ∧ i.val < f.1 + f.2 := by
    cases op <;> decide
  exact hall ⟨i, hi⟩

theorem Op.reservedFields_below_opcode (op : Op) : ∀ f ∈ op.reservedFields, f.1 + f.2 ≤ 60 := by
  cases op <;> decide

/-- The reserved bits of a row are clear exactly when the mask keeps nothing below the opcode. -/
theorem reservedClear_iff_masked (op : Op) (cw : CmdWord) :
    reservedClear op cw = true ↔ (cw &&& op.mask).extractLsb' 0 60 = 0 := by
  simp only [reservedClear_eq_all, List.all_eq_true, beq_iff_eq, extract_eq_zero_iff, BitVec.getLsbD_and,
    Bool.and_eq_false_iff, Nat.zero_add]
  constructor
  · intro h i _ hi
    refine or_iff_not_imp_right.mpr fun hmask => ?_
    obtain ⟨f, hf, hlo, hhi⟩ := (op.mask_getLsbD_iff i hi).mp (by simpa using hmask)
    exact h f hf i hlo hhi
  · intro h f hf i hlo hhi
    have hi : i < 60 := by have := op.reservedFields_below_opcode f hf; omega
    have hmask : op.mask.getLsbD i = true := (op.mask_getLsbD_iff i hi).mpr ⟨f, hf, hlo, hhi⟩
    simpa [hmask] using h i (Nat.zero_le i) hi

theorem opField_and_mask (op : Op) (cw : CmdWord) : opField (cw &&& op.mask) = opField cw := by
  have hop : op.mask.extractLsb' 60 4 = BitVec.allOnes 4 := by cases op <;> decide
  rw [opField, BitVec.extractLsb'_and, hop, BitVec.and_allOnes, opField]

theorem Op.matchWord_eq (op : Op) : op.matchWord = formatZ op.code := by cases op <;> rfl

theorem eq_formatZ_iff (w : CmdWord) (c : BitVec 4) : w = formatZ c ↔ opField w = c ∧ w.extractLsb' 0 60 = 0 := by
  constructor
  · rintro rfl
    exact formatZ_fields c
  · rintro ⟨rfl, hlow⟩
    exact (formatZ_join w hlow).symm

/-- `cw & mask = match` says that the opcode is the row's and that its reserved bits are clear. -/
theorem matches_iff (op : Op) (cw : CmdWord) :
    cw &&& op.mask = op.matchWord ↔ opField cw = op.code ∧ reservedClear op cw = true := by
  rw [op.matchWord_eq, eq_formatZ_iff, opField_and_mask, reservedClear_iff_masked]

/-- A word matches no other row than the one it matches. -/
theorem matches_iff_eq {op : Op} {cw : CmdWord} (h : cw &&& op.mask = op.matchWord) (b : Op) :
    cw &&& b.mask = b.matchWord ↔ op = b := by
  constructor
  · intro hb
    rw [← op.ofCode_code, ← ((matches_iff op cw).mp h).1, ((matches_iff b cw).mp hb).1, Op.ofCode_code]
  · rintro rfl
    exact h

/-! ## Decoding by rows (R100, R101) -/

/-- Every opcode has a row, so a word of no row has a reserved bit of its opcode's row set. -/
theorem decode_of_no_row (cw : CmdWord) (h : ∀ op : Op, cw &&& op.mask ≠ op.matchWord) :
    decode cw = .error .illegalCmd := by
  have hreserved : reservedClear (Op.ofCode (opField cw)) cw ≠ true :=
    fun hclear => h _ ((matches_iff _ cw).mpr ⟨(Op.code_ofCode _).symm, hclear⟩)
  simp [decode, hreserved]

theorem decode_of_no_register {op : Op} {cw : CmdWord} (h : cw &&& op.mask = op.matchWord)
    (hnone : withOperands op cw = none) : decode cw = .error .illegalCmd := by
  obtain ⟨hop, hreserved⟩ := (matches_iff op cw).mp h
  simp [decode, hop, hreserved, hnone]

theorem decode_of_operands {op : Op} {cw : CmdWord} {i : Instr} (h : cw &&& op.mask = op.matchWord)
    (hsome : withOperands op cw = some i) : decode cw = if i.wf then .ok i else .error (operandError i) := by
  obtain ⟨hop, hreserved⟩ := (matches_iff op cw).mp h
  simp [decode, hop, hreserved, hsome]

/-- Only a register number can leave a word of a row without a command. -/
theorem withOperands_eq_none {op : Op} {cw : CmdWord} (h : withOperands op cw = none) : op = .rdsr ∨ op = .wrsr := by
  cases op with
  | rdsr => exact .inl rfl
  | wrsr => exact .inr rfl
  | _ => cases h

/-- The operands out of range, and what each makes of the word. -/
theorem operandError_cases (i : Instr) (h : i.wf = false) :
    ((i.op = .pbits ∨ i.op = .dbits ∨ i.op = .tld) ∧ operandError i = .badOperand)
      ∨ (i.op = .wrsr ∧ operandError i = .illegalCmd) := by
  cases i with
  | pbits => exact .inl ⟨.inl rfl, rfl⟩
  | dbits => exact .inl ⟨.inr (.inl rfl), rfl⟩
  | tld => exact .inl ⟨.inr (.inr rfl), rfl⟩
  | wrsr => exact .inr ⟨rfl, rfl⟩
  | _ => cases h

end Sys2Proof

namespace Sys2Proof.Machine

/-- What decodes is a command of a row the word matches, with the row's operands. -/
theorem decode_ok_row {cw : CmdWord} {i : Instr} (h : decode cw = .ok i) :
    cw &&& i.op.mask = i.op.matchWord ∧ withOperands i.op cw = some i ∧ i.wf = true := by
  obtain ⟨hreserved, hoperands, hwf⟩ := decode_ok cw i h
  have hop : i.op = Op.ofCode (opField cw) := withOperands_op _ cw i hoperands
  rw [← hop] at hreserved hoperands
  exact ⟨(matches_iff i.op cw).mpr ⟨by rw [hop, Op.code_ofCode], hreserved⟩, hoperands, hwf⟩

/-- A word of a row is a command of the row, or is refused as the row's operands allow. -/
theorem decode_row_cases {op : Op} {cw : CmdWord} (h : cw &&& op.mask = op.matchWord) :
    (∃ i : Instr, decode cw = .ok i ∧ i.op = op)
      ∨ ((op = .pbits ∨ op = .dbits ∨ op = .tld) ∧ decode cw = .error .badOperand)
      ∨ ((op = .rdsr ∨ op = .wrsr) ∧ decode cw = .error .illegalCmd) := by
  cases hoperands : withOperands op cw with
  | none => exact .inr (.inr ⟨withOperands_eq_none hoperands, decode_of_no_register h hoperands⟩)
  | some i =>
    have hd := decode_of_operands h hoperands
    obtain rfl : i.op = op := withOperands_op op cw i hoperands
    cases hwf : i.wf with
    | true => exact .inl ⟨i, by simpa [hwf] using hd, rfl⟩
    | false =>
      simp only [hwf, Bool.false_eq_true, if_false] at hd
      rcases operandError_cases i hwf with ⟨hrow, he⟩ | ⟨hrow, he⟩
      · exact .inr (.inl ⟨hrow, he ▸ hd⟩)
      · exact .inr (.inr ⟨.inr hrow, he ▸ hd⟩)

/-! ## The word of a command (R98 to R101) -/

/-- Settles O1. -/
theorem decodeOfEncode : Obligations.DecodeOfEncode := decode_encode

/-- A word of a row is laid out from the operands read from it: no bit is left over. -/
theorem encode_withOperands {op : Op} {cw : CmdWord} {i : Instr} (h : cw &&& op.mask = op.matchWord)
    (hoperands : withOperands op cw = some i) : encode i = cw := by
  obtain ⟨hop, hreserved⟩ := (matches_iff op cw).mp h
  cases op with
  | pbits | dbits =>
    cases hoperands
    simp only [reservedClear, Bool.and_eq_true, beq_iff_eq] at hreserved
    rw [encode, ← hop]
    exact formatB_join cw hreserved.1 hreserved.2
  | encs =>
    cases hoperands
    simp only [reservedClear, Bool.and_eq_true, beq_iff_eq] at hreserved
    rw [encode, ← hop]
    exact formatS_join cw hreserved.1 hreserved.2
  | ustart =>
    cases hoperands
    simp only [reservedClear, Bool.and_eq_true, beq_iff_eq] at hreserved
    rw [encode, Dest.bit_ofBit, ← hop]
    exact formatU_join cw hreserved.1 hreserved.2
  | ubyte =>
    cases hoperands
    rw [encode, ← hop]
    exact formatY_join cw (by simpa [reservedClear] using hreserved)
  | tld =>
    cases hoperands
    rw [encode, ← hop]
    exact formatT_join cw (by simpa [reservedClear] using hreserved)
  | rdsr =>
    obtain ⟨r, hr, rfl⟩ := Option.map_eq_some_iff.mp hoperands
    simp only [reservedClear, Bool.and_eq_true, beq_iff_eq] at hreserved
    have hjoin := formatR_join cw hreserved.1
    rw [valueField, hreserved.2, hop] at hjoin
    rw [encode, Reg.number_ofNumber _ r hr]
    exact hjoin
  | wrsr =>
    obtain ⟨r, hr, rfl⟩ := Option.map_eq_some_iff.mp hoperands
    rw [encode, Reg.number_ofNumber _ r hr, ← hop]
    exact formatR_join cw (by simpa [reservedClear] using hreserved)
  | _ =>
    cases hoperands
    rw [encode, ← hop]
    exact formatZ_join cw (by simpa [reservedClear] using hreserved)

/-- Settles O2: the word is laid out from the operands of its row. -/
theorem encodeOfDecode : Obligations.EncodeOfDecode := by
  intro cw i h
  obtain ⟨hrow, hoperands, hwf⟩ := decode_ok_row h
  exact ⟨encode_withOperands hrow hoperands, hwf⟩

/-- Settles O3. -/
theorem maskAndMatchSelectTheRow : Obligations.MaskAndMatchSelectTheRow :=
  ⟨fun _ _ h => (decode_ok_row h).1, fun _ _ h => decode_row_cases h,
    fun _ _ b ha hb => (matches_iff_eq ha b).mp hb, decode_of_no_row⟩

/-- Settles O5: each word is the layout of its command. -/
theorem sampleWordsDecode : Obligations.SampleWordsDecode :=
  ⟨decode_encode .pend rfl, decode_encode (.pbits 3 5) rfl, decode_encode (.encs 0x61) rfl,
    decode_encode (.tld 0x61 2 2) rfl, decode_encode (.ustart 2 .decoder) rfl, decode_encode (.ubyte 0xAF) rfl,
    decode_encode (.wrsr .tidx 1) rfl⟩

/-! ## The bad words (R100) -/

theorem ofNumber_eq_none_iff (n : BitVec 8) : Reg.ofNumber n = none ↔ 0x16 < n.toNat := by
  revert n; decide

/-- `CTRL` and `TIDX` are the registers that can be written. -/
theorem writeOk_iff (r : Reg) (v : Word) :
    writeOk r v = true ↔ (r.number = 0x01 ∧ v.extractLsb' 2 30 = 0) ∨ r.number = 0x12 := by
  cases r <;> simp [writeOk, Reg.number]

/-- How a word of a row is refused: for a register that does not exist, or an operand out of range. -/
theorem decode_error_iff {op : Op} {cw : CmdWord} (h : cw &&& op.mask = op.matchWord) (e : DecodeError) :
    decode cw = .error e ↔ (withOperands op cw = none ∧ e = .illegalCmd)
      ∨ ∃ i, withOperands op cw = some i ∧ i.wf = false ∧ operandError i = e := by
  cases hoperands : withOperands op cw with
  | none => simp [decode_of_no_register h hoperands, eq_comm (a := DecodeError.illegalCmd)]
  | some i =>
    rw [decode_of_operands h hoperands]
    cases hwf : i.wf <;> simp [hwf]


theorem groupCountOk_eq_false_iff (n : BitVec 6) : groupCountOk n = false ↔ 32 < n.toNat := by simp [groupCountOk]

theorem codeLenOk_eq_false_iff (len : BitVec 6) : codeLenOk len = false ↔ len = 0 ∨ 32 < len.toNat := by
  have hzero : len = 0 ↔ len.toNat = 0 := by simp [← BitVec.toNat_inj]
  rw [hzero, codeLenOk, Bool.and_eq_false_iff, decide_eq_false_iff_not, decide_eq_false_iff_not]
  omega

/-- R100 (b) to (d): of the words of a row only `RDSR` and `WRSR` can be illegal, by their register or its value. -/
theorem decode_illegal_row_iff {op : Op} {cw : CmdWord} (h : cw &&& op.mask = op.matchWord) :
    decode cw = .error .illegalCmd ↔
      ((op = .rdsr ∨ op = .wrsr) ∧ 0x16 < (regField cw).toNat)
        ∨ (op = .wrsr ∧ regField cw ≠ 0x01 ∧ regField cw ≠ 0x12)
        ∨ (op = .wrsr ∧ regField cw = 0x01 ∧ (valueField cw).extractLsb' 2 30 ≠ 0) := by
  rw [decode_error_iff h]
  cases op with
  | rdsr => simp [withOperands, ofNumber_eq_none_iff, Instr.wf]
  | wrsr =>
    cases hr : Reg.ofNumber (regField cw) with
    | none =>
      have hlarge := (ofNumber_eq_none_iff _).mp hr
      simp [withOperands, hr, hlarge]
    | some r =>
      have hsmall : ¬ 0x16 < (regField cw).toNat := by simp [← ofNumber_eq_none_iff, hr]
      have hrefused : writeOk r (valueField cw) = false ↔
          ¬ ((regField cw = 0x01 ∧ (valueField cw).extractLsb' 2 30 = 0) ∨ regField cw = 0x12) := by
        rw [← Reg.number_ofNumber _ r hr, ← writeOk_iff, Bool.not_eq_true]
      simp only [withOperands, hr, Option.map_some, reduceCtorEq, false_or, Option.some.injEq,
        exists_eq_left', Instr.wf, operandError, and_true, hrefused]
      by_cases hctrl : regField cw = 1#8 <;> simp [hctrl, hsmall]
  | _ => simp [withOperands, operandError]

/-- The commands with a count or a length are the ones with a bad operand. -/
theorem decode_badOperand_row_iff {op : Op} {cw : CmdWord} (h : cw &&& op.mask = op.matchWord) :
    decode cw = .error .badOperand ↔
      ((op = .pbits ∨ op = .dbits) ∧ 32 < (countField cw).toNat)
        ∨ (op = .tld ∧ (countField cw = 0 ∨ 32 < (countField cw).toNat)) := by
  rw [decode_error_iff h]
  cases op with
  | pbits | dbits => simp [withOperands, Instr.wf, operandError, groupCountOk_eq_false_iff]
  | tld => simp [withOperands, Instr.wf, operandError, codeLenOk_eq_false_iff]
  | rdsr | wrsr => simp [withOperands, operandError, Instr.wf]
  | _ => simp [withOperands, Instr.wf]

/-- An unfaulted block records a word that is no command, with its cause, and goes on (R237, R238). -/
theorem step_bad_word {s : State} {cw : CmdWord} {rest : List HostInput} {e : DecodeError}
    (hin : s.inputs = .command cw :: rest) (hf : s.faulted = false) (hd : decode cw = .error e) :
    step s = .next (enterFault (causeOf e) cw (s.setInputs rest)) := by
  have hf' : (s.setInputs rest).faulted = false := hf
  simp [step, nextInput, hin, stepWord, hd, raiseFault, hf']

/-- Settles O4: a word of no row is illegal, and a word of a row is refused for its own row's operands. -/
theorem badWordsAreTheListedOnes : Obligations.BadWordsAreTheListedOnes := by
  intro cw
  refine ⟨?_, ?_, fun s rest hin hf => ⟨step_bad_word hin hf, step_bad_word hin hf⟩⟩
  · by_cases hrow : ∃ op : Op, cw &&& op.mask = op.matchWord
    · obtain ⟨op, h⟩ := hrow
      have hsome : ¬ ∀ op : Op, cw &&& op.mask ≠ op.matchWord := fun hnone => hnone op h
      simp only [matches_iff_eq h, hsome, false_or]
      exact decode_illegal_row_iff h
    · have hnone := not_exists.mp hrow
      exact iff_of_true (decode_of_no_row cw hnone) (.inl hnone)
  · by_cases hrow : ∃ op : Op, cw &&& op.mask = op.matchWord
    · obtain ⟨op, h⟩ := hrow
      simp only [matches_iff_eq h]
      exact decode_badOperand_row_iff h
    · have hnone := not_exists.mp hrow
      simp [decode_of_no_row cw hnone, hnone]

/-! ## The pseudo-instructions (R109) -/

theorem literal_of_fits {s : Bits} (h : s.length ≤ 32) :
    literal s = some (BitVec.ofNat 6 s.length, BitVec.ofNat 32 (val s)) := if_pos h

theorem literal_too_long {s : Bits} (h : 32 < s.length) : literal s = none := if_neg (by omega)

theorem literal_count {s : Bits} (h : s.length ≤ 32) : (BitVec.ofNat 6 s.length).toNat = s.length := by
  rw [BitVec.toNat_ofNat, Nat.mod_eq_of_lt (by omega)]

theorem literal_value {s : Bits} (h : s.length ≤ 32) : (BitVec.ofNat 32 (val s)).toNat = val s := by
  rw [BitVec.toNat_ofNat, Nat.mod_eq_of_lt ((val_lt s).trans_le (Nat.pow_le_pow_right (by omega) h))]

/-- Settles O6: the group of a literal that fits has its length, value and bits, so the expansion is well-formed. -/
theorem pseudoInstructionsExpand : Obligations.PseudoInstructionsExpand := by
  refine ⟨fun b => ⟨rfl, rfl, rfl⟩, fun s h => ?_, fun s sym h => ?_, fun _ => rfl⟩
  · have hcount := literal_count h
    have hgroup : groupCountOk (BitVec.ofNat 6 s.length) = true := by simp only [groupCountOk, hcount, h, decide_true]
    refine ⟨_, _, hcount, literal_value h, by rw [hcount, str_val s h], ?_, decode_encode (.pbits _ _) hgroup, ?_,
      decode_encode (.dbits _ _) hgroup, fun sym hne => ⟨?_, decode_encode (.tld _ _ _) ?_⟩⟩
    · simp [Pseudo.expand, literal_of_fits h]
    · simp [Pseudo.expand, literal_of_fits h]
    · simp [Pseudo.expand, literal_of_fits h, hne]
    · have hpos : 1 ≤ s.length := List.length_pos_iff.mpr hne
      simp only [Instr.wf, codeLenOk, hcount, h, hpos, decide_true, Bool.and_self]
  · simp [Pseudo.expand, literal_too_long h]

end Sys2Proof.Machine

/-! # Reference functions (40_reference_functions.md): packing, the codes of a legal table, and what sessions compute -/

namespace Sys2Proof.Machine

/-! ## Packing and unpacking (R121 to R124) -/

theorem padCount_le (L : Nat) : padCount L ≤ 7 := by unfold padCount; omega

/-- The padding fills the last byte (R121). -/
theorem add_padCount_mod (L : Nat) : (L + padCount L) % 8 = 0 := by unfold padCount; omega

@[simp] theorem length_flatMap_bin8 (Y : List Byte) : (Y.flatMap bin8).length = 8 * Y.length := by
  simp [List.length_flatMap, Nat.mul_comm]

/-- The text of the packed bytes is the bit string and its padding (R121). -/
theorem refPack_flatMap (B : Bits) :
    (refPack B).1.flatMap bin8 = B ++ List.replicate (padCount B.length) false := by
  have hrest : leftover (B ++ List.replicate (padCount B.length) false) = [] := by
    rw [← List.length_eq_zero_iff, length_leftover, List.length_append, List.length_replicate, add_padCount_mod]
  simpa [refPack, hrest] using flatMap_wholeBytes (B ++ List.replicate (padCount B.length) false)

/-- Packing answers the one list of bytes whose text is the bit string and at most 7 zero bits, with their number. -/
theorem refPack_eq_iff (B : Bits) (Y : List Byte) (p : Nat) :
    refPack B = (Y, p) ↔ p ≤ 7 ∧ Y.flatMap bin8 = B ++ List.replicate p false := by
  constructor
  · intro h
    obtain rfl : p = padCount B.length := (congrArg Prod.snd h).symm
    exact ⟨padCount_le _, by rw [← refPack_flatMap, h]⟩
  · rintro ⟨hp, hY⟩
    have hlen := congrArg List.length hY
    simp only [length_flatMap_bin8, List.length_append, List.length_replicate] at hlen
    have hpad : padCount B.length = p := by unfold padCount; omega
    have hbytes := (wholeBytes_flatMap_append Y [] (by simp)).1
    rw [List.append_nil, hY] at hbytes
    rw [refPack, hpad, hbytes]

/-- Unpacking answers the text of the bytes without its last `p` bits, for a `p` of at most 7 (R122). -/
theorem refUnpack_eq_some_iff (Y : List Byte) (p : Nat) (B : Bits) :
    refUnpack Y p = some B ↔ p ≤ 7 ∧ ∃ dropped : Bits, dropped.length = p ∧ Y.flatMap bin8 = B ++ dropped := by
  unfold refUnpack
  constructor
  · intro h
    split at h
    next hp =>
      obtain rfl := Option.some.inj h
      exact ⟨hp.1, (Y.flatMap bin8).drop (8 * Y.length - p), by simp; omega, (List.take_append_drop _ _).symm⟩
    next => cases h
  · rintro ⟨hp, dropped, rfl, hY⟩
    have hlen := congrArg List.length hY
    rw [length_flatMap_bin8, List.length_append] at hlen
    rw [if_pos ⟨hp, by omega⟩, hY, List.take_left' (by omega)]

/-- Unpacking undoes packing (R124 (a)). -/
theorem refUnpack_refPack (B : Bits) : refUnpack (refPack B).1 (refPack B).2 = some B :=
  (refUnpack_eq_some_iff _ _ _).mpr ⟨padCount_le _, _, List.length_replicate, refPack_flatMap B⟩

/-- The last bits of the text of some bytes are those of the last byte. -/
theorem drop_bin8_getLast {Y : List Byte} {y : Byte} (hy : Y.getLast? = some y) {B dropped : Bits}
    (hlen : dropped.length ≤ 8) (hY : Y.flatMap bin8 = B ++ dropped) :
    (bin8 y).drop (8 - dropped.length) = dropped := by
  obtain ⟨Z, rfl⟩ := List.getLast?_eq_some_iff.mp hy
  have htext : Z.flatMap bin8 ++ bin8 y = B ++ dropped := by simpa using hY
  have hsuffix : dropped <:+ bin8 y :=
    List.suffix_of_suffix_length_le (List.suffix_append B dropped) ⟨_, htext⟩ (by simpa using hlen)
  simpa using (List.suffix_iff_eq_drop.mp hsuffix).symm

/-- Settles O48: packing is the one list of bytes whose text is the bit string and its zero padding, and unpacking drops
as many bits, whatever they are. -/
theorem packingLaws : Obligations.PackingLaws := by
  refine ⟨fun B => ⟨refUnpack_refPack B, ?_, padCount_le _, fun h => ?_, fun y hy => ?_⟩, fun Y p B hB => ?_⟩
  · have hlen := congrArg List.length (refPack_flatMap B)
    rw [length_flatMap_bin8, List.length_append, List.length_replicate] at hlen
    show _ - padCount B.length = _
    omega
  · show padCount B.length = 0
    unfold padCount; omega
  · have hlast := drop_bin8_getLast hy (by simpa using (padCount_le B.length).trans (by decide)) (refPack_flatMap B)
    rwa [List.length_replicate] at hlast
  · obtain ⟨hp, dropped, rfl, hY⟩ := (refUnpack_eq_some_iff Y p B).mp hB
    rw [refPack_eq_iff, hY, List.append_cancel_left_eq]
    refine ⟨fun h y hy => (drop_bin8_getLast hy (by omega) hY).trans h.2, fun h => ⟨hp, ?_⟩⟩
    cases hlast : Y.getLast? with
    | none =>
      rw [List.getLast?_eq_none_iff.mp hlast] at hY
      simp [(List.append_eq_nil_iff.mp hY.symm).2]
    | some y => exact (drop_bin8_getLast hlast (by omega) hY).symm.trans (h y hlast)

/-! ## The codes of a legal table (R125) -/

/-- A search finds the one member that fits. -/
theorem find?_eq_of_unique {α : Type} {l : List α} {f : α → Bool} {a : α} (ha : a ∈ l) (hf : f a = true)
    (hone : ∀ b ∈ l, f b = true → b = a) : l.find? f = some a := by
  obtain ⟨b, hb⟩ := Option.isSome_iff_exists.mp (List.find?_isSome.mpr ⟨a, ha, hf⟩)
  rw [hb, hone b (List.mem_of_find?_eq_some hb) (List.find?_some hb)]

theorem CodeMap.Legal.code_ne_nil {T : CodeMap} (h : T.Legal) : ∀ p ∈ T, p.2 ≠ [] := h.2.2

theorem CodeMap.Legal.eq_of_sym {T : CodeMap} (h : T.Legal) {p q : Sym21 × Bits} (hp : p ∈ T) (hq : q ∈ T)
    (hsym : q.1 = p.1) : q = p := by
  have : Std.Symm fun a b : Sym21 × Bits => a.1 ≠ b.1 := ⟨fun _ _ => Ne.symm⟩
  obtain ⟨hsyms, -, -⟩ := h
  by_contra hne
  exact hsyms.forall hq hp hne hsym

theorem CodeMap.Legal.eq_of_prefix {T : CodeMap} (h : T.Legal) {p q : Sym21 × Bits} (hp : p ∈ T) (hq : q ∈ T)
    (hpre : q.2 <+: p.2) : q = p := by
  have : Std.Symm fun a b : Sym21 × Bits => ¬ a.2 <+: b.2 ∧ ¬ b.2 <+: a.2 := ⟨fun _ _ => And.symm⟩
  obtain ⟨-, hfree, -⟩ := h
  by_contra hne
  exact (hfree.forall hq hp hne).1 hpre

theorem CodeMap.Legal.codeOf_of_mem {T : CodeMap} (h : T.Legal) {p : Sym21 × Bits} (hp : p ∈ T) :
    T.codeOf p.1 = some p.2 := by
  rw [CodeMap.codeOf, find?_eq_of_unique hp (by simp) fun q hq hqp => h.eq_of_sym hp hq (by simpa using hqp)]
  rfl

theorem CodeMap.Legal.symOf_of_mem {T : CodeMap} (h : T.Legal) {p : Sym21 × Bits} (hp : p ∈ T) :
    T.symOf p.2 = some p.1 := by
  have hone (q : Sym21 × Bits) (hq : q ∈ T) (hqp : (q.2 == p.2) = true) : q = p :=
    h.eq_of_prefix hp hq (beq_iff_eq.mp hqp ▸ List.prefix_rfl)
  rw [CodeMap.symOf, find?_eq_of_unique hp (by simp) hone]
  rfl

theorem CodeMap.symOf_eq_none_iff (T : CodeMap) (c : Bits) : T.symOf c = none ↔ ∀ p ∈ T, p.2 ≠ c := by
  simp [CodeMap.symOf]

/-- The rest of a code, read after its start, gives its symbol: no shorter code comes in between (R127). -/
theorem decodeLoop_code {T : CodeMap} (h : T.Legal) {p : Sym21 × Bits} (hp : p ∈ T) (rest cand : Bits)
    (hrest : rest ≠ []) (hcode : cand ++ rest = p.2) : decodeLoop T cand rest = ([p.1], []) := by
  induction rest generalizing cand with
  | nil => exact absurd rfl hrest
  | cons x rest ih =>
    have hcode' : cand ++ [x] ++ rest = p.2 := by simpa using hcode
    rcases eq_or_ne rest [] with rfl | hmore
    · rw [decodeLoop_cons_some T cand [] x p.1 (by rw [hcode]; exact h.symOf_of_mem hp), decodeLoop_nil]
    · have hnone : T.symOf (cand ++ [x]) = none := by
        refine (T.symOf_eq_none_iff _).mpr fun q hq hqc => hmore ?_
        have hqp := h.eq_of_prefix hp hq (by rw [hqc, ← hcode']; exact List.prefix_append _ _)
        rw [← hqp, hqc] at hcode'
        simpa using hcode'
      rw [decodeLoop_cons_none T cand rest x hnone, ih (cand ++ [x]) hmore hcode']

/-- A text over the symbols of a legal table has an encoding, and decoding it gives the text back (R132). -/
theorem decodeLoop_encodeLoop {T : CodeMap} (h : T.Legal) (X : List Sym21) (hX : ∀ x ∈ X, ∃ p ∈ T, p.1 = x) :
    ∃ B, encodeLoop X T = some B ∧ decodeLoop T [] B = (X, []) := by
  induction X with
  | nil => exact ⟨[], rfl, rfl⟩
  | cons x X ih =>
    obtain ⟨⟨p, hp, rfl⟩, hXs⟩ := List.forall_mem_cons.mp hX
    obtain ⟨B, henc, hdec⟩ := ih hXs
    refine ⟨p.2 ++ B, by simp [encodeLoop, h.codeOf_of_mem hp, henc], ?_⟩
    rw [decodeLoop_append, decodeLoop_code h hp p.2 [] (h.code_ne_nil p hp) rfl, hdec]
    rfl

/-- Settles O50, by induction on the text: each code is read back as its symbol, and unpacking undoes packing. -/
theorem referenceRoundTrip : Obligations.ReferenceRoundTrip := by
  intro T X hT hX
  obtain ⟨B, henc, hdec⟩ := decodeLoop_encodeLoop hT X hX
  exact ⟨B, (refEncode_legal T hT X).trans henc, refUnpack_refPack B,
    (refDecode_legal T hT B).trans (congrArg some hdec)⟩

/-! ## Corner cases (R129, R133) -/

/-- A candidate as long as the longest code only grows (R129). -/
theorem decodeLoop_of_long_cand (T : CodeMap) (B cand : Bits) (hlong : ∀ p ∈ T, p.2.length ≤ cand.length) :
    decodeLoop T cand B = ([], cand ++ B) := by
  induction B generalizing cand with
  | nil => simp
  | cons x B ih =>
    have hgrown : ∀ p ∈ T, p.2.length < (cand ++ [x]).length := fun p hp => by simpa using hlong p hp
    have hnone : T.symOf (cand ++ [x]) = none :=
      (T.symOf_eq_none_iff _).mpr fun p hp hpc => (hgrown p hp).ne (congrArg List.length hpc)
    rw [decodeLoop_cons_none T cand B x hnone, ih _ fun p hp => (hgrown p hp).le, List.append_assoc]
    rfl

/-- No code comes to start the candidate: the bit that would complete one empties it (R129). -/
theorem decodeLoop_fragment_unmatched {T : CodeMap} (h : T.Legal) (B cand : Bits)
    (hcand : ∀ p ∈ T, ¬ p.2 <+: cand) : ∀ p ∈ T, ¬ p.2 <+: (decodeLoop T cand B).2 := by
  induction B generalizing cand with
  | nil => exact hcand
  | cons x B ih =>
    cases hx : T.symOf (cand ++ [x]) with
    | some s =>
      rw [decodeLoop_cons_some T cand B x s hx]
      exact ih [] fun p hp hpre => h.code_ne_nil p hp (List.prefix_nil.mp hpre)
    | none =>
      rw [decodeLoop_cons_none T cand B x hx]
      refine ih _ fun p hp hpre => ?_
      rcases List.prefix_concat_iff.mp hpre with heq | hpre
      · exact (T.symOf_eq_none_iff _).mp hx p hp heq
      · exact hcand p hp hpre

theorem legal_singleSymbol (a : Sym21) : CodeMap.Legal [(a, [false])] := by simp [CodeMap.Legal]

/-- Under the single-symbol table a text of that symbol is as many zero bits (R133). -/
theorem encodeLoop_singleSymbol (a : Sym21) (k : Nat) :
    encodeLoop (List.replicate k a) [(a, [false])] = some (List.replicate k false) := by
  induction k with
  | zero => rfl
  | succ k ih => simp [List.replicate_succ, encodeLoop, ih, CodeMap.codeOf]

theorem decodeLoop_singleSymbol (a : Sym21) (k : Nat) :
    decodeLoop [(a, [false])] [] (List.replicate k false) = (List.replicate k a, []) := by
  obtain ⟨B, henc, hdec⟩ := decodeLoop_encodeLoop (legal_singleSymbol a) (List.replicate k a)
    fun x hx => ⟨(a, [false]), by simp, (List.eq_of_mem_replicate hx).symm⟩
  rw [encodeLoop_singleSymbol] at henc
  rwa [Option.some.inj henc]

/-- Zero bits pack to zero bytes (R133). -/
theorem refPack_zeros (k : Nat) :
    refPack (List.replicate k false) = (List.replicate ((k + 7) / 8) 0, (8 - k % 8) % 8) := by
  have hzeros (m : Nat) : (List.replicate m (0 : Byte)).flatMap bin8 = List.replicate (8 * m) false := by
    induction m with
    | zero => rfl
    | succ m ih =>
      rw [List.replicate_succ, List.flatMap_cons, ih, show 8 * (m + 1) = 8 + 8 * m by omega, List.replicate_add]
      rfl
  rw [refPack_eq_iff, hzeros, ← List.replicate_add]
  exact ⟨by omega, congrArg (List.replicate · false) (by omega)⟩

/-- Settles O49: each corner case by the law of the loop it is about. -/
theorem cornerCasesOfTheFunctions : Obligations.CornerCasesOfTheFunctions := by
  refine ⟨fun Y p hp => ?_, fun T hT => ?_, fun B => ?_, fun T B X f hdec => ?_, fun a k B => ?_,
    fun T cand B hT hlong => ?_, fun a k => ⟨?_, refPack_zeros k⟩⟩
  · exact if_neg fun h => by omega
  · exact refDecode_legal T hT []
  · exact (refDecode_legal [] (by simp [CodeMap.Legal]) B).trans
      (congrArg some (decodeLoop_of_long_cand [] B [] (List.forall_mem_nil _)))
  · by_cases hT : T.Legal
    · rw [refDecode_legal T hT] at hdec
      obtain rfl := congrArg Prod.snd (Option.some.inj hdec)
      exact decodeLoop_fragment_unmatched hT B [] fun p hp hpre => hT.code_ne_nil p hp (List.prefix_nil.mp hpre)
    · rw [refDecode_illegal T hT] at hdec
      cases hdec
  · have hone : CodeMap.symOf [(a, [false])] ([] ++ [true]) = none := by simp [CodeMap.symOf_eq_none_iff]
    rw [refDecode_legal _ (legal_singleSymbol a), decodeLoop_append, decodeLoop_singleSymbol,
      decodeLoop_cons_none _ _ _ _ hone, decodeLoop_of_long_cand _ _ _ (by simp), List.append_nil]
    rfl
  · exact (refDecodeFrom_legal T hT cand B).trans (congrArg some (decodeLoop_of_long_cand T B cand hlong))
  · exact (refEncode_legal _ (legal_singleSymbol a) _).trans (encodeLoop_singleSymbol a k)

end Sys2Proof.Machine

/-! # Sessions (40_reference_functions.md R137 to R139): what one computes, by induction on its commands -/

namespace Sys2Proof.Machine

/-- What each command that passes its checks hands on to the commands after it, a run that ends unfaulted carries to its
end. -/
theorem runInstrs_session {allowed : Instr → Prop} {P : List Instr → State → Prop}
    (hsrst : ∀ i, allowed i → i ≠ .srst)
    (hstep : ∀ i is s, allowed i → firstFault (checksOf i s) = none → P (i :: is) s → P is (effectOf i s))
    {is : List Instr} {s u : State} (his : ∀ i ∈ is, allowed i) (hrun : runInstrs is s = .next u)
    (hs : s.faulted = false) (hu : u.faulted = false) (h : P is s) : P [] u := by
  induction is generalizing s with
  | nil => cases hrun; exact h
  | cons i is ih =>
    obtain ⟨hi, his⟩ := List.forall_mem_cons.mp his
    obtain ⟨hc, hs', hrun'⟩ := runInstrs_cons_unfaulted i is s u hrun hs hu fun j hj => hsrst j (his j hj)
    exact ih his hrun' hs' (hstep i is s hi hc h)

/-- A done command of a locked table's block leaves the table as it is (R80). -/
theorem effectOf_tab_locked (i : Instr) (s : State) (hlocked : s.tableLocked = true) (hi : i ≠ .srst)
    (hc : firstFault (checksOf i s) = none) : (effectOf i s).tab = s.tab := by
  cases htable : isTableCmd i with
  | false => exact effectOf_tab i s htable hi
  | true =>
    have hunlocked : s.tableLocked = false := check_passed i s hc _ (tableLocked_mem_checksOf i s htable)
    exact absurd hlocked (Bool.eq_false_iff.mp hunlocked)

/-! ## A pack session (R137) -/

/-- No effect but those of the pack family and of `SRST` writes the packer. -/
theorem effectOf_pk (i : Instr) (s : State) (hpack : isPackCmd i = false) (hi : i ≠ .srst) :
    (effectOf i s).pk = s.pk := by
  cases i with
  | srst => exact absurd rfl hi
  | pstart | pbits _ _ | pend | encs _ => exact Bool.noConfusion hpack
  | ubyte b => exact releaseHeld_pk 8 s
  | uend => exact releaseHeld_pk _ s
  | dbits n v => exact decodeBits_pk _ s
  | wrsr r v => cases r <;> rfl
  | _ => rfl

/-- No effect but those of the pack family emits a byte. -/
theorem effectOf_byteOut (i : Instr) (s : State) (hpack : isPackCmd i = false) :
    (effectOf i s).out.byteOut = s.out.byteOut := by
  cases i with
  | pstart | pbits _ _ | pend | encs _ => exact Bool.noConfusion hpack
  | _ => simp [effectOf, flushHold_eq, flushLast_eq]

theorem str_zero {w : Nat} (n : Nat) : str n (0#w) = List.replicate n false := by
  induction n with
  | zero => rfl
  | succ n ih => rw [str_succ, ih, BitVec.getLsbD_zero, List.replicate_succ]

/-- Held bits moved to the top of the byte, with zeros after them (R144). -/
theorem bin8_shiftLeft (x : Byte) (n : Nat) (hn : n ≤ 8) :
    bin8 (x <<< (8 - n)) = str n x ++ List.replicate (8 - n) false := by
  have hsplit := str_append n (8 - n) (x <<< (8 - n))
  rw [Nat.add_sub_cancel' hn] at hsplit
  rw [bin8, hsplit, ← str_zero (w := 8)]
  congr 1
  · refine str_congr n _ _ fun i hi => ?_
    rw [BitVec.getLsbD_ushiftRight, BitVec.getLsbD_shiftLeft, decide_eq_true (show 8 - n + i < 8 by omega)]
    simp
  · refine str_congr (8 - n) _ _ fun i hi => ?_
    simp [BitVec.getLsbD_shiftLeft, hi]

theorem refPack_of_leftover_nil (B : Bits) (h : leftover B = []) : refPack B = (wholeBytes B, 0) := by
  have htext := flatMap_wholeBytes B
  rw [h, List.append_nil] at htext
  exact (refPack_eq_iff _ _ _).mpr ⟨Nat.zero_le 7, by simpa using htext⟩

/-- The last byte of a packing is the leftover and its padding (R121). -/
theorem refPack_of_last (B : Bits) (y : Byte) (p : Nat) (hp : p ≤ 7)
    (hy : bin8 y = leftover B ++ List.replicate p false) : refPack B = (wholeBytes B ++ [y], p) := by
  refine (refPack_eq_iff _ _ _).mpr ⟨hp, ?_⟩
  conv_rhs => rw [← flatMap_wholeBytes B]
  simp [hy]

/-- A pack session to which the bits `B` were given, on an output that was `Y` before it (R137). -/
structure Packing (Y : List Byte) (B : Bits) (s : State) : Prop where
  active : s.pk.pact = true
  bytes : s.out.byteOut = Y ++ wholeBytes B
  accFits : s.pk.pacc.toNat < 2 ^ s.pk.pcnt.toNat
  held : s.pk.pending = leftover B
  bitCount : s.pk.pbitcnt = BitVec.ofNat 32 B.length
  byteCount : s.pk.pbytecnt = BitVec.ofNat 32 (wholeBytes B).length

theorem Packing.of_start (s : State) : Packing s.out.byteOut [] (startPack s) where
  active := rfl
  bytes := (List.append_nil _).symm
  accFits := by simp [startPack]
  held := rfl
  bitCount := rfl
  byteCount := rfl

theorem Packing.of_same {Y : List Byte} {B : Bits} {s t : State} (h : Packing Y B s) (hpk : t.pk = s.pk)
    (hout : t.out.byteOut = s.out.byteOut) : Packing Y B t := by
  obtain ⟨hact, hbytes, hacc, hheld, hbits, hcount⟩ := h
  constructor <;> simpa only [hpk, hout]

/-- Bits given later join those given before: the cut into bytes goes on from the leftover. -/
theorem Packing.after_packBits {Y : List Byte} {B : Bits} {s : State} (h : Packing Y B s) (bs : Bits) :
    Packing Y (B ++ bs) (packBits bs s) := by
  obtain ⟨hbytes, hleft⟩ := wholeBytes_continue B bs
  obtain ⟨hacc, hpending⟩ := packed_acc bs s
  rw [packBits_eq bs s h.accFits]
  refine ⟨h.active, ?_, hacc, hpending.trans ?_, ?_, ?_⟩
  · simp [packed, h.bytes, h.held, hbytes]
  · rw [h.held, hleft]
  · simp [packed, h.bitCount, BitVec.ofNat_add]
  · simp [packed, h.byteCount, h.held, hbytes, BitVec.ofNat_add]

/-- `PEND` completes the packing: the padded byte is the leftover and its zeros (R137, R144). -/
theorem Packing.after_endPack {Y : List Byte} {B : Bits} {s : State} (h : Packing Y B s) :
    (endPack s).out.byteOut = Y ++ (refPack B).1 ∧ (endPack s).pk.padcnt.toNat = (refPack B).2
      ∧ (endPack s).pk.pbytecnt = BitVec.ofNat 32 (refPack B).1.length := by
  have hcnt : (leftover B).length = s.pk.pcnt.toNat := by rw [← h.held, Packer.pending_length]
  unfold endPack
  split
  next hheld =>
    have hpos : s.pk.pcnt.toNat ≠ 0 := fun h0 => hheld (BitVec.eq_of_toNat_eq h0)
    have hpack := refPack_of_last B (s.pk.pacc <<< (8 - s.pk.pcnt.toNat)) (8 - s.pk.pcnt.toNat) (by omega)
      (by rw [bin8_shiftLeft _ _ (by omega), ← h.held]; rfl)
    rw [hpack]
    refine ⟨by simp [h.bytes], ?_, by simp [h.byteCount, BitVec.ofNat_add]⟩
    exact Nat.mod_eq_of_lt (by omega)
  next hnone =>
    have hzero : s.pk.pcnt = 0 := not_not.mp hnone
    rw [refPack_of_leftover_nil B (List.length_eq_zero_iff.mp (by simp [hcnt, hzero]))]
    exact ⟨h.bytes, rfl, h.byteCount⟩

theorem endPack_flags (s : State) : (endPack s).pk.pdone = true ∧ (endPack s).pk.pact = false
    ∧ (endPack s).pk.pbitcnt = s.pk.pbitcnt ∧ (endPack s).flt = s.flt := by
  unfold endPack; split <;> exact ⟨rfl, rfl, rfl, rfl⟩

/-- In a pack session with the commands `is` to come, what was given and what they contribute are the whole (R137). -/
def PackSession (t : CodeTable) (Y : List Byte) (whole : Bits) (is : List Instr) (s : State) : Prop :=
  s.tab = t ∧ ∃ B, Packing Y B s ∧ B ++ is.flatMap (packContribution t) = whole

/-- A command of a pack session gives the packer its contribution (R137). -/
theorem Packing.after_effectOf {Y : List Byte} {B : Bits} {s : State} (h : Packing Y B s) (i : Instr)
    (hi : i ≠ .pstart ∧ i ≠ .pend ∧ i ≠ .srst) : Packing Y (B ++ packContribution s.tab i) (effectOf i s) := by
  obtain ⟨hpstart, hpend, hsrst⟩ := hi
  have hkeep (hpack : isPackCmd i = false) : Packing Y (B ++ []) (effectOf i s) := by
    rw [List.append_nil]
    exact h.of_same (effectOf_pk i s hpack hsrst) (effectOf_byteOut i s hpack)
  cases i with
  | pstart => exact absurd rfl hpstart
  | pend => exact absurd rfl hpend
  | pbits n v => exact h.after_packBits _
  | encs sym => exact h.after_packBits _
  | _ => exact hkeep rfl

theorem PackSession.step {t : CodeTable} {Y : List Byte} {whole : Bits} (i : Instr) (is : List Instr) (s : State)
    (hi : i ≠ .pstart ∧ i ≠ .pend ∧ i ≠ .srst) (hc : firstFault (checksOf i s) = none)
    (h : PackSession t Y whole (i :: is) s) : PackSession t Y whole is (effectOf i s) := by
  obtain ⟨rfl, B, hB, hwhole⟩ := h
  have hsrst : i ≠ .srst := hi.2.2
  refine ⟨effectOf_tab_locked i s ((tableLocked_iff s).mpr (.inl hB.active)) hsrst hc, _, hB.after_effectOf i hi, ?_⟩
  rw [← hwhole, List.flatMap_cons, List.append_assoc]

/-- Settles O51, by induction on the commands: the packer has emitted the whole bytes of the bits given and holds their
leftover, which `PEND` pads. -/
theorem packSessionComputesPack : Obligations.PackSessionComputesPack := by
  intro is s u _ hs _ his hrun hu r
  obtain ⟨-, hs', hrun'⟩ := runInstrs_cons_unfaulted .pstart is s u hrun hs hu fun i hi => (his i hi).2.2
  obtain ⟨-, B, hB, hwhole⟩ : PackSession s.tab s.out.byteOut (is.flatMap (packContribution s.tab)) [] u :=
    runInstrs_session (fun _ ⟨_, _, hsrst⟩ => hsrst) PackSession.step his hrun' hs' hu
      ⟨rfl, [], Packing.of_start s, rfl⟩
  obtain rfl : B = _ := (List.append_nil B).symm.trans hwhole
  obtain ⟨hbytes, hpad, hcount⟩ := hB.after_endPack
  obtain ⟨hdone, hidle, hbits, hflt⟩ := endPack_flags u
  exact ⟨endPack u, exec_ok .pend u hu ((pend_checks u).mpr hB.active) (decodeUndefined_nil u),
    (faulted_congr _ _ hflt).trans hu, hbytes, hpad, hdone, hidle, hbits.trans hB.bitCount, hcount⟩

end Sys2Proof.Machine

/-! # Unpack sessions (R138): the bytes released, the byte held, and the last byte without its padding -/

namespace Sys2Proof.Machine

/-- No effect but those of the unpack family and of `SRST` writes the unpacker. -/
theorem effectOf_un (i : Instr) (s : State) (hunpack : isUnpackCmd i = false) (hi : i ≠ .srst) :
    (effectOf i s).un = s.un := by
  cases i with
  | srst => exact absurd rfl hi
  | ustart _ _ | ubyte _ | uend => exact Bool.noConfusion hunpack
  | pbits n v => exact packBits_un _ s
  | encs sym => exact packBits_un _ s
  | pend => show (endPack s).un = _; unfold endPack; split <;> rfl
  | dbits n v => exact decodeBits_un _ s
  | wrsr r v => cases r <;> rfl
  | _ => rfl

/-- No effect but those of the unpack family emits a bit. -/
theorem effectOf_bitOut (i : Instr) (s : State) (hunpack : isUnpackCmd i = false) :
    (effectOf i s).out.bitOut = s.out.bitOut := by
  cases i with
  | ustart _ _ | ubyte _ | uend => exact Bool.noConfusion hunpack
  | _ => simp [effectOf]

/-- The byte the unpacker holds, if it holds one (R34). -/
def Unpacker.held (u : Unpacker) : List Byte := if u.uholdv then [u.uhold] else []

theorem Unpacker.held_empty {u : Unpacker} (h : u.uholdv = false) : u.held = [] := by simp [held, h]

theorem Unpacker.held_byte {u : Unpacker} (h : u.uholdv = true) : u.held = [u.uhold] := by simp [held, h]

/-- A release of an unrouted session emits the first bits of the byte held and leaves the decoder alone (R162). -/
theorem releaseHeld_unrouted (k : Nat) (s : State) (hk : k ≤ 8) (hdst : s.un.udst = .bitOut) :
    (releaseHeld k s).out.bitOut = s.out.bitOut ++ (s.un.held.flatMap bin8).take k
      ∧ (releaseHeld k s).de = s.de ∧ (releaseHeld k s).out.symOut = s.out.symOut := by
  unfold releaseHeld
  cases hheld : s.un.uholdv with
  | false => simp [Unpacker.held_empty hheld]
  | true => simp [Unpacker.held_byte hheld, release_unrouted _ k s hdst hk]

/-- A release of a routed session gives the decoder the first bits of the byte held (R162). -/
theorem releaseHeld_routed (k : Nat) (s : State) (hk : k ≤ 8) (hdst : s.un.udst = .decoder) :
    (releaseHeld k s).de = (decodeBits ((s.un.held.flatMap bin8).take k) s).de
      ∧ (releaseHeld k s).out.symOut = (decodeBits ((s.un.held.flatMap bin8).take k) s).out.symOut := by
  unfold releaseHeld
  cases hheld : s.un.uholdv with
  | false => simp [Unpacker.held_empty hheld, decodeBits]
  | true => simp [Unpacker.held_byte hheld, release_routed _ k s hdst hk, decodeBits_setUn]

/-- An unpack session with padding count `p` to which the bytes `Y` were given; the bytes of `released` have gone to the
destination `d`, the last one is held (R138, R164). -/
structure Unpacking (p : BitVec 3) (d : Dest) (released Y : List Byte) (u : Unpacker) : Prop where
  active : u.uact = true
  pad : u.upad = p
  dest : u.udst = d
  given : Y = released ++ u.held
  noneHeld : u.uholdv = false → released = []
  byteCount : u.ubytecnt = BitVec.ofNat 32 Y.length
  bitCount : u.ubitcnt = BitVec.ofNat 32 (8 * released.length)

theorem Unpacking.of_start (p : BitVec 3) (d : Dest) (s : State) : Unpacking p d [] [] (startUnpack p d s).un where
  active := rfl
  pad := rfl
  dest := rfl
  given := rfl
  noneHeld := fun _ => rfl
  byteCount := rfl
  bitCount := rfl

/-- `UBYTE` releases the byte held and holds the new one (R164). -/
theorem Unpacking.after_ubyte {p : BitVec 3} {d : Dest} {released Y : List Byte} {s : State}
    (h : Unpacking p d released Y s.un) (b : Byte) :
    Unpacking p d Y (Y ++ [b]) (effectOf (.ubyte b) s).un := by
  obtain ⟨hact, hpad, hdst, hgiven, hnone, hbytes, hbits⟩ := h
  show Unpacking p d Y (Y ++ [b]) (holdByte b (releaseHeld 8 s)).un
  simp only [holdByte, State.setUn_un, releaseHeld_un 8 s le_rfl]
  refine ⟨hact, hpad, hdst, rfl, fun h => Bool.noConfusion h, ?_, ?_⟩
  · simp [hbytes, BitVec.ofNat_add]
  · cases hheld : s.un.uholdv with
    | false => simp [hbits, hgiven, hnone hheld, Unpacker.held_empty hheld]
    | true => simp [hbits, hgiven, Unpacker.held_byte hheld, Nat.mul_add, BitVec.ofNat_add]

/-- Unpacking the bytes given releases those already released and the byte held without its padding (R122, R165). -/
theorem Unpacking.refUnpack_eq {p : BitVec 3} {d : Dest} {released Y : List Byte} {u : Unpacker}
    (h : Unpacking p d released Y u) (hpad : u.uholdv = false → u.upad = 0) :
    refUnpack Y p.toNat = some (released.flatMap bin8 ++ (u.held.flatMap bin8).take (8 - u.upad.toNat)) := by
  obtain ⟨-, rfl, -, rfl, hnone, -, -⟩ := h
  refine (refUnpack_eq_some_iff _ _ _).mpr
    ⟨by omega, (u.held.flatMap bin8).drop (8 - u.upad.toNat), ?_, by simp [List.append_assoc]⟩
  cases hheld : u.uholdv with
  | false => simp [Unpacker.held_empty hheld, hpad hheld]
  | true => simp [Unpacker.held_byte hheld]; omega

/-- The bytes given have no unpacking exactly when `UEND` finds more padding than bits (R123, R165). -/
theorem Unpacking.refUnpack_eq_none_iff {p : BitVec 3} {d : Dest} {released Y : List Byte} {u : Unpacker}
    (h : Unpacking p d released Y u) : refUnpack Y p.toNat = none ↔ u.uholdv = false ∧ u.upad ≠ 0 := by
  constructor
  · intro hundef
    by_contra hpad
    rw [h.refUnpack_eq (by simpa using hpad)] at hundef
    cases hundef
  · rintro ⟨hheld, hpad⟩
    obtain rfl : Y = [] := by rw [h.given, h.noneHeld hheld, Unpacker.held_empty hheld]; rfl
    have hpos : p.toNat ≠ 0 := fun h0 => hpad (h.pad.trans (BitVec.eq_of_toNat_eq h0))
    exact if_neg fun hle => hpos (Nat.le_zero.mp hle.2)

/-- `UEND` counts the bits of the last byte that are not padding (R165). -/
theorem Unpacking.after_uend {p : BitVec 3} {d : Dest} {released Y : List Byte} {s : State}
    (h : Unpacking p d released Y s.un) :
    (effectOf .uend s).un.ubytecnt = BitVec.ofNat 32 Y.length
      ∧ (effectOf .uend s).un.ubitcnt = BitVec.ofNat 32 (8 * Y.length - p.toNat) := by
  obtain ⟨-, rfl, -, hgiven, hnone, hbytes, hbits⟩ := h
  show (closeUnpack (releaseHeld _ s)).un.ubytecnt = _ ∧ (closeUnpack (releaseHeld _ s)).un.ubitcnt = _
  simp only [closeUnpack, State.setUn_un, releaseHeld_un _ s (Nat.sub_le 8 _)]
  refine ⟨hbytes, ?_⟩
  cases hheld : s.un.uholdv with
  | false => simp [hbits, hgiven, hnone hheld, Unpacker.held_empty hheld]
  | true =>
    have hlen : 8 * Y.length - s.un.upad.toNat = 8 * released.length + (8 - s.un.upad.toNat) := by
      rw [hgiven, Unpacker.held_byte hheld, List.length_append, List.length_singleton]; omega
    simp [hbits, hlen, BitVec.ofNat_add]

theorem routedBits_unrouted (k : Nat) (s : State) (h : s.un.udst = .bitOut) : s.routedBits k = [] := by
  simp [State.routedBits, h]

/-- In an unrouted unpack session with the commands `is` to come, the bytes given and those to come are the whole, and the
bits of the bytes released follow those emitted before the session (R138). -/
def UnpackSession (p : BitVec 3) (X : Bits) (whole : List Byte) (is : List Instr) (s : State) : Prop :=
  ∃ released Y, Unpacking p .bitOut released Y s.un ∧ s.out.bitOut = X ++ released.flatMap bin8
    ∧ Y ++ is.flatMap unpackContribution = whole

theorem UnpackSession.step {p : BitVec 3} {X : Bits} {whole : List Byte} (i : Instr) (is : List Instr) (s : State)
    (hi : (∀ q d, i ≠ .ustart q d) ∧ i ≠ .uend ∧ i ≠ .srst) (h : UnpackSession p X whole (i :: is) s) :
    UnpackSession p X whole is (effectOf i s) := by
  obtain ⟨released, Y, hY, hout, hwhole⟩ := h
  obtain ⟨hustart, huend, hsrst⟩ := hi
  have hkeep (hunpack : isUnpackCmd i = false) (hnone : unpackContribution i = []) :
      UnpackSession p X whole is (effectOf i s) :=
    ⟨released, Y, (effectOf_un i s hunpack hsrst).symm ▸ hY, (effectOf_bitOut i s hunpack).trans hout,
      by simpa [hnone] using hwhole⟩
  cases i with
  | ustart q d => exact absurd rfl (hustart q d)
  | uend => exact absurd rfl huend
  | ubyte b =>
    obtain ⟨hreleased, -, -⟩ := releaseHeld_unrouted 8 s le_rfl hY.dest
    refine ⟨Y, Y ++ [b], hY.after_ubyte b, hreleased.trans ?_, by simpa [unpackContribution] using hwhole⟩
    have hall : (s.un.held.flatMap bin8).take 8 = s.un.held.flatMap bin8 :=
      List.take_of_length_le (by cases hheld : s.un.uholdv <;> simp [Unpacker.held, hheld])
    rw [hall, hout, hY.given, List.flatMap_append, List.append_assoc]
  | _ => exact hkeep rfl rfl

/-- Settles O52, by induction on the commands: all bytes given but the last have been released, and `UEND` releases the
last one without its padding, or refuses padding without a byte. -/
theorem unpackSessionComputesUnpack : Obligations.UnpackSessionComputesUnpack := by
  intro p is s u hs _ his hrun hu Y
  obtain ⟨-, hs', hrun'⟩ := runInstrs_cons_unfaulted (.ustart p .bitOut) is s u hrun hs hu fun i hi => (his i hi).2.2
  obtain ⟨released, Z, hZ, hout, hwhole⟩ : UnpackSession p s.out.bitOut Y [] u :=
    runInstrs_session (fun _ ⟨_, _, hsrst⟩ => hsrst) (fun i is s hi _ => UnpackSession.step i is s hi) his hrun' hs' hu
      ⟨[], [], Unpacking.of_start p .bitOut s, (List.append_nil _).symm, rfl⟩
  obtain rfl : Z = Y := (List.append_nil Z).symm.trans hwhole
  refine ⟨fun B hB => ?_, fun hundef => ?_⟩
  · have hpad : u.un.uholdv = false → u.un.upad = 0 := fun hheld => by
      by_contra hpad
      rw [hZ.refUnpack_eq_none_iff.mpr ⟨hheld, hpad⟩] at hB
      cases hB
    rw [hZ.refUnpack_eq hpad] at hB
    obtain ⟨hbits, -, -⟩ := releaseHeld_unrouted _ u (Nat.sub_le 8 u.un.upad.toNat) hZ.dest
    obtain ⟨hbytecnt, hbitcnt⟩ := hZ.after_uend
    refine ⟨effectOf .uend u, exec_ok .uend u hu ((uend_checks u).mpr ⟨hZ.active, hpad⟩) ?_,
      effectOf_unfaulted .uend u hu, ?_, rfl, rfl, hbytecnt, hbitcnt⟩
    · rw [decoderBits, routedBits_unrouted _ u hZ.dest, decodeUndefined_nil]
    · rw [← Option.some.inj hB, ← List.append_assoc, ← hout]
      exact hbits
  · obtain ⟨hheld, hpad⟩ := hZ.refUnpack_eq_none_iff.mp hundef
    refine ⟨exec_fault .uend u .pad hu ?_, ?_⟩
    · simpa [checksOf, firstFault, hZ.active, hheld] using hpad
    · rw [hout, hZ.noneHeld hheld]
      exact List.append_nil _

end Sys2Proof.Machine

/-! # Decode sessions (R139): the bits given by `DBITS` and by routed unpack sessions -/

namespace Sys2Proof.Machine

/-! ## The bits given to the decoder -/

/-- No effect but those of the decode and unpack families and of `SRST` writes the decoder. -/
theorem effectOf_de (i : Instr) (s : State) (hdecode : isDecodeCmd i = false) (hunpack : isUnpackCmd i = false)
    (hi : i ≠ .srst) : (effectOf i s).de = s.de := by
  cases i with
  | srst => exact absurd rfl hi
  | ustart _ _ | ubyte _ | uend => exact Bool.noConfusion hunpack
  | dstart | dbits _ _ | dend => exact Bool.noConfusion hdecode
  | pbits n v => exact packBits_de _ s
  | encs sym => exact packBits_de _ s
  | pend => show (endPack s).de = _; unfold endPack; split <;> rfl
  | wrsr r v => cases r <;> rfl
  | _ => rfl

/-- No effect but those of the decode and unpack families emits a symbol. -/
theorem effectOf_symOut (i : Instr) (s : State) (hdecode : isDecodeCmd i = false) (hunpack : isUnpackCmd i = false) :
    (effectOf i s).out.symOut = s.out.symOut := by
  cases i with
  | ustart _ _ | ubyte _ | uend => exact Bool.noConfusion hunpack
  | dstart | dbits _ _ | dend => exact Bool.noConfusion hdecode
  | _ => simp [effectOf]

/-- A decode session to which the bits `B` were given, on an output that was `X` before it (R139). -/
structure Decoding (T : CodeMap) (X : List Sym21) (B : Bits) (s : State) : Prop where
  active : s.de.dact = true
  symbols : s.out.symOut = X ++ (decodeLoop T [] B).1
  fragment : s.de.Holds (decodeLoop T [] B).2
  bitCount : s.de.dbitcnt = BitVec.ofNat 32 B.length
  symCount : s.de.dsymcnt = BitVec.ofNat 32 (decodeLoop T [] B).1.length

theorem Decoding.of_start (T : CodeMap) (s : State) : Decoding T s.out.symOut [] (startDecode s) where
  active := rfl
  symbols := (List.append_nil _).symm
  fragment := ⟨rfl, rfl⟩
  bitCount := rfl
  symCount := rfl

theorem Decoding.of_same {T : CodeMap} {X : List Sym21} {B : Bits} {s t : State} (h : Decoding T X B s)
    (hde : t.de = s.de) (hout : t.out.symOut = s.out.symOut) : Decoding T X B t := by
  obtain ⟨hact, hsyms, hfragment, hbits, hcount⟩ := h
  constructor <;> simpa only [hde, hout]

/-- Bits given later go on from the fragment of those given before (R127). -/
theorem Decoding.after_decodeBits {t : CodeTable} {X : List Sym21} {B : Bits} {s : State}
    (h : Decoding t.toMap X B s) (htab : s.tab = t) (ht : t.CodesOk) (bs : Bits) :
    Decoding t.toMap X (B ++ bs) (decodeBits bs s) := by
  subst htab
  have hloop := decodeLoop_append s.tab.toMap [] B bs
  have hfragment := decoded_holds (decodeLoop s.tab.toMap [] B).2 bs s
  rw [decodeBits_holds _ bs s ht h.fragment]
  refine ⟨h.active, ?_, by rwa [hloop], ?_, ?_⟩
  · simp [decoded, hloop, h.symbols]
  · simp [decoded, h.bitCount, BitVec.ofNat_add]
  · simp [decoded, hloop, h.symCount, BitVec.ofNat_add]

/-- A routed release gives the decoder bits of the byte held (R162). -/
theorem Decoding.after_routed_release {t : CodeTable} {X : List Sym21} {B : Bits} {s : State}
    (h : Decoding t.toMap X B s) (htab : s.tab = t) (ht : t.CodesOk) (k : Nat) (hk : k ≤ 8)
    (hdst : s.un.udst = .decoder) :
    Decoding t.toMap X (B ++ (s.un.held.flatMap bin8).take k) (releaseHeld k s) := by
  obtain ⟨hde, hout⟩ := releaseHeld_routed k s hk hdst
  exact (h.after_decodeBits htab ht _).of_same hde hout

theorem Decoding.after_unrouted_release {T : CodeMap} {X : List Sym21} {B : Bits} {s : State} (h : Decoding T X B s)
    (k : Nat) (hk : k ≤ 8) (hdst : s.un.udst = .bitOut) : Decoding T X B (releaseHeld k s) := by
  obtain ⟨-, hde, hout⟩ := releaseHeld_unrouted k s hk hdst
  exact h.of_same hde hout

/-! ## The session, with the routed unpack session in progress (R277) -/

/-- The routed unpack session in progress that `decoderInput` carries is the unpacker's; `released` are the bytes it has
given the decoder whole. -/
def RoutedSession : Option (BitVec 3 × List Byte) → List Byte → Unpacker → Prop
  | none, released, u => released = [] ∧ u.routed = false
  | some (p, Y), released, u => Unpacking p .decoder released Y u

theorem Unpacking.routed {p : BitVec 3} {released Y : List Byte} {u : Unpacker}
    (h : Unpacking p .decoder released Y u) : u.routed = true := by simp [Unpacker.routed, h.active, h.dest]

theorem routed_eq_false_iff (u : Unpacker) : u.routed = false ↔ ¬ (u.uact = true ∧ u.udst = .decoder) := by
  simp [Unpacker.routed]

theorem RoutedSession.eq_none {ctx : Option (BitVec 3 × List Byte)} {released : List Byte} {u : Unpacker}
    (h : RoutedSession ctx released u) (hu : u.routed = false) : ctx = none ∧ released = [] := by
  cases ctx with
  | none => exact ⟨rfl, h.1⟩
  | some c => simp [Unpacking.routed h] at hu

/-- In a decode session with the commands `is` to come, the bits given before the routed unpack session in progress, and
those `decoderInput` finds to come, are the whole; the decoder has got the former and the bytes released (R139). -/
def DecodeSession (t : CodeTable) (X : List Sym21) (whole : Bits) (is : List Instr) (s : State) : Prop :=
  s.tab = t ∧ ∃ ctx before released, RoutedSession ctx released s.un
    ∧ Decoding t.toMap X (before ++ released.flatMap bin8) s ∧ before ++ decoderInput ctx is = whole

section
variable {t : CodeTable} {X : List Sym21} {whole : Bits} {is : List Instr} {s : State}

/-- A command that gives the decoder nothing and leaves the unpacker alone. -/
theorem DecodeSession.after_other (i : Instr) (hdecode : isDecodeCmd i = false) (hunpack : isUnpackCmd i = false)
    (hi : i ≠ .srst) (hinput : ∀ ctx, decoderInput ctx (i :: is) = decoderInput ctx is)
    (htab : (effectOf i s).tab = s.tab) (h : DecodeSession t X whole (i :: is) s) :
    DecodeSession t X whole is (effectOf i s) := by
  obtain ⟨hs, ctx, before, released, hctx, hdec, hwhole⟩ := h
  exact ⟨htab.trans hs, ctx, before, released, (effectOf_un i s hunpack hi).symm ▸ hctx,
    hdec.of_same (effectOf_de i s hdecode hunpack hi) (effectOf_symOut i s hdecode hunpack), by rw [← hinput, hwhole]⟩

theorem DecodeSession.after_dbits (ht : t.CodesOk) (n : BitVec 6) (v : Word)
    (hc : firstFault (checksOf (.dbits n v) s) = none) (h : DecodeSession t X whole (.dbits n v :: is) s) :
    DecodeSession t X whole is (effectOf (.dbits n v) s) := by
  obtain ⟨hs, ctx, before, released, hctx, hdec, hwhole⟩ := h
  obtain ⟨-, -, hunrouted⟩ := (dbits_checks n v s).mp hc
  obtain ⟨rfl, rfl⟩ := hctx.eq_none hunrouted
  refine ⟨(decodeBits_tab _ s).trans hs, none, before ++ str n.toNat v, [],
    ⟨rfl, (congrArg Unpacker.routed (decodeBits_un _ s)).trans hunrouted⟩, ?_, by simpa [decoderInput] using hwhole⟩
  rw [List.flatMap_nil, List.append_nil] at hdec ⊢
  exact hdec.after_decodeBits hs ht _

theorem DecodeSession.after_ustart (p : BitVec 3) (d : Dest) (hc : firstFault (checksOf (.ustart p d) s) = none)
    (h : DecodeSession t X whole (.ustart p d :: is) s) : DecodeSession t X whole is (effectOf (.ustart p d) s) := by
  obtain ⟨hs, ctx, before, released, hctx, hdec, hwhole⟩ := h
  obtain ⟨hidle, -⟩ := (ustart_checks p d s).mp hc
  obtain ⟨rfl, rfl⟩ := hctx.eq_none (by simp [Unpacker.routed, hidle])
  cases d with
  | bitOut => exact ⟨hs, none, before, [], ⟨rfl, rfl⟩, hdec.of_same rfl rfl, hwhole⟩
  | decoder => exact ⟨hs, some (p, []), before, [], Unpacking.of_start p .decoder s, hdec.of_same rfl rfl, hwhole⟩

/-- An active session that is not routed releases to `BIT_OUT`. -/
theorem unrouted_dest {u : Unpacker} (hact : u.uact = true) (hu : u.routed = false) : u.udst = .bitOut := by
  cases hdst : u.udst with
  | bitOut => rfl
  | decoder => simp [Unpacker.routed, hact, hdst] at hu

theorem take_eight_held (u : Unpacker) : (u.held.flatMap bin8).take 8 = u.held.flatMap bin8 :=
  List.take_of_length_le (by cases hheld : u.uholdv <;> simp [Unpacker.held, hheld])

theorem DecodeSession.after_ubyte (ht : t.CodesOk) (b : Byte) (hc : firstFault (checksOf (.ubyte b) s) = none)
    (h : DecodeSession t X whole (.ubyte b :: is) s) : DecodeSession t X whole is (effectOf (.ubyte b) s) := by
  obtain ⟨hs, ctx, before, released, hctx, hdec, hwhole⟩ := h
  have hact := (ubyte_checks b s).mp hc
  have hs' : (effectOf (.ubyte b) s).tab = t := (releaseHeld_tab 8 s).trans hs
  cases ctx with
  | none =>
    obtain ⟨rfl, hunrouted⟩ := hctx
    have hdst := unrouted_dest hact hunrouted
    refine ⟨hs', none, before, [], ⟨rfl, ?_⟩, (hdec.after_unrouted_release 8 le_rfl hdst).of_same rfl rfl, hwhole⟩
    rw [← hunrouted]
    show (holdByte b (releaseHeld 8 s)).un.routed = _
    simp [holdByte, Unpacker.routed, releaseHeld_un 8 s le_rfl]
  | some c =>
    obtain ⟨p, Y⟩ := c
    have hY : Unpacking p .decoder released Y s.un := hctx
    have hdec' := hdec.after_routed_release hs ht 8 le_rfl hY.dest
    rw [take_eight_held, List.append_assoc, ← List.flatMap_append, ← hY.given] at hdec'
    exact ⟨hs', some (p, Y ++ [b]), before, Y, hY.after_ubyte b, hdec'.of_same rfl rfl, hwhole⟩

theorem DecodeSession.after_uend (ht : t.CodesOk) (hc : firstFault (checksOf .uend s) = none)
    (h : DecodeSession t X whole (.uend :: is) s) : DecodeSession t X whole is (effectOf .uend s) := by
  obtain ⟨hs, ctx, before, released, hctx, hdec, hwhole⟩ := h
  obtain ⟨hact, hpad⟩ := (uend_checks s).mp hc
  have hs' : (effectOf .uend s).tab = t := (releaseHeld_tab _ s).trans hs
  have hk := Nat.sub_le 8 s.un.upad.toNat
  cases ctx with
  | none =>
    obtain ⟨rfl, hunrouted⟩ := hctx
    have hdst := unrouted_dest hact hunrouted
    exact ⟨hs', none, before, [], ⟨rfl, rfl⟩, (hdec.after_unrouted_release _ hk hdst).of_same rfl rfl, hwhole⟩
  | some c =>
    obtain ⟨p, Y⟩ := c
    have hY : Unpacking p .decoder released Y s.un := hctx
    have hinput : decoderInput (some (p, Y)) (.uend :: is) =
        (refUnpack Y p.toNat).getD [] ++ decoderInput none is := rfl
    rw [hinput, hY.refUnpack_eq hpad, Option.getD_some, ← List.append_assoc] at hwhole
    refine ⟨hs', none, _, [], ⟨rfl, rfl⟩, ?_, hwhole⟩
    have hdec' := hdec.after_routed_release hs ht _ hk hY.dest
    rw [List.append_assoc] at hdec'
    rw [List.flatMap_nil, List.append_nil]
    exact hdec'.of_same rfl rfl

end

theorem DecodeSession.step {t : CodeTable} {X : List Sym21} {whole : Bits} (ht : t.CodesOk) (i : Instr)
    (is : List Instr) (s : State) (hi : i ≠ .dstart ∧ i ≠ .dend ∧ i ≠ .srst) (hc : firstFault (checksOf i s) = none)
    (h : DecodeSession t X whole (i :: is) s) : DecodeSession t X whole is (effectOf i s) := by
  obtain ⟨hdstart, hdend, hsrst⟩ := hi
  have hlocked : s.tableLocked = true := by
    obtain ⟨_, _, _, _, _, hdec, _⟩ := h
    exact (tableLocked_iff s).mpr (.inr hdec.active)
  have htab := effectOf_tab_locked i s hlocked hsrst hc
  cases i with
  | dstart => exact absurd rfl hdstart
  | dend => exact absurd rfl hdend
  | srst => exact absurd rfl hsrst
  | dbits n v => exact h.after_dbits ht n v hc
  | ustart p d => exact h.after_ustart p d hc
  | ubyte b => exact h.after_ubyte ht b hc
  | uend => exact h.after_uend ht hc
  | _ => exact h.after_other _ rfl rfl hsrst (fun _ => rfl) htab

/-! ## The end of the session (R185) -/

theorem Decoder.Holds.dclen_toNat {d : Decoder} {f : Bits} (h : d.Holds f) : d.dclen.toNat = min f.length 33 := by
  rw [h.1, BitVec.toNat_ofNat]; exact Nat.mod_eq_of_lt (by omega)

theorem Decoder.Holds.dcand_toNat {d : Decoder} {f : Bits} (h : d.Holds f) : d.dcand.toNat = val (f.take 32) := by
  have hlt := val_lt (f.take 32)
  have hle : 2 ^ (f.take 32).length ≤ 2 ^ 32 := Nat.pow_le_pow_right (by omega) (List.length_take_le _ _)
  rw [h.2, BitVec.toNat_ofNat]; exact Nat.mod_eq_of_lt (hlt.trans_le hle)

theorem Decoder.Holds.dclen_eq_zero_iff {d : Decoder} {f : Bits} (h : d.Holds f) : d.dclen = 0 ↔ f = [] := by
  rw [← List.length_eq_zero_iff]
  constructor
  · intro h0
    have hlen : min f.length 33 = 0 := h.dclen_toNat.symm.trans (congrArg BitVec.toNat h0)
    omega
  · intro h0
    rw [h.1, h0]; rfl

/-- Settles O53, by induction on the commands: the decoder has decoded the bits given and holds their fragment, which
`DEND` records or refuses. -/
theorem decodeSessionComputesDecode : Obligations.DecodeSessionComputesDecode := by
  intro is s u hinv hs hidle his hrun hu hunrouted B
  obtain ⟨-, hs', hrun'⟩ := runInstrs_cons_unfaulted .dstart is s u hrun hs hu fun i hi => (his i hi).2.2
  have hstart : s.un.routed = false := (routed_eq_false_iff _).mpr fun ⟨hact, hdst⟩ => by
    simp [hinv.routedActive hact hdst] at hidle
  rw [← routed_eq_false_iff] at hunrouted
  obtain ⟨-, ctx, before, released, hctx, hdec, hwhole⟩ : DecodeSession s.tab s.out.symOut B [] u :=
    runInstrs_session (fun _ ⟨_, _, hsrst⟩ => hsrst) (DecodeSession.step hinv.codesOk) his hrun' hs' hu
      ⟨rfl, none, [], [], ⟨rfl, hstart⟩, Decoding.of_start _ s, rfl⟩
  obtain ⟨rfl, rfl⟩ := hctx.eq_none hunrouted
  obtain rfl : before = B := (List.append_nil before).symm.trans hwhole
  rw [List.flatMap_nil, List.append_nil] at hdec
  obtain ⟨hact, hsyms, hfragment, hbits, hcount⟩ := hdec
  refine ⟨(decodeLoop s.tab.toMap [] B).1, (decodeLoop s.tab.toMap [] B).2, refDecode_legal _ hinv.legal B,
    hsyms, fun hkeep => ?_, fun hstrict hf => ?_⟩
  · have hchecks : firstFault (checksOf .dend u) = none :=
      (dend_checks u).mpr ⟨hact, hunrouted, fun hstrict => hfragment.dclen_eq_zero_iff.mpr
        (hkeep.resolve_left (by simp [hstrict]))⟩
    refine ⟨endDecode u, exec_ok .dend u hu hchecks (decodeUndefined_nil u), hu, rfl, rfl, rfl, ?_, hcount, hbits,
      hfragment.dclen_toNat, hfragment.dcand_toNat⟩
    show (u.de.dclen != 0) = _
    rw [Bool.eq_iff_iff, bne_iff_ne, decide_eq_true_iff, ne_eq, hfragment.dclen_eq_zero_iff]
  · refine exec_fault .dend u .trailFrag hu ?_
    have hne : u.de.dclen ≠ 0 := fun h0 => hf (hfragment.dclen_eq_zero_iff.mp h0)
    simpa [checksOf, firstFault, hact, hunrouted, hstrict] using hne

end Sys2Proof.Machine

/-! # The machine's round trip, and malformed tables (R126, R132) -/

namespace Sys2Proof.Machine

/-! ## A text packed by `ENCS` and given back by a routed unpack session -/

/-- In an unfaulted block a run goes on from the effect of a command whose checks pass. -/
theorem runInstrs_cons_ok (i : Instr) (is : List Instr) (s : State) (hf : s.faulted = false)
    (hc : firstFault (checksOf i s) = none) (hd : s.decodeUndefined (decoderBits i s) = false) :
    runInstrs (i :: is) s = runInstrs is (effectOf i s) := by
  rw [runInstrs, exec_ok i s hf hc hd]

/-- In a pack session `ENCS` packs the codes of a text whose symbols the table holds, one after the other (R146). -/
theorem runInstrs_encs (t : CodeTable) (X : List Sym21) (hX : ∀ x ∈ X, ∃ e, t.lookupSym x = some e) (s : State)
    (htab : s.tab = t) (hf : s.faulted = false) (hact : s.pk.pact = true) :
    runInstrs (X.map .encs) s = .next (packBits (X.flatMap (encodedBits t)) s) := by
  induction X generalizing s with
  | nil => rfl
  | cons x X ih =>
    subst htab
    obtain ⟨hx, hX⟩ := List.forall_mem_cons.mp hX
    have hstep := runInstrs_cons_ok (.encs x) (X.map .encs) s hf ((encs_checks x s).mpr ⟨hact, hx⟩) (decodeUndefined_nil s)
    rw [List.map_cons, hstep, List.flatMap_cons, packBits_append]
    exact ih hX _ (packBits_tab _ s) ((faulted_congr _ _ (packBits_flt _ s)).trans hf) ((packBits_pact _ s).trans hact)

/-- The codes `ENCS` packs are the encoding of the text (R130, R146). -/
theorem encodeLoop_toMap (t : CodeTable) (X : List Sym21) (hX : ∀ x ∈ X, ∃ e, t.lookupSym x = some e) :
    encodeLoop X t.toMap = some (X.flatMap (encodedBits t)) := by
  induction X with
  | nil => rfl
  | cons x X ih =>
    obtain ⟨⟨e, he⟩, hX⟩ := List.forall_mem_cons.mp hX
    simp [encodeLoop, codeOf_toMap, he, ih hX, encodedBits]

/-- `UBYTE` passes its check in an unpack session, so all bytes are given (R164). -/
theorem runInstrs_ubytes {p : BitVec 3} {d : Dest} (Y : List Byte) {released Z : List Byte} {s : State} (hinv : s.Inv)
    (hf : s.faulted = false) (hZ : Unpacking p d released Z s.un) :
    ∃ u released', runInstrs (Y.map .ubyte) s = .next u ∧ u.Inv ∧ u.faulted = false
      ∧ Unpacking p d released' (Z ++ Y) u.un := by
  induction Y generalizing s released Z with
  | nil => exact ⟨s, released, rfl, hinv, hf, (List.append_nil Z).symm ▸ hZ⟩
  | cons y Y ih =>
    have hc := (ubyte_checks y s).mpr hZ.active
    obtain ⟨u, released', hrun, hu⟩ :=
      ih (effectOf_keeps_inv hinv (.ubyte y) hc) (effectOf_unfaulted (.ubyte y) s hf) (hZ.after_ubyte y)
    refine ⟨u, released', ?_, by simpa using hu⟩
    rw [List.map_cons, runInstrs_cons_ok _ _ s hf hc (hinv.decodeDefined _), hrun]

/-- In a decode session a routed unpack session of bytes that have an unpacking raises no fault (R138, R163 to R165). -/
theorem runInstrs_routed_session {s : State} (hinv : s.Inv) (hf : s.faulted = false) (hidle : s.un.uact = false)
    (hdec : s.de.dact = true) (p : BitVec 3) (Y : List Byte) (hY : refUnpack Y p.toNat ≠ none) :
    ∃ u, runInstrs (.ustart p .decoder :: Y.map .ubyte ++ [.uend]) s = .next u ∧ u.faulted = false
      ∧ u.un.uact = false := by
  have hc := (ustart_checks p .decoder s).mpr ⟨hidle, fun _ => hdec⟩
  obtain ⟨u, released, hrun, huinv, huf, hu⟩ :=
    runInstrs_ubytes Y (effectOf_keeps_inv hinv (.ustart p .decoder) hc)
      (effectOf_unfaulted (.ustart p .decoder) s hf) (Unpacking.of_start p .decoder s)
  rw [List.nil_append] at hu
  have hpad : u.un.uholdv = false → u.un.upad = 0 := by simpa [hu.refUnpack_eq_none_iff] using hY
  have hend := (uend_checks u).mpr ⟨hu.active, hpad⟩
  refine ⟨effectOf .uend u, ?_, effectOf_unfaulted .uend u huf, rfl⟩
  have hbytes := (runInstrs_cons_ok _ _ s hf hc (hinv.decodeDefined _)).trans hrun
  rw [runInstrs_append _ _ _ _ hbytes, runInstrs_cons_ok _ _ u huf hend (huinv.decodeDefined _)]
  rfl

/-- A routed unpack session gives the decoder the unpacking of its bytes (R138, R277). -/
theorem decoderInput_routed_session (p : BitVec 3) (Y : List Byte) :
    decoderInput none (.ustart p .decoder :: Y.map .ubyte ++ [.uend]) = (refUnpack Y p.toNat).getD [] := by
  have hbytes (Z : List Byte) :
      decoderInput (some (p, Z)) (Y.map .ubyte ++ [.uend]) = (refUnpack (Z ++ Y) p.toNat).getD [] := by
    induction Y generalizing Z with
    | nil => simp [decoderInput]
    | cons y Y ih => simpa [decoderInput] using ih (Z ++ [y])
  exact hbytes []

/-- A text whose symbols the table holds, packed by `ENCS` in one session, comes out as the packing of bits that decode to
it (R132, R137). -/
theorem pack_session_of_text {s : State} (hinv : s.Inv) (hf : s.faulted = false) (hidle : s.pk.pact = false)
    (X : List Sym21) (hX : ∀ x ∈ X, ∃ e ∈ s.tab.entries, e.sym = x) :
    ∃ (B : Bits) (t : State), refDecode B s.tab.toMap = some (X, [])
      ∧ runInstrs (.pstart :: X.map .encs ++ [.pend]) s = .next t
      ∧ t.out.byteOut = s.out.byteOut ++ (refPack B).1 ∧ t.pk.padcnt.toNat = (refPack B).2 := by
  have hlook : ∀ x ∈ X, ∃ e, s.tab.lookupSym x = some e := fun x hx => by
    obtain ⟨e, he, rfl⟩ := hX x hx
    exact ⟨e, s.tab.lookupSym_eq e he hinv.oneCodePerSymbol⟩
  have hmap : ∀ x ∈ X, ∃ p ∈ s.tab.toMap, p.1 = x := fun x hx => by
    obtain ⟨e, he, rfl⟩ := hX x hx
    exact ⟨_, List.mem_map_of_mem he, rfl⟩
  obtain ⟨B, henc, hdec⟩ := decodeLoop_encodeLoop hinv.legal X hmap
  rw [encodeLoop_toMap s.tab X hlook] at henc
  have hB : (X.map Instr.encs).flatMap (packContribution s.tab) = B := by
    rw [List.flatMap_map]; exact Option.some.inj henc
  have hrun : runInstrs (.pstart :: X.map .encs) s = .next (packBits (X.flatMap (encodedBits s.tab)) (startPack s)) := by
    rw [runInstrs_cons_ok .pstart _ s hf (by simp [checksOf, firstFault, hidle]) (decodeUndefined_nil s)]
    exact runInstrs_encs s.tab X hlook (startPack s) rfl hf rfl
  obtain ⟨t, hpend, -, hbytes, hpad, -⟩ :=
    packSessionComputesPack (X.map .encs) s _ hinv hf hidle (by simp) hrun
      ((faulted_congr _ _ (packBits_flt _ (startPack s))).trans hf)
  rw [hB] at hbytes hpad
  refine ⟨B, t, (refDecode_legal _ hinv.legal B).trans (congrArg some hdec), ?_, hbytes, hpad⟩
  rw [runInstrs_append _ _ _ _ hrun, runInstrs, hpend]
  rfl

/-- Bytes and a padding count whose unpacking decodes to a text, given through a routed unpack session in a decode session,
come out as the text, with no fragment (R138, R139). -/
theorem decode_session_of_bytes {v : State} (hinv : v.Inv) (hf : v.faulted = false) (hun : v.un.uact = false)
    (hde : v.de.dact = false) {p : BitVec 3} {Y : List Byte} {B : Bits} {X : List Sym21}
    (hY : refUnpack Y p.toNat = some B) (hB : refDecode B v.tab.toMap = some (X, [])) :
    ∃ w, runInstrs (.dstart :: .ustart p .decoder :: Y.map .ubyte ++ [.uend, .dend]) v = .next w ∧ w.faulted = false
      ∧ w.out.symOut = v.out.symOut ++ X ∧ w.de.trail = false := by
  have hc : firstFault (checksOf .dstart v) = none := by simp [checksOf, firstFault, hde]
  obtain ⟨u, hrun, huf, hidle⟩ :=
    runInstrs_routed_session (startDecode_keeps_inv hinv) hf hun rfl p Y (by simp [hY])
  have hrun' : runInstrs (.dstart :: (.ustart p .decoder :: Y.map .ubyte ++ [.uend])) v = .next u :=
    (runInstrs_cons_ok .dstart _ v hf hc (decodeUndefined_nil v)).trans hrun
  have hallowed : ∀ i ∈ Instr.ustart p .decoder :: Y.map .ubyte ++ [.uend], i ≠ .dstart ∧ i ≠ .dend ∧ i ≠ .srst := by
    intro i hi
    obtain rfl | ⟨y, -, rfl⟩ | rfl : i = .ustart p .decoder ∨ (∃ y ∈ Y, .ubyte y = i) ∨ i = .uend := by simpa using hi
    all_goals exact ⟨nofun, nofun, nofun⟩
  obtain ⟨X', f, hdecode, hsyms, hdend, -⟩ :=
    decodeSessionComputesDecode _ v u hinv hf hde hallowed hrun' huf (by simp [hidle])
  rw [decoderInput_routed_session, hY, Option.getD_some, hB] at hdecode
  obtain ⟨rfl, rfl⟩ : X = X' ∧ [] = f := by simpa using hdecode
  obtain ⟨w, hw, hwf, hout, -, -, htrail, -⟩ := hdend (.inr rfl)
  refine ⟨w, ?_, hwf, by rw [hout, hsyms], htrail⟩
  have hwhole := runInstrs_append _ [.dend] v u hrun'
  rw [runInstrs, hw] at hwhole
  simpa [runInstrs] using hwhole

/-- Settles O54: the first block's bytes are a packing of bits that decode to the text, unpacking undoes packing, and the
second block decodes the unpacking. -/
theorem machineRoundTrip : Obligations.MachineRoundTrip := by
  intro X s v hs hsf hpact hX hv hvf huact hdact htab
  obtain ⟨B, t, hdecode, hrun, hbytes, hpad⟩ := pack_session_of_text hs hsf hpact X hX
  obtain ⟨w, hrun', hwf, hsyms, htrail⟩ :=
    decode_session_of_bytes (p := t.pk.padcnt) hv hvf huact hdact (hpad ▸ refUnpack_refPack B) (htab ▸ hdecode)
  exact ⟨t, w, (refPack B).1, hrun, hbytes, hrun', hwf, hsyms, htrail⟩

/-! ## Malformed tables (R126) -/

/-- A command that passes its checks and would decode by a table whose codes conflict stops (R126). -/
theorem exec_undefined (i : Instr) (s : State) (hr : runsFaulted i = false) (hf : s.faulted = false)
    (hc : firstFault (checksOf i s) = none) (hd : s.decodeUndefined (decoderBits i s) = true) :
    exec i s = .fault .malformedTable := by
  rw [exec_eq, hr]
  rcases guardedDecode_cases i (checksOf i s) (decoderBits i s) (effectOf i) s with ⟨-, -, -, hg⟩ | ⟨hn, -⟩
  · exact hg
  · exact absurd ⟨hf, hc, hd⟩ hn

/-- From a state that meets the invariant no step stops (R126, R280). -/
theorem State.Inv.step_not_fault {s : State} (h : s.Inv) (r : Fault) : step s ≠ .fault r := by
  unfold step
  rcases nextInput_cases s with ⟨-, hn⟩ | ⟨rest, -, hn⟩ | ⟨cw, rest, -, hn⟩ <;> simp only [hn]
  · nofun
  · nofun
  · unfold stepWord
    cases decode cw with
    | ok i =>
      obtain ⟨t, ht⟩ := exec_answers i (s.setInputs rest) ((h.setInputs rest).decodeDefined _)
      simp [ht]
    | error e => nofun

/-- Bits given to the decoder by a table with two conflicting entries are undefined to decode (R51, R126). -/
theorem decodeUndefined_of_conflict {s : State} {bits : Bits} (hbits : bits ≠ [])
    (htab : ¬ s.tab.entries.Pairwise fun a b => conflicts a.len a.code b.len b.code = false) :
    s.decodeUndefined bits = true := by
  rw [← CodeTable.prefixFree_iff] at htab
  simp [State.decodeUndefined, hbits, htab]

/-- A routed session with a byte held releases at least one bit (R162). -/
theorem routedBits_ne_nil {s : State} (hdst : s.un.udst = .decoder) (hheld : s.un.uholdv = true) {k : Nat}
    (hk : 0 < k) : s.routedBits k ≠ [] := by
  rw [State.routedBits, hheld, hdst, ← List.length_pos_iff]
  simpa using hk

/-- Settles O27: the reference function has no value, the invariant keeps every run from such a table, and the commands
that pass their checks with a bit to decode stop. -/
theorem malformedTableIsNotDecoded : Obligations.MalformedTableIsNotDecoded := by
  refine ⟨fun T B hT => refDecode_illegal T (fun ⟨_, hfree, _⟩ => hT hfree) B,
    fun s h => ⟨h.step_not_fault, fun t ht => ?_⟩, fun s hf htab =>
      ⟨fun n v hpos hle hact hunrouted => ?_, fun hact hdst hheld => ⟨fun b => ?_, ?_⟩⟩⟩
  · obtain ⟨-, hfree, -⟩ := (stepKeepsTheInvariant s t h ht).legal
    exact hfree
  · have hbits : str n.toNat v ≠ [] := List.length_pos_iff.mp (by rw [str_length]; exact hpos)
    exact exec_undefined (.dbits n v) s rfl hf
      ((dbits_checks n v s).mpr ⟨hle, hact, (routed_eq_false_iff _).mpr hunrouted⟩)
      (decodeUndefined_of_conflict hbits htab)
  · exact exec_undefined (.ubyte b) s rfl hf ((ubyte_checks b s).mpr hact)
      (decodeUndefined_of_conflict (routedBits_ne_nil hdst hheld (by decide)) htab)
  · exact exec_undefined .uend s rfl hf ((uend_checks s).mpr ⟨hact, by simp [hheld]⟩)
      (decodeUndefined_of_conflict (routedBits_ne_nil hdst hheld (by omega)) htab)

end Sys2Proof.Machine

/-! # Pack family (41_pack.md): the illegal words, the effect of each command in closed form, and its frame -/

namespace Sys2Proof

/-- A word with a reserved bit of its opcode's format set is illegal (R100 (a)). -/
theorem decode_of_reserved_set (op : Op) {cw : CmdWord} (hop : opField cw = op.code)
    (hset : reservedClear op cw = false) : decode cw = .error .illegalCmd := by
  simp [decode, hop, hset]

end Sys2Proof

namespace Sys2Proof.Machine

/-! ## `PSTART` (R142) -/

theorem exec_pstart_active (s : State) (hf : s.faulted = false) (hact : s.pk.pact = true) :
    exec .pstart s = refusedWith 3 .pstart s :=
  exec_fault .pstart s .seq hf (by simp [checksOf, firstFault, hact])

theorem exec_pstart_idle (s : State) (hf : s.faulted = false) (hidle : s.pk.pact = false) :
    exec .pstart s = .next (startPack s) :=
  exec_ok .pstart s hf (by simp [checksOf, firstFault, hidle]) (decodeUndefined_nil s)

/-- Settles O15. -/
theorem pstartBeginsASession : Obligations.PstartBeginsASession :=
  ⟨rfl, fun _ hop hset => decode_of_reserved_set .pstart hop (beq_eq_false_iff_ne.mpr hset),
    fun s hf => ⟨exec_pstart_active s hf, exec_pstart_idle s hf⟩⟩

/-! ## `PBITS` (R143) -/

theorem exec_pbits_too_long (n : BitVec 6) (v : Word) (s : State) (hf : s.faulted = false) (hn : 32 < n.toNat) :
    exec (.pbits n v) s = refusedWith 2 (.pbits n v) s :=
  exec_fault (.pbits n v) s .badOperand hf (by simp [checksOf, firstFault, (groupCountOk_eq_false_iff n).mpr hn])

theorem exec_pbits_idle (n : BitVec 6) (v : Word) (s : State) (hf : s.faulted = false) (hn : n.toNat ≤ 32)
    (hidle : s.pk.pact = false) : exec (.pbits n v) s = refusedWith 3 (.pbits n v) s :=
  exec_fault (.pbits n v) s .seq hf (by simp [checksOf, firstFault, groupCountOk, hn, hidle])

theorem exec_pbits_active (n : BitVec 6) (v : Word) (s : State) (hf : s.faulted = false) (hn : n.toNat ≤ 32)
    (hact : s.pk.pact = true) : exec (.pbits n v) s = .next (packBits (str n.toNat v) s) :=
  exec_ok (.pbits n v) s hf ((pbits_checks n v s).mpr ⟨hn, hact⟩) (decodeUndefined_nil s)

/-- How many bits stay and how many bytes leave, from the numbers of bits held and given (R143). -/
theorem pending_append_counts (bs : Bits) (s : State) :
    (leftover (s.pk.pending ++ bs)).length = (s.pk.pcnt.toNat + bs.length) % 8
      ∧ (wholeBytes (s.pk.pending ++ bs)).length = (s.pk.pcnt.toNat + bs.length) / 8 := by
  rw [length_leftover, length_wholeBytes, List.length_append, Packer.pending_length]
  exact ⟨rfl, rfl⟩

/-- A group packed whole is its leading bits packed, then its trailing bits (R143). -/
theorem packBits_split (n k : Nat) (v : Word) (s : State) (hk : k ≤ n) :
    packBits (str k v) (packBits (str (n - k) (v >>> k)) s) = packBits (str n v) s := by
  rw [← packBits_append, ← str_append, Nat.sub_add_cancel hk]

/-- In a session two groups one after the other are packed one after the other. -/
theorem runInstrs_two_pbits {n m : BitVec 6} (v w : Word) {s : State} (hf : s.faulted = false) (hact : s.pk.pact = true)
    (hn : n.toNat ≤ 32) (hm : m.toNat ≤ 32) :
    runInstrs [.pbits n v, .pbits m w] s = .next (packBits (str m.toNat w) (packBits (str n.toNat v) s)) := by
  have hf' : (packBits (str n.toNat v) s).faulted = false := (faulted_congr _ _ (packBits_flt _ s)).trans hf
  have hact' : (packBits (str n.toNat v) s).pk.pact = true := (packBits_pact _ s).trans hact
  simp only [runInstrs, exec_pbits_active n v s hf hn hact, exec_pbits_active m w _ hf' hm hact']

/-- Settles O16: the closed form of the packer's loop over the group, and the loop over two groups for the split. -/
theorem pbitsPacksTheGroup : Obligations.PbitsPacksTheGroup := by
  refine ⟨fun _ _ => rfl, fun _ hop hset => decode_of_reserved_set .pbits hop ?_, fun n v s hf =>
    ⟨exec_pbits_too_long n v s hf, exec_pbits_idle n v s hf, fun hn hact hacc => ?_, fun k hact hn hk => ?_⟩⟩
  · simpa only [reservedClear, Bool.and_eq_false_iff, beq_eq_false_iff_ne] using hset
  · obtain ⟨hrest, hbytes⟩ := pending_append_counts (str n.toNat v) s
    rw [exec_pbits_active n v s hf hn hact, packBits_eq _ s hacc, packed, hrest, hbytes, str_length]
    rfl
  · have hsub : (n - k).toNat = n.toNat - k.toNat := BitVec.toNat_sub_of_le hk
    refine ⟨_, exec_pbits_active n v s hf hn hact, ?_⟩
    rw [runInstrs_two_pbits _ _ hf hact (by omega) (by omega), hsub, packBits_split _ _ v s hk]

/-! ## `PEND` (R144) -/

theorem exec_pend_idle (s : State) (hf : s.faulted = false) (hidle : s.pk.pact = false) :
    exec .pend s = refusedWith 3 .pend s :=
  exec_fault .pend s .seq hf (by simp [checksOf, firstFault, hidle])

theorem exec_pend_active (s : State) (hf : s.faulted = false) (hact : s.pk.pact = true) :
    exec .pend s = .next (endPack s) :=
  exec_ok .pend s hf ((pend_checks s).mpr hact) (decodeUndefined_nil s)

/-- The byte `PEND` completes: the bits held, then zeros (R74, R144). -/
theorem pendingByte_eq (p : Packer) :
    p.pacc <<< (8 - p.pcnt.toNat) = byteOf (p.pending ++ List.replicate (8 - p.pcnt.toNat) false) := by
  rw [Packer.pending, ← bin8_shiftLeft _ _ (by omega), byteOf_bin8]

/-- Settles O17: the two branches of `endPack`. -/
theorem pendPadsTheLastByte : Obligations.PendPadsTheLastByte := by
  refine ⟨rfl, fun _ hop hset => decode_of_reserved_set .pend hop (beq_eq_false_iff_ne.mpr hset),
    fun s hf => ⟨exec_pend_idle s hf, fun hact hheld => ?_, fun hact hnone => ?_⟩⟩
  · rw [exec_pend_active s hf hact, endPack, if_pos hheld, pendingByte_eq]
    rfl
  · rw [exec_pend_active s hf hact, endPack, if_neg (not_not.mpr hnone)]
    rfl

/-! ## `ENCS` (R146) -/

theorem exec_encs_idle (sym : Sym21) (s : State) (hf : s.faulted = false) (hidle : s.pk.pact = false) :
    exec (.encs sym) s = refusedWith 3 (.encs sym) s :=
  exec_fault (.encs sym) s .seq hf (by simp [checksOf, firstFault, hidle])

theorem exec_encs_noSymbol (sym : Sym21) (s : State) (hf : s.faulted = false) (hact : s.pk.pact = true)
    (hnone : s.tab.lookupSym sym = none) : exec (.encs sym) s = refusedWith 4 (.encs sym) s :=
  exec_fault (.encs sym) s .noSymbol hf (by simp [checksOf, firstFault, hact, hnone])

/-- The effect is that of `PBITS` of the entry found (R146). -/
theorem exec_encs_found (sym : Sym21) (s : State) (hf : s.faulted = false) (hact : s.pk.pact = true) {e : Entry}
    (he : s.tab.lookupSym sym = some e) : exec (.encs sym) s = .next (packBits (str e.len.toNat e.code) s) := by
  rw [exec_ok (.encs sym) s hf ((encs_checks sym s).mpr ⟨hact, e, he⟩) (decodeUndefined_nil s), effectOf,
    encodedBits, he]

/-- Settles O18: under the invariant the search finds the one entry of the symbol, whose length `PBITS` takes. -/
theorem encsPacksTheCode : Obligations.EncsPacksTheCode := by
  refine ⟨fun _ => rfl, fun _ hop hset => decode_of_reserved_set .encs hop ?_, fun s hinv hf =>
    ⟨fun sym => exec_encs_idle sym s hf,
      fun sym hact hnone => exec_encs_noSymbol sym s hf hact ((s.tab.lookupSym_none sym).mpr hnone),
      fun e he hact => ?_⟩⟩
  · simpa only [reservedClear, Bool.and_eq_false_iff, beq_eq_false_iff_ne] using hset
  · obtain ⟨-, hlen⟩ := hinv.codeLengths e he
    have hfound := s.tab.lookupSym_eq e he hinv.oneCodePerSymbol
    refine ⟨_, exec_encs_found e.sym s hf hact hfound, exec_pbits_active e.len e.code s hf hlen hact,
      (faulted_congr _ _ (packBits_flt _ s)).trans hf, ?_⟩
    rw [packBits_eq _ s hinv.accFits, packed, State.setPk_pk, str_length]

/-! ## The frame of the family (R140) -/

/-- A state with the packer, the bytes emitted and the fault record of another: all that a pack command may write. -/
def State.withPackingOf (s t : State) : State :=
  ((s.setPk t.pk).setOut { s.out with byteOut := t.out.byteOut }).setFlt t.flt

theorem packBits_withPackingOf (bs : Bits) (s : State) : packBits bs s = s.withPackingOf (packBits bs s) := by
  apply State.ext_groups
  case hout => apply Outputs.ext_seqs <;> simp [State.withPackingOf]
  all_goals simp [State.withPackingOf]

theorem endPack_withPackingOf (s : State) : endPack s = s.withPackingOf (endPack s) := by
  unfold endPack; split <;> rfl

/-- Discarded, refused or done, a command of the pack family writes nothing else. -/
theorem exec_pack_withPackingOf (i : Instr) (s t : State) (hpack : isPackCmd i = true) (h : exec i s = .next t) :
    t = s.withPackingOf t := by
  rcases exec_cases i s t h with ⟨-, -, rfl⟩ | ⟨-, -, c, -, rfl⟩ | ⟨-, -, rfl⟩
  · rfl
  · rfl
  · cases i with
    | pstart => rfl
    | pbits n v => exact packBits_withPackingOf _ s
    | pend => exact endPack_withPackingOf s
    | encs sym => exact packBits_withPackingOf _ s
    | _ => exact Bool.noConfusion hpack

/-- What the effect of each command of the family leaves of the packer and of `BYTE_OUT` (R142 to R144, R146). -/
theorem effectOf_pack_keeps (i : Instr) (s : State) (hpack : isPackCmd i = true) :
    (i.op = .pbits ∨ i.op = .encs → (effectOf i s).pk.pact = s.pk.pact ∧ (effectOf i s).pk.pdone = s.pk.pdone
        ∧ (effectOf i s).pk.padcnt = s.pk.padcnt)
      ∧ (i.op = .pend → (effectOf i s).pk.pbitcnt = s.pk.pbitcnt)
      ∧ (i.op = .pstart → (effectOf i s).out.byteOut = s.out.byteOut) := by
  cases i with
  | pstart => exact ⟨by simp [Instr.op], nofun, fun _ => rfl⟩
  | pbits n v => exact ⟨fun _ => ⟨packBits_pact _ s, packBits_pdone _ s, packBits_padcnt _ s⟩, nofun, nofun⟩
  | pend =>
    obtain ⟨-, -, hbits, -⟩ := endPack_flags s
    exact ⟨by simp [Instr.op], fun _ => hbits, nofun⟩
  | encs sym => exact ⟨fun _ => ⟨packBits_pact _ s, packBits_pdone _ s, packBits_padcnt _ s⟩, nofun, nofun⟩
  | _ => exact Bool.noConfusion hpack

/-- Settles O19: the groups no pack command writes, and what each way of being answered leaves of the others. -/
theorem packFrame : Obligations.PackFrame := by
  intro i s t hpack h
  have hw := exec_pack_withPackingOf i s t hpack h
  refine ⟨congrArg (·.cfg) hw, congrArg (·.inputs) hw, congrArg (·.ctl) hw, congrArg (·.un) hw,
    congrArg (·.de) hw, congrArg (·.tab.tcount) hw, fun a => congrArg (·.tab.mem.read a) hw,
    congrArg (·.out.bitOut) hw, congrArg (·.out.symOut) hw, congrArg (·.out.respOut) hw, ?_⟩
  rcases exec_cases i s t h with ⟨-, -, rfl⟩ | ⟨-, -, c, -, rfl⟩ | ⟨-, -, rfl⟩
  · exact ⟨.inl rfl, fun _ => ⟨rfl, rfl, rfl⟩, fun _ => rfl, fun _ => rfl⟩
  · exact ⟨.inr ⟨rfl, rfl⟩, fun _ => ⟨rfl, rfl, rfl⟩, fun _ => rfl, fun _ => rfl⟩
  · exact ⟨.inl (effectOf_flt i s (by rintro rfl; cases hpack)), effectOf_pack_keeps i s hpack⟩

end Sys2Proof.Machine

/-! # Unpack family (42_unpack.md): the illegal words, the effect of each command in closed form, and its frame -/

namespace Sys2Proof.Machine

/-! ## `USTART` (R163) -/

theorem exec_ustart_active (pad : BitVec 3) (dst : Dest) (s : State) (hf : s.faulted = false)
    (hact : s.un.uact = true) : exec (.ustart pad dst) s = refusedWith 3 (.ustart pad dst) s :=
  exec_fault (.ustart pad dst) s .seq hf (by simp [checksOf, firstFault, hact])

/-- A routed session needs a decode session, whether the unpacker is idle or not: both checks of the rule give `SEQ`. -/
theorem exec_ustart_no_decode_session (pad : BitVec 3) (s : State) (hf : s.faulted = false)
    (hdec : s.de.dact = false) : exec (.ustart pad .decoder) s = refusedWith 3 (.ustart pad .decoder) s := by
  refine exec_fault (.ustart pad .decoder) s .seq hf ?_
  cases hact : s.un.uact <;> simp [checksOf, firstFault, hact, hdec]

theorem exec_ustart_idle (pad : BitVec 3) (dst : Dest) (s : State) (hf : s.faulted = false)
    (hidle : s.un.uact = false) (hdec : dst = .decoder → s.de.dact = true) :
    exec (.ustart pad dst) s = .next (startUnpack pad dst s) :=
  exec_ok (.ustart pad dst) s hf ((ustart_checks pad dst s).mpr ⟨hidle, hdec⟩) (decodeUndefined_nil s)

/-- Settles O20. -/
theorem ustartBeginsASession : Obligations.UstartBeginsASession := by
  refine ⟨fun _ _ => rfl, fun _ hop hset => decode_of_reserved_set .ustart hop ?_, fun pad dst s hf =>
    ⟨exec_ustart_active pad dst s hf, ?_, exec_ustart_idle pad dst s hf⟩⟩
  · simpa only [reservedClear, Bool.and_eq_false_iff, beq_eq_false_iff_ne] using hset
  · rintro rfl
    exact exec_ustart_no_decode_session pad s hf

/-! ## The release of the byte held, in closed form (R162) -/

theorem Unpacker.flatMap_held (u : Unpacker) : u.held.flatMap bin8 = if u.uholdv then bin8 u.uhold else [] := by
  cases hheld : u.uholdv <;> simp [Unpacker.held, hheld]

theorem Unpacker.take_flatMap_held (u : Unpacker) (k : Nat) :
    (u.held.flatMap bin8).take k = if u.uholdv then (bin8 u.uhold).take k else [] := by
  rw [Unpacker.flatMap_held]; split <;> simp

/-- The unpacker after a release of `k` bits of the byte held: they are counted, if there is one (R162). -/
def Unpacker.countHeld (k : Nat) (u : Unpacker) : Unpacker :=
  { u with ubitcnt := u.ubitcnt + if u.uholdv then BitVec.ofNat 32 k else 0 }

theorem Unpacker.countHeld_empty (k : Nat) {u : Unpacker} (h : u.uholdv = false) : u.countHeld k = u := by
  rw [countHeld, if_neg (by simp [h])]; simp

theorem Unpacker.countHeld_byte (k : Nat) {u : Unpacker} (h : u.uholdv = true) :
    u.countHeld k = { u with ubitcnt := u.ubitcnt + BitVec.ofNat 32 k } := by simp [countHeld, h]

theorem releaseHeld_empty (k : Nat) {s : State} (h : s.un.uholdv = false) : releaseHeld k s = s := by
  simp [releaseHeld, h]

theorem releaseHeld_byte (k : Nat) {s : State} (h : s.un.uholdv = true) :
    releaseHeld k s = release s.un.uhold k s := by simp [releaseHeld, h]

theorem releaseHeld_eq_unrouted (k : Nat) (s : State) (hk : k ≤ 8) (hdst : s.un.udst = .bitOut) :
    releaseHeld k s = (s.setUn (s.un.countHeld k)).setOut
      { s.out with bitOut := s.out.bitOut ++ (s.un.held.flatMap bin8).take k } := by
  cases hheld : s.un.uholdv with
  | false =>
    rw [releaseHeld_empty k hheld, Unpacker.countHeld_empty k hheld, Unpacker.held_empty hheld,
      List.flatMap_nil, List.take_nil, List.append_nil]
    rfl
  | true =>
    rw [releaseHeld_byte k hheld, release_unrouted _ k s hdst hk, Unpacker.countHeld_byte k hheld,
      Unpacker.held_byte hheld, List.flatMap_singleton]

theorem releaseHeld_eq_routed (k : Nat) (s : State) (hk : k ≤ 8) (hdst : s.un.udst = .decoder) :
    releaseHeld k s = (decodeBits ((s.un.held.flatMap bin8).take k) s).setUn (s.un.countHeld k) := by
  cases hheld : s.un.uholdv with
  | false =>
    rw [releaseHeld_empty k hheld, Unpacker.countHeld_empty k hheld, Unpacker.held_empty hheld,
      List.flatMap_nil, List.take_nil]
    rfl
  | true =>
    rw [releaseHeld_byte k hheld, release_routed _ k s hdst hk, decodeBits_setUn, Unpacker.countHeld_byte k hheld,
      Unpacker.held_byte hheld, List.flatMap_singleton]

/-- Under the invariant the decoder's loop over the bits released is the reference feed (R139, R277). -/
theorem State.Inv.releaseHeld_eq_feedLoop {s : State} (h : s.Inv) (k : Nat) (hk : k ≤ 8)
    (hdst : s.un.udst = .decoder) :
    releaseHeld k s =
      ((s.setOut { s.out with
        symOut := s.out.symOut ++ (feedLoop s.tab s.de ((s.un.held.flatMap bin8).take k)).2 }).setDe
          (feedLoop s.tab s.de ((s.un.held.flatMap bin8).take k)).1).setUn (s.un.countHeld k) := by
  rw [releaseHeld_eq_routed k s hk hdst, decodeBits_eq _ s h.codesOk h.candLen h.candFits]

/-! ## `UBYTE` (R164) -/

theorem exec_ubyte_idle (b : Byte) (s : State) (hf : s.faulted = false) (hidle : s.un.uact = false) :
    exec (.ubyte b) s = refusedWith 3 (.ubyte b) s :=
  exec_fault (.ubyte b) s .seq hf (by simp [checksOf, firstFault, hidle])

theorem exec_ubyte_active (b : Byte) {s : State} (hinv : s.Inv) (hf : s.faulted = false) (hact : s.un.uact = true) :
    exec (.ubyte b) s = .next (holdByte b (releaseHeld 8 s)) :=
  exec_ok (.ubyte b) s hf ((ubyte_checks b s).mpr hact) (hinv.decodeDefined _)

/-- Settles O21: the closed forms of a release of all eight bits, unrouted and routed. -/
theorem ubyteReleasesTheHeldByte : Obligations.UbyteReleasesTheHeldByte := by
  refine ⟨fun _ => rfl, fun _ hop hset => decode_of_reserved_set .ubyte hop (beq_eq_false_iff_ne.mpr hset),
    fun b s hinv hf => ⟨exec_ubyte_idle b s hf, fun hact hdst => ?_, fun hact hdst =>
      ⟨_, _, refFeed_legal _ hinv.legal _ _, ?_⟩⟩⟩
  · rw [exec_ubyte_active b hinv hf hact, releaseHeld_eq_unrouted 8 s le_rfl hdst, take_eight_held,
      Unpacker.flatMap_held]
    rfl
  · rw [exec_ubyte_active b hinv hf hact, hinv.releaseHeld_eq_feedLoop 8 le_rfl hdst, take_eight_held,
      Unpacker.flatMap_held]
    rfl

/-! ## `UEND` (R165) -/

theorem exec_uend_idle (s : State) (hf : s.faulted = false) (hidle : s.un.uact = false) :
    exec .uend s = refusedWith 3 .uend s :=
  exec_fault .uend s .seq hf (by simp [checksOf, firstFault, hidle])

theorem exec_uend_pad (s : State) (hf : s.faulted = false) (hact : s.un.uact = true) (hnone : s.un.uholdv = false)
    (hpad : s.un.upad ≠ 0) : exec .uend s = refusedWith 8 .uend s :=
  exec_fault .uend s .pad hf (by simpa [checksOf, firstFault, hact, hnone] using hpad)

theorem exec_uend_active {s : State} (hinv : s.Inv) (hf : s.faulted = false) (hact : s.un.uact = true)
    (hpad : s.un.uholdv = true ∨ s.un.upad = 0) :
    exec .uend s = .next (closeUnpack (releaseHeld (8 - s.un.upad.toNat) s)) :=
  exec_ok .uend s hf ((uend_checks s).mpr ⟨hact, fun hnone => hpad.resolve_left (Bool.eq_false_iff.mp hnone)⟩)
    (hinv.decodeDefined _)

/-- Settles O22: the closed forms of a release without the padding bits, unrouted and routed. -/
theorem uendDropsThePadding : Obligations.UendDropsThePadding := by
  refine ⟨rfl, fun _ hop hset => decode_of_reserved_set .uend hop (beq_eq_false_iff_ne.mpr hset),
    fun s hinv hf => ⟨exec_uend_idle s hf, exec_uend_pad s hf, fun hact hpad hdst => ?_, fun hact hpad hdst =>
      ⟨_, _, refFeed_legal _ hinv.legal _ _, ?_⟩⟩⟩
  · rw [exec_uend_active hinv hf hact hpad, releaseHeld_eq_unrouted _ s (Nat.sub_le 8 _) hdst,
      Unpacker.take_flatMap_held]
    rfl
  · rw [exec_uend_active hinv hf hact hpad, hinv.releaseHeld_eq_feedLoop _ (Nat.sub_le 8 _) hdst,
      Unpacker.take_flatMap_held]
    rfl

/-! ## The frame of the family (R160) -/

/-- A state with the unpacker, the registers `DecodeBit` writes, the bits and symbols emitted and the fault record of
another: all that an unpack command may write. -/
def State.withUnpackingOf (s t : State) : State :=
  (((s.setUn t.un).setDe { t.de with dact := s.de.dact, ddone := s.de.ddone, trail := s.de.trail }).setOut
    { s.out with bitOut := t.out.bitOut, symOut := t.out.symOut }).setFlt t.flt

theorem release_withUnpackingOf (y : Byte) (k : Nat) (s : State) :
    release y k s = s.withUnpackingOf (release y k s) := by
  apply State.ext_groups
  case hde =>
    show _ = { (release y k s).de with dact := s.de.dact, ddone := s.de.ddone, trail := s.de.trail }
    rw [← release_dact y k s, ← release_ddone y k s, ← release_trail y k s]
  case hout => apply Outputs.ext_seqs <;> simp [State.withUnpackingOf]
  all_goals simp [State.withUnpackingOf]

theorem releaseHeld_withUnpackingOf (k : Nat) (s : State) : releaseHeld k s = s.withUnpackingOf (releaseHeld k s) := by
  cases hheld : s.un.uholdv with
  | false => rw [releaseHeld_empty k hheld]; rfl
  | true => rw [releaseHeld_byte k hheld]; exact release_withUnpackingOf _ k s

/-- Discarded, refused or done, a command of the unpack family writes nothing else. -/
theorem exec_unpack_withUnpackingOf (i : Instr) (s t : State) (hunpack : isUnpackCmd i = true)
    (h : exec i s = .next t) : t = s.withUnpackingOf t := by
  rcases exec_cases i s t h with ⟨-, -, rfl⟩ | ⟨-, -, c, -, rfl⟩ | ⟨-, -, rfl⟩
  · rfl
  · rfl
  · cases i with
    | ustart pad dst => rfl
    | ubyte b => exact congrArg (holdByte b) (releaseHeld_withUnpackingOf 8 s)
    | uend => exact congrArg closeUnpack (releaseHeld_withUnpackingOf _ s)
    | _ => exact Bool.noConfusion hunpack

theorem releaseHeld_routed_bitOut (k : Nat) (s : State) (hk : k ≤ 8) (hdst : s.un.udst = .decoder) :
    (releaseHeld k s).out.bitOut = s.out.bitOut := by
  simp [releaseHeld_eq_routed k s hk hdst]

/-- What the effect of each command of the family leaves of the unpacker, the decoder and the outputs, by the
destination of the session and by the command (R162 to R165). -/
theorem effectOf_unpack_keeps (i : Instr) (s : State) (hunpack : isUnpackCmd i = true) :
    (i.op = .ustart → (effectOf i s).de = s.de ∧ (effectOf i s).out = s.out)
      ∧ (s.un.udst = .bitOut → (effectOf i s).de = s.de ∧ (effectOf i s).out.symOut = s.out.symOut)
      ∧ (s.un.udst = .decoder → (effectOf i s).out.bitOut = s.out.bitOut)
      ∧ (i.op = .ubyte ∨ i.op = .uend → (effectOf i s).un.upad = s.un.upad ∧ (effectOf i s).un.udst = s.un.udst)
      ∧ (i.op = .ubyte → (effectOf i s).un.uact = s.un.uact ∧ (effectOf i s).un.udone = s.un.udone)
      ∧ (i.op = .uend → (effectOf i s).un.ubytecnt = s.un.ubytecnt) := by
  cases i with
  | ustart pad dst =>
    exact ⟨fun _ => ⟨rfl, rfl⟩, fun _ => ⟨rfl, rfl⟩, fun _ => rfl, by simp [Instr.op], nofun, nofun⟩
  | ubyte b =>
    have hun := releaseHeld_un 8 s le_rfl
    exact ⟨nofun, fun hdst => (releaseHeld_unrouted 8 s le_rfl hdst).2, releaseHeld_routed_bitOut 8 s le_rfl,
      fun _ => ⟨congrArg (·.upad) hun, congrArg (·.udst) hun⟩,
      fun _ => ⟨congrArg (·.uact) hun, congrArg (·.udone) hun⟩, nofun⟩
  | uend =>
    have hk := Nat.sub_le 8 s.un.upad.toNat
    have hun := releaseHeld_un _ s hk
    exact ⟨nofun, fun hdst => (releaseHeld_unrouted _ s hk hdst).2, releaseHeld_routed_bitOut _ s hk,
      fun _ => ⟨congrArg (·.upad) hun, congrArg (·.udst) hun⟩, nofun, fun _ => congrArg (·.ubytecnt) hun⟩
  | _ => exact Bool.noConfusion hunpack

/-- Settles O23: the groups no unpack command writes, and what each way of being answered leaves of the others. -/
theorem unpackFrame : Obligations.UnpackFrame := by
  intro i s t hunpack h
  have hw := exec_unpack_withUnpackingOf i s t hunpack h
  refine ⟨congrArg (·.cfg) hw, congrArg (·.inputs) hw, congrArg (·.ctl) hw, congrArg (·.pk) hw,
    congrArg (·.tab.tcount) hw, fun a => congrArg (·.tab.mem.read a) hw, congrArg (·.out.byteOut) hw,
    congrArg (·.out.respOut) hw, congrArg (·.de.dact) hw, congrArg (·.de.ddone) hw, congrArg (·.de.trail) hw, ?_⟩
  rcases exec_cases i s t h with ⟨-, -, rfl⟩ | ⟨-, -, c, -, rfl⟩ | ⟨-, -, rfl⟩
  · exact ⟨.inl rfl, fun _ => ⟨rfl, rfl⟩, fun _ => ⟨rfl, rfl⟩, fun _ => rfl, fun _ => ⟨rfl, rfl⟩,
      fun _ => ⟨rfl, rfl⟩, fun _ => rfl⟩
  · exact ⟨.inr ⟨rfl, rfl, rfl⟩, fun _ => ⟨rfl, rfl⟩, fun _ => ⟨rfl, rfl⟩, fun _ => rfl, fun _ => ⟨rfl, rfl⟩,
      fun _ => ⟨rfl, rfl⟩, fun _ => rfl⟩
  · exact ⟨.inl (effectOf_flt i s (by rintro rfl; cases hunpack)), effectOf_unpack_keeps i s hunpack⟩

end Sys2Proof.Machine

/-! # Decode family (43_decode.md): the illegal words, the effect of each command in closed form, and its frame -/

namespace Sys2Proof.Machine

/-! ## `DSTART` (R183) -/

theorem exec_dstart_active (s : State) (hf : s.faulted = false) (hact : s.de.dact = true) :
    exec .dstart s = refusedWith 3 .dstart s :=
  exec_fault .dstart s .seq hf (by simp [checksOf, firstFault, hact])

/-- No check of the rule reads the table: an empty one is allowed. -/
theorem exec_dstart_idle (s : State) (hf : s.faulted = false) (hidle : s.de.dact = false) :
    exec .dstart s = .next (startDecode s) :=
  exec_ok .dstart s hf (by simp [checksOf, firstFault, hidle]) (decodeUndefined_nil s)

/-- Settles O24. -/
theorem dstartBeginsASession : Obligations.DstartBeginsASession :=
  ⟨rfl, fun _ hop hset => decode_of_reserved_set .dstart hop (beq_eq_false_iff_ne.mpr hset),
    fun s hf => ⟨exec_dstart_active s hf, exec_dstart_idle s hf⟩⟩

/-! ## `DBITS` (R184) -/

theorem exec_dbits_too_long (n : BitVec 6) (v : Word) (s : State) (hf : s.faulted = false) (hn : 32 < n.toNat) :
    exec (.dbits n v) s = refusedWith 2 (.dbits n v) s :=
  exec_fault (.dbits n v) s .badOperand hf (by simp [checksOf, firstFault, (groupCountOk_eq_false_iff n).mpr hn])

theorem exec_dbits_idle (n : BitVec 6) (v : Word) (s : State) (hf : s.faulted = false) (hn : n.toNat ≤ 32)
    (hidle : s.de.dact = false) : exec (.dbits n v) s = refusedWith 3 (.dbits n v) s :=
  exec_fault (.dbits n v) s .seq hf (by simp [checksOf, firstFault, groupCountOk, hn, hidle])

/-- In a routed unpack session both checks after the operand's give `SEQ`, so the decoder's flag does not matter. -/
theorem exec_dbits_routed (n : BitVec 6) (v : Word) (s : State) (hf : s.faulted = false) (hn : n.toNat ≤ 32)
    (hrouted : s.un.routed = true) : exec (.dbits n v) s = refusedWith 3 (.dbits n v) s := by
  refine exec_fault (.dbits n v) s .seq hf ?_
  cases hact : s.de.dact <;> simp [checksOf, firstFault, groupCountOk, hn, hact, hrouted]

theorem exec_dbits_active (n : BitVec 6) (v : Word) {s : State} (hinv : s.Inv) (hf : s.faulted = false)
    (hn : n.toNat ≤ 32) (hact : s.de.dact = true) (hunrouted : s.un.routed = false) :
    exec (.dbits n v) s = .next (decodeBits (str n.toNat v) s) :=
  exec_ok (.dbits n v) s hf ((dbits_checks n v s).mpr ⟨hn, hact, hunrouted⟩) (hinv.decodeDefined _)

/-- A group decoded whole is its leading bits decoded, then its trailing bits (R184). -/
theorem decodeBits_split (n k : Nat) (v : Word) (s : State) (hk : k ≤ n) :
    decodeBits (str k v) (decodeBits (str (n - k) (v >>> k)) s) = decodeBits (str n v) s := by
  rw [← decodeBits_append, ← str_append, Nat.sub_add_cancel hk]

/-- In an unrouted session two groups one after the other are decoded one after the other. -/
theorem runInstrs_two_dbits {n m : BitVec 6} (v w : Word) {s : State} (hinv : s.Inv) (hf : s.faulted = false)
    (hact : s.de.dact = true) (hunrouted : s.un.routed = false) (hn : n.toNat ≤ 32) (hm : m.toNat ≤ 32) :
    runInstrs [.dbits n v, .dbits m w] s = .next (decodeBits (str m.toNat w) (decodeBits (str n.toNat v) s)) := by
  have hf' : (decodeBits (str n.toNat v) s).faulted = false := (faulted_congr _ _ (decodeBits_flt _ s)).trans hf
  have hact' : (decodeBits (str n.toNat v) s).de.dact = true := (decodeBits_dact _ s).trans hact
  have hunrouted' : (decodeBits (str n.toNat v) s).un.routed = false :=
    (congrArg Unpacker.routed (decodeBits_un _ s)).trans hunrouted
  simp only [runInstrs, exec_dbits_active n v hinv hf hn hact hunrouted,
    exec_dbits_active m w (decodeBits_keeps_inv hinv _) hf' hm hact' hunrouted']

/-- Settles O25: under the invariant the decoder's loop over the group is the reference feed, and the loop over two
groups gives the split. -/
theorem dbitsDecodesTheGroup : Obligations.DbitsDecodesTheGroup := by
  refine ⟨fun _ _ => rfl, fun _ hop hset => decode_of_reserved_set .dbits hop ?_, fun n v s hinv hf =>
    ⟨exec_dbits_too_long n v s hf, exec_dbits_idle n v s hf,
      fun hn hact hdst => exec_dbits_routed n v s hf hn (by simp [Unpacker.routed, hact, hdst]),
      fun hn hact hroute => ?_⟩⟩
  · simpa only [reservedClear, Bool.and_eq_false_iff, beq_eq_false_iff_ne] using hset
  have hunrouted : s.un.routed = false := (routed_eq_false_iff s.un).mpr hroute
  have hexec := exec_dbits_active n v hinv hf hn hact hunrouted
  refine ⟨⟨_, _, refFeed_legal _ hinv.legal _ _, ?_⟩, fun k hk => ⟨_, hexec, ?_⟩⟩
  · rw [hexec, decodeBits_eq _ s hinv.codesOk hinv.candLen hinv.candFits]
    rfl
  · have hsub : (n - k).toNat = n.toNat - k.toNat := BitVec.toNat_sub_of_le hk
    rw [runInstrs_two_dbits _ _ hinv hf hact hunrouted (by omega) (by omega), hsub, decodeBits_split _ _ v s hk]

/-! ## `DEND` (R185) -/

theorem exec_dend_idle (s : State) (hf : s.faulted = false) (hidle : s.de.dact = false) :
    exec .dend s = refusedWith 3 .dend s :=
  exec_fault .dend s .seq hf (by simp [checksOf, firstFault, hidle])

theorem exec_dend_routed (s : State) (hf : s.faulted = false) (hrouted : s.un.routed = true) :
    exec .dend s = refusedWith 3 .dend s := by
  refine exec_fault .dend s .seq hf ?_
  cases hact : s.de.dact <;> simp [checksOf, firstFault, hact, hrouted]

/-- In strict mode a fragment is refused (R128, R185). -/
theorem exec_dend_fragment (s : State) (hf : s.faulted = false) (hact : s.de.dact = true)
    (hunrouted : s.un.routed = false) (hstrict : s.ctl.strict = true) (hfragment : s.de.dclen ≠ 0) :
    exec .dend s = refusedWith 9 .dend s :=
  exec_fault .dend s .trailFrag hf (by simpa [checksOf, firstFault, hact, hunrouted, hstrict] using hfragment)

theorem exec_dend_active (s : State) (hf : s.faulted = false) (hact : s.de.dact = true)
    (hunrouted : s.un.routed = false) (hmode : s.ctl.strict = false ∨ s.de.dclen = 0) :
    exec .dend s = .next (endDecode s) :=
  exec_ok .dend s hf
    ((dend_checks s).mpr ⟨hact, hunrouted, fun hstrict => hmode.resolve_left (by simp [hstrict])⟩)
    (decodeUndefined_nil s)

theorem endDecode_eq (s : State) :
    endDecode s = s.setDe { s.de with dact := false, ddone := true, trail := decide (s.de.dclen ≠ 0) } := by
  rw [endDecode, bne, Bool.beq_eq_decide_eq, decide_not]

/-- Settles O28. -/
theorem dendEndsOrRefuses : Obligations.DendEndsOrRefuses := by
  refine ⟨rfl, fun _ hop hset => decode_of_reserved_set .dend hop (beq_eq_false_iff_ne.mpr hset), fun s hf =>
    ⟨exec_dend_idle s hf, fun hact hdst => exec_dend_routed s hf (by simp [Unpacker.routed, hact, hdst]),
      fun hact hroute => ?_⟩⟩
  have hunrouted : s.un.routed = false := (routed_eq_false_iff s.un).mpr hroute
  refine ⟨exec_dend_fragment s hf hact hunrouted, fun hmode => ?_⟩
  rw [exec_dend_active s hf hact hunrouted hmode, endDecode_eq]
  rfl

/-! ## The frame of the family (R180) -/

/-- A state with the decoder, the symbols emitted and the fault record of another: all that a decode command may
write. -/
def State.withDecodingOf (s t : State) : State :=
  ((s.setDe t.de).setOut { s.out with symOut := t.out.symOut }).setFlt t.flt

theorem decodeBits_withDecodingOf (bs : Bits) (s : State) : decodeBits bs s = s.withDecodingOf (decodeBits bs s) := by
  apply State.ext_groups
  case hout => apply Outputs.ext_seqs <;> simp [State.withDecodingOf]
  all_goals simp [State.withDecodingOf]

/-- Discarded, refused or done, a command of the decode family writes nothing else. -/
theorem exec_decode_withDecodingOf (i : Instr) (s t : State) (hdecode : isDecodeCmd i = true)
    (h : exec i s = .next t) : t = s.withDecodingOf t := by
  rcases exec_cases i s t h with ⟨-, -, rfl⟩ | ⟨-, -, c, -, rfl⟩ | ⟨-, -, rfl⟩
  · rfl
  · rfl
  · cases i with
    | dstart => rfl
    | dbits n v => exact decodeBits_withDecodingOf _ s
    | dend => rfl
    | _ => exact Bool.noConfusion hdecode

/-- What the effect of each command of the family leaves of the decoder and of `SYM_OUT` (R183 to R185). -/
theorem effectOf_decode_keeps (i : Instr) (s : State) (hdecode : isDecodeCmd i = true) :
    (i.op = .dbits → (effectOf i s).de.dact = s.de.dact ∧ (effectOf i s).de.ddone = s.de.ddone
        ∧ (effectOf i s).de.trail = s.de.trail)
      ∧ (i.op = .dend → (effectOf i s).de.dcand = s.de.dcand ∧ (effectOf i s).de.dclen = s.de.dclen
        ∧ (effectOf i s).de.dbitcnt = s.de.dbitcnt ∧ (effectOf i s).de.dsymcnt = s.de.dsymcnt)
      ∧ (i.op = .dstart ∨ i.op = .dend → (effectOf i s).out.symOut = s.out.symOut) := by
  cases i with
  | dstart => exact ⟨nofun, nofun, fun _ => rfl⟩
  | dbits n v =>
    exact ⟨fun _ => ⟨decodeBits_dact _ s, decodeBits_ddone _ s, decodeBits_trail _ s⟩, nofun, by simp [Instr.op]⟩
  | dend => exact ⟨nofun, fun _ => ⟨rfl, rfl, rfl, rfl⟩, fun _ => rfl⟩
  | _ => exact Bool.noConfusion hdecode

/-- Settles O29: the groups no decode command writes, and what each way of being answered leaves of the others. -/
theorem decodeFrame : Obligations.DecodeFrame := by
  intro i s t hdecode h
  have hw := exec_decode_withDecodingOf i s t hdecode h
  refine ⟨congrArg (·.cfg) hw, congrArg (·.inputs) hw, congrArg (·.ctl) hw, congrArg (·.pk) hw,
    congrArg (·.un) hw, congrArg (·.tab.tcount) hw, fun a => congrArg (·.tab.mem.read a) hw,
    congrArg (·.out.byteOut) hw, congrArg (·.out.bitOut) hw, congrArg (·.out.respOut) hw, ?_⟩
  rcases exec_cases i s t h with ⟨-, -, rfl⟩ | ⟨-, -, c, -, rfl⟩ | ⟨-, -, rfl⟩
  · exact ⟨.inl rfl, fun _ => ⟨rfl, rfl, rfl⟩, fun _ => ⟨rfl, rfl, rfl, rfl⟩, fun _ => rfl⟩
  · exact ⟨.inr ⟨rfl, rfl⟩, fun _ => ⟨rfl, rfl, rfl⟩, fun _ => ⟨rfl, rfl, rfl, rfl⟩, fun _ => rfl⟩
  · exact ⟨.inl (effectOf_flt i s (by rintro rfl; cases hdecode)), effectOf_decode_keeps i s hdecode⟩

end Sys2Proof.Machine

/-! # Table family (44_table.md): the illegal words, the checks and the effect of each command, and its frame -/

namespace Sys2Proof.Machine

theorem tableLocked_eq_false {s : State} (hpack : s.pk.pact = false) (hdecode : s.de.dact = false) :
    s.tableLocked = false := by simp [State.tableLocked, hpack, hdecode]

/-! ## `TCLR` (R201) -/

/-- The session check is the only one: an empty table is cleared too. -/
theorem exec_tclr_unlocked (s : State) (hf : s.faulted = false) (hunlocked : s.tableLocked = false) :
    exec .tclr s = .next (s.setTab .cleared) :=
  exec_ok .tclr s hf (by simp [checksOf, firstFault, hunlocked]) (decodeUndefined_nil s)

/-- Settles O30. -/
theorem tclrEmptiesTheTable : Obligations.TclrEmptiesTheTable :=
  ⟨rfl, fun _ hop hset => decode_of_reserved_set .tclr hop (beq_eq_false_iff_ne.mpr hset),
    fun s hf => ⟨fun hsession => exec_tclr_locked s ((tableLocked_iff s).mpr hsession) hf,
      fun hpack hdecode => ⟨s.setTab .cleared, exec_tclr_unlocked s hf (tableLocked_eq_false hpack hdecode),
        rfl, rfl, Memory.read_nil, Memory.cleared_wf⟩⟩⟩

/-! ## The checks of `TLD` against the table (R202) -/

/-- The search by symbol finds an entry exactly when a valid entry has that symbol (R145). -/
theorem CodeTable.lookupSym_isSome_iff (t : CodeTable) (sym : Sym21) :
    (t.lookupSym sym).isSome = true ↔ ∃ e ∈ t.entries, e.sym = sym := by
  simp [CodeTable.lookupSym]

/-- The masked code conflicts with the table exactly when the operand's text begins, or begins with, the text of a valid
entry's code (R107; R94: the bits masked off are not in the text). -/
theorem CodeTable.hasConflict_maskCode_iff {t : CodeTable} (ht : t.CodesOk) (len : BitVec 6) (code : Word)
    (hlen : len.toNat ≤ 32) :
    t.hasConflict len (maskCode len code) = true ↔
      ∃ e ∈ t.entries, str e.len.toNat e.code <+: str len.toNat code
        ∨ str len.toNat code <+: str e.len.toNat e.code := by
  rw [CodeTable.hasConflict, List.any_eq_true]
  refine exists_congr fun e => and_congr_right fun he => ?_
  obtain ⟨-, -, hcanonical⟩ := ht e he
  rw [conflicts_iff _ _ _ _ hcanonical (maskCode_lt len code hlen), str_maskCode len code hlen]

theorem exec_tld_bad_length (sym : Sym21) (len : BitVec 6) (code : Word) (s : State) (hf : s.faulted = false)
    (hlen : len.toNat = 0 ∨ 32 < len.toNat) :
    exec (.tld sym len code) s = refusedWith 2 (.tld sym len code) s := by
  have hbad : codeLenOk len = false := by
    rwa [codeLenOk_eq_false_iff, ← BitVec.toNat_inj]
  exact exec_fault _ s .badOperand hf (by simp [checksOf, tldChecks, firstFault, hbad])

section
variable (sym : Sym21) {len : BitVec 6} (code : Word) {s : State} (hf : s.faulted = false)
  (hlen : 1 ≤ len.toNat ∧ len.toNat ≤ 32) (hunlocked : s.tableLocked = false)
include hf hlen hunlocked

/-- A known symbol is refused whatever its code, and whether or not the table is full. -/
theorem exec_tld_known (hknown : (s.tab.lookupSym sym).isSome = true) :
    exec (.tld sym len code) s = refusedWith 5 (.tld sym len code) s :=
  exec_fault _ s .dupSymbol hf (by simp [checksOf, tldChecks, firstFault, codeLenOk, hlen, hunlocked, hknown])

/-- A conflicting code is refused whether or not the table is full. -/
theorem exec_tld_conflict (hfresh : (s.tab.lookupSym sym).isSome = false)
    (hclash : s.tab.hasConflict len (maskCode len code) = true) :
    exec (.tld sym len code) s = refusedWith 6 (.tld sym len code) s :=
  exec_fault _ s .prefixConflict hf
    (by simp [checksOf, tldChecks, firstFault, codeLenOk, hlen, hunlocked, hfresh, hclash])

theorem exec_tld_full (hfresh : (s.tab.lookupSym sym).isSome = false)
    (hfree : s.tab.hasConflict len (maskCode len code) = false) (hfull : s.tab.tcount = s.cfg.ctEntries) :
    exec (.tld sym len code) s = refusedWith 7 (.tld sym len code) s :=
  exec_fault _ s .tableFull hf
    (by simp [checksOf, tldChecks, firstFault, codeLenOk, hlen, hunlocked, hfresh, hfree, hfull])

theorem exec_tld_appends (hfresh : (s.tab.lookupSym sym).isSome = false)
    (hfree : s.tab.hasConflict len (maskCode len code) = false) (hroom : s.tab.tcount ≠ s.cfg.ctEntries) :
    exec (.tld sym len code) s =
      .next (s.setTab (s.tab.append { sym := sym, len := len, code := maskCode len code })) :=
  exec_ok _ s hf
    (by simp [checksOf, tldChecks, firstFault, codeLenOk, hlen, hunlocked, hfresh, hfree, hroom])
    (decodeUndefined_nil s)

end

/-! ## The effect of `TLD` (R202) -/

/-- A table with room can count one more entry (R51, R5). -/
theorem State.Inv.tcount_succ_lt {s : State} (h : s.Inv) (hroom : s.tab.tcount ≠ s.cfg.ctEntries) :
    s.tab.tcount.toNat + 1 < 2 ^ 32 := by
  have hlt : s.tab.tcount.toNat < s.cfg.ctEntries.toNat :=
    lt_of_le_of_ne h.countFits fun heq => hroom (BitVec.eq_of_toNat_eq heq)
  omega

/-- An append adds one pair to the mapping the table stands for (R50). -/
theorem CodeTable.toMap_append (t : CodeTable) (e : Entry) (hwf : t.mem.wf) (h : t.tcount.toNat + 1 < 2 ^ 32) :
    (t.append e).toMap = t.toMap ++ [(e.sym, str e.len.toNat e.code)] := by
  simp only [CodeTable.toMap, t.entries_append e hwf h, List.map_append, List.map_cons, List.map_nil]

/-- Settles O31: a lemma for each check of R202, its conflict test read on code texts, and one for the append. -/
theorem tldAppendsTheEntry : Obligations.TldAppendsTheEntry := by
  refine ⟨fun _ _ _ => rfl, fun _ hop hset => decode_of_reserved_set .tld hop (beq_eq_false_iff_ne.mpr hset),
    fun sym len code s hinv hf => ?_⟩
  intro known clash
  refine ⟨exec_tld_bad_length sym len code s hf, fun hpos hle =>
    ⟨fun hsession => exec_tld_locked sym len code s ((tableLocked_iff s).mpr hsession) hf ⟨hpos, hle⟩,
      fun hpack hdecode => ?_⟩⟩
  have hunlocked := tableLocked_eq_false hpack hdecode
  have hknown : (s.tab.lookupSym sym).isSome = true ↔ known := s.tab.lookupSym_isSome_iff sym
  have hclash : s.tab.hasConflict len (maskCode len code) = true ↔ clash :=
    CodeTable.hasConflict_maskCode_iff hinv.codesOk len code hle
  have hfresh : ¬ known → (s.tab.lookupSym sym).isSome = false := fun h => Bool.eq_false_iff.mpr (mt hknown.mp h)
  have hfree : ¬ clash → s.tab.hasConflict len (maskCode len code) = false :=
    fun h => Bool.eq_false_iff.mpr (mt hclash.mp h)
  refine ⟨fun hk => exec_tld_known sym code hf ⟨hpos, hle⟩ hunlocked (hknown.mpr hk),
    fun hk hc => exec_tld_conflict sym code hf ⟨hpos, hle⟩ hunlocked (hfresh hk) (hclash.mpr hc),
    fun hk hc hfull => exec_tld_full sym code hf ⟨hpos, hle⟩ hunlocked (hfresh hk) (hfree hc) hfull,
    fun hk hc hroom => ⟨_, exec_tld_appends sym code hf ⟨hpos, hle⟩ hunlocked (hfresh hk) (hfree hc) hroom,
      rfl, rfl, Memory.read_write_same _ _ _ hinv.memWf, fun a ha => Memory.read_write_other _ _ _ _ ha, ?_⟩⟩
  rw [State.setTab_tab, CodeTable.toMap_append _ _ hinv.memWf (hinv.tcount_succ_lt hroom), str_maskCode len code hle]

/-! ## The frame of the family (R200) -/

/-- A state with the table and the fault record of another: all that a table command may write. -/
def State.withTableOf (s t : State) : State := (s.setTab t.tab).setFlt t.flt

/-- Discarded, refused or done, a command of the table family writes nothing else. -/
theorem exec_table_withTableOf (i : Instr) (s t : State) (htable : isTableCmd i = true) (h : exec i s = .next t) :
    t = s.withTableOf t := by
  rcases exec_cases i s t h with ⟨-, -, rfl⟩ | ⟨-, -, c, -, rfl⟩ | ⟨-, -, rfl⟩
  · rfl
  · rfl
  · cases i with
    | tclr => rfl
    | tld sym len code => rfl
    | _ => exact Bool.noConfusion htable

/-- The effect of `TLD` writes the table at index `TCOUNT` only. -/
theorem effectOf_tld_read_other (i : Instr) (s : State) (htld : i.op = .tld) (a : Nat) (ha : a ≠ s.tab.tcount.toNat) :
    (effectOf i s).tab.mem.read a = s.tab.mem.read a := by
  cases i with
  | tld sym len code => exact Memory.read_write_other _ _ _ _ ha
  | _ => cases htld

/-- Settles O32: the groups no table command writes, and what each way of being answered leaves of the table. -/
theorem tableFrame : Obligations.TableFrame := by
  intro i s t htable h
  have hw := exec_table_withTableOf i s t htable h
  refine ⟨congrArg (·.cfg) hw, congrArg (·.inputs) hw, congrArg (·.ctl) hw, congrArg (·.pk) hw,
    congrArg (·.un) hw, congrArg (·.de) hw, congrArg (·.out) hw, ?_⟩
  rcases exec_cases i s t h with ⟨-, -, rfl⟩ | ⟨-, -, c, -, rfl⟩ | ⟨-, -, rfl⟩
  · exact ⟨.inl rfl, fun _ _ _ => rfl⟩
  · exact ⟨.inr rfl, fun _ _ _ => rfl⟩
  · exact ⟨.inl (effectOf_flt i s (by rintro rfl; cases htable)), effectOf_tld_read_other i s⟩

end Sys2Proof.Machine

/-! # System family (45_system.md): the illegal words, what each command does, the register views, and the frame -/

namespace Sys2Proof

/-! ## The illegal words of the family (R100) -/

/-- A word of an opcode is illegal when a reserved bit is set, or else its register or value is none the row admits. -/
theorem decode_illegal_of_opcode (op : Op) {cw : CmdWord} (hop : opField cw = op.code)
    (h : reservedClear op cw = true →
      ((op = .rdsr ∨ op = .wrsr) ∧ 0x16 < (regField cw).toNat)
        ∨ (op = .wrsr ∧ regField cw ≠ 0x01 ∧ regField cw ≠ 0x12)
        ∨ (op = .wrsr ∧ regField cw = 0x01 ∧ (valueField cw).extractLsb' 2 30 ≠ 0)) :
    decode cw = .error .illegalCmd := by
  cases hreserved : reservedClear op cw with
  | false => exact decode_of_reserved_set op hop hreserved
  | true =>
    have hrow : cw &&& op.mask = op.matchWord := (matches_iff op cw).mpr ⟨hop, hreserved⟩
    exact (Machine.decode_illegal_row_iff hrow).mpr (h hreserved)

theorem decode_nop_illegal {cw : CmdWord} (hop : opField cw = Op.nop.code) (hne : cw ≠ 0) :
    decode cw = .error .illegalCmd := by
  have hlow : cw.extractLsb' 0 60 ≠ 0 := fun hzero => hne ((eq_formatZ_iff cw Op.nop.code).mpr ⟨hop, hzero⟩)
  exact decode_of_reserved_set .nop hop (beq_eq_false_iff_ne.mpr hlow)

theorem decode_rdsr_illegal {cw : CmdWord} (hop : opField cw = Op.rdsr.code)
    (h : cw.extractLsb' 40 20 ≠ 0 ∨ cw.extractLsb' 0 32 ≠ 0 ∨ 0x16 < (regField cw).toNat) :
    decode cw = .error .illegalCmd := by
  refine decode_illegal_of_opcode .rdsr hop fun hreserved => .inl ⟨.inl rfl, ?_⟩
  simp only [reservedClear, Bool.and_eq_true, beq_iff_eq] at hreserved
  obtain ⟨hhigh, hlow⟩ := hreserved
  exact (h.resolve_left (not_not_intro hhigh)).resolve_left (not_not_intro hlow)

theorem decode_wrsr_illegal {cw : CmdWord} (hop : opField cw = Op.wrsr.code)
    (h : cw.extractLsb' 40 20 ≠ 0 ∨ 0x16 < (regField cw).toNat ∨ (regField cw ≠ 0x01 ∧ regField cw ≠ 0x12)
      ∨ (regField cw = 0x01 ∧ (valueField cw).extractLsb' 2 30 ≠ 0)) :
    decode cw = .error .illegalCmd := by
  refine decode_illegal_of_opcode .wrsr hop fun hreserved => ?_
  have hhigh : cw.extractLsb' 40 20 = 0 := beq_iff_eq.mp hreserved
  rcases h.resolve_left (not_not_intro hhigh) with hreg | hreadOnly | hvalue
  · exact .inl ⟨.inr rfl, hreg⟩
  · exact .inr (.inl ⟨rfl, hreadOnly⟩)
  · exact .inr (.inr ⟨rfl, hvalue⟩)

end Sys2Proof

namespace Sys2Proof.Machine

/-- A faulted block discards a word that is no command (R238). -/
theorem step_bad_word_faulted {s : State} {cw : CmdWord} {rest : List HostInput} {e : DecodeError}
    (hin : s.inputs = .command cw :: rest) (hf : s.faulted = true) (hd : decode cw = .error e) :
    step s = .next (s.setInputs rest) := by
  have hf' : (s.setInputs rest).faulted = true := hf
  simp [step, nextInput, hin, stepWord, hd, raiseFault, hf']

/-! ## `NOP` (R216) -/

/-- Settles O34. -/
theorem nopDoesNothing : Obligations.NopDoesNothing :=
  ⟨decode_encode .nop rfl, fun _ => decode_nop_illegal, fun _ => rfl⟩

/-! ## `SRST` (R217) -/

/-- Settles O35: no other command leaves the faulted state by `exec_keeps_faulted`. -/
theorem srstResetsAllButTheOutputs : Obligations.SrstResetsAllButTheOutputs := by
  refine ⟨rfl, fun cw hop hset => ?_, fun i s t hf h ht => ?_,
    fun s => ⟨softReset s, rfl, rfl, rfl, rfl, rfl, rfl, rfl, rfl, rfl, rfl, Memory.read_nil⟩⟩
  · have hd := decode_of_reserved_set .srst hop (beq_eq_false_iff_ne.mpr hset)
    exact ⟨hd, fun _ _ hin hf => step_bad_word_faulted hin hf hd⟩
  · by_contra hi
    simp [exec_keeps_faulted i s t h hi hf] at ht

/-! ## `RDSR` (R219) -/

/-- Settles O36. -/
theorem rdsrAppendsTheRegister : Obligations.RdsrAppendsTheRegister := by
  refine ⟨fun _ => rfl, fun cw hop hbad => ?_, fun _ _ => rfl⟩
  have hd := decode_rdsr_illegal hop hbad
  exact ⟨hd, fun _ _ hin hf => step_bad_word_faulted hin hf hd⟩

/-! ## `WRSR` (R220) -/

theorem exec_wrsr_ok (r : Reg) (v : Word) (s : State) (hf : s.faulted = false) (hr : writeOk r v = true) :
    exec (.wrsr r v) s = .next (writeReg r v s) :=
  exec_ok _ s hf (by simp [checksOf, firstFault, hr]) (decodeUndefined_nil s)

theorem writeOk_eq_false_of_ne {r : Reg} (v : Word) (hctrl : r ≠ .ctrl) (htidx : r ≠ .tidx) :
    writeOk r v = false := by
  cases r with
  | ctrl => exact absurd rfl hctrl
  | tidx => exact absurd rfl htidx
  | _ => rfl

/-- Settles O37: `writeOk` says of each write whether it is done or refused. -/
theorem wrsrWritesTheTwoRegisters : Obligations.WrsrWritesTheTwoRegisters :=
  ⟨fun _ _ => rfl, fun _ => decode_wrsr_illegal, fun r v s hf => exec_faulted (.wrsr r v) s hf rfl,
    fun v s hf =>
      ⟨fun hv => exec_wrsr_ok .ctrl v s hf (beq_iff_eq.mpr hv), exec_wrsr_ok .tidx v s hf rfl,
        fun hv => exec_wrsr_readOnly .ctrl v s hf (beq_eq_false_iff_ne.mpr hv),
        fun r hctrl htidx => exec_wrsr_readOnly r v s hf (writeOk_eq_false_of_ne v hctrl htidx)⟩⟩

/-! ## The register views (R218) -/

/-- Bit by bit, `CTRL` (R24). -/
theorem ctrlView_getLsbD (s : State) (k : Nat) :
    s.ctrlView.getLsbD k = (decide (k = 1) && s.ctl.fie || decide (k = 0) && s.ctl.strict) := by
  simp (disch := decide) only [State.ctrlView, BitVec.getLsbD_or, getLsbD_flagAt]

/-- A field laid into a register from bit `n` up. -/
theorem getLsbD_fieldAt {w : Nat} (x : BitVec w) (n : Nat) {k : Nat} (hk : k < 32) :
    (x.setWidth 32 <<< n).getLsbD k = (decide (n ≤ k) && x.getLsbD (k - n)) := by
  simp only [BitVec.getLsbD_shiftLeft, BitVec.getLsbD_setWidth, hk, show k - n < 32 by omega, decide_true, Bool.true_and,
    ← decide_not, Nat.not_lt]

/-- Bit by bit, `PSTATE`: `PCNT` from bit 8 up, `PACC` below (R29). -/
theorem Packer.stateView_getLsbD (p : Packer) {k : Nat} (hk : k < 32) :
    p.stateView.getLsbD k = (decide (8 ≤ k) && p.pcnt.getLsbD (k - 8) || p.pacc.getLsbD k) := by
  simp only [stateView, BitVec.getLsbD_or, getLsbD_fieldAt _ _ hk, BitVec.getLsbD_setWidth, hk, decide_true,
    Bool.true_and]

/-- Bit by bit, `USTATE`: `UHOLD` from bit 8 up, `UHOLDV` at bit 4, `UDST` at bit 3, `UPAD` below (R34). -/
theorem Unpacker.stateView_getLsbD (u : Unpacker) {k : Nat} (hk : k < 32) :
    u.stateView.getLsbD k =
      (decide (8 ≤ k) && u.uhold.getLsbD (k - 8) || decide (k = 4) && u.uholdv
        || decide (3 ≤ k) && u.udst.bit.getLsbD (k - 3) || u.upad.getLsbD k) := by
  simp only [stateView, BitVec.getLsbD_or, getLsbD_fieldAt _ _ hk, getLsbD_flagAt u.uholdv 4 k (by decide),
    BitVec.getLsbD_setWidth, hk, decide_true, Bool.true_and]

theorem ctrlView_fields (s : State) :
    s.ctrlView.getLsbD 0 = s.ctl.strict ∧ s.ctrlView.getLsbD 1 = s.ctl.fie ∧ s.ctrlView.extractLsb' 2 30 = 0 := by
  refine ⟨by rw [ctrlView_getLsbD]; simp, by rw [ctrlView_getLsbD]; simp, BitVec.eq_of_getLsbD_eq fun k hk => ?_⟩
  simp [ctrlView_getLsbD, show 2 + k ≠ 1 by omega]

/-- A field of a register is the bits that stand at its place. -/
theorem extractLsb'_eq_of_getLsbD {v : Word} {n w : Nat} {x : BitVec w}
    (h : ∀ k, k < w → v.getLsbD (n + k) = x.getLsbD k) : v.extractLsb' n w = x :=
  BitVec.eq_of_getLsbD_eq fun k hk => by simpa [hk] using h k hk

theorem Packer.stateView_fields (p : Packer) :
    p.stateView.extractLsb' 0 8 = p.pacc ∧ p.stateView.extractLsb' 8 3 = p.pcnt ∧ p.stateView.extractLsb' 11 21 = 0 := by
  refine ⟨?_, ?_, ?_⟩ <;> refine extractLsb'_eq_of_getLsbD fun k hk => ?_ <;> rw [stateView_getLsbD p (by omega)]
  · simp [show ¬ 8 ≤ k by omega]
  · simp
  · simp (disch := omega) [BitVec.getLsbD_of_ge]

theorem Unpacker.stateView_fields (u : Unpacker) :
    u.stateView.extractLsb' 0 3 = u.upad ∧ u.stateView.extractLsb' 3 1 = u.udst.bit
      ∧ u.stateView.getLsbD 4 = u.uholdv ∧ u.stateView.extractLsb' 5 3 = 0
      ∧ u.stateView.extractLsb' 8 8 = u.uhold ∧ u.stateView.extractLsb' 16 16 = 0 := by
  refine ⟨extractLsb'_eq_of_getLsbD fun k hk => ?_, extractLsb'_eq_of_getLsbD fun k hk => ?_, ?_,
    extractLsb'_eq_of_getLsbD fun k hk => ?_, extractLsb'_eq_of_getLsbD fun k hk => ?_,
    extractLsb'_eq_of_getLsbD fun k hk => ?_⟩ <;>
    rw [stateView_getLsbD u (by omega)]
  · simp [show ¬ 8 ≤ k by omega, show k ≠ 4 by omega, show ¬ 3 ≤ k by omega]
  · simp (disch := omega) [BitVec.getLsbD_of_ge, show ¬ 8 ≤ 3 + k by omega, show 3 + k ≠ 4 by omega]
  · simp
  · simp (disch := omega) [BitVec.getLsbD_of_ge, show ¬ 8 ≤ 5 + k by omega, show 5 + k ≠ 4 by omega]
  · simp (disch := omega) [BitVec.getLsbD_of_ge, show 8 + k ≠ 4 by omega]
  · simp (disch := omega) [BitVec.getLsbD_of_ge, show 16 + k ≠ 4 by omega]

/-- Settles O39: two halves of `FCMD` that join, the three registers of several fields, and the elements themselves. -/
theorem registersShowTheState : Obligations.RegistersShowTheState := by
  intro s
  have hfcmd : regRead .fcmdhi s ++ regRead .fcmdlo s = s.flt.fcmd :=
    (extract_join s.flt.fcmd 0 32 32).trans BitVec.extractLsb'_eq_self
  exact ⟨ctrlView_fields s, hfcmd, s.pk.stateView_fields, s.un.stateView_fields, rfl,
    BitVec.toNat_setWidth_of_le (by decide), BitVec.toNat_setWidth_of_le (by decide), rfl, rfl, rfl, rfl, rfl,
    BitVec.toNat_setWidth_of_le (by decide), rfl, rfl, rfl, rfl, rfl⟩

/-! ## The frame of the family (R215) -/

/-- A state with the control registers, the fault record and the responses of another: all that `NOP`, `RDSR` and `WRSR`
may write. -/
def State.withSystemOf (s t : State) : State :=
  ((s.setCtl t.ctl).setFlt t.flt).setOut { s.out with respOut := t.out.respOut }

/-- Discarded, refused or done, the three commands write nothing else. -/
theorem exec_system_withSystemOf (i : Instr) (s t : State) (hop : i.op = .nop ∨ i.op = .rdsr ∨ i.op = .wrsr)
    (h : exec i s = .next t) : t = s.withSystemOf t := by
  rcases exec_cases i s t h with ⟨-, -, rfl⟩ | ⟨-, -, c, -, rfl⟩ | ⟨-, -, rfl⟩
  · rfl
  · rfl
  · cases i with
    | nop => rfl
    | rdsr r => rfl
    | wrsr r v => cases r <;> rfl
    | _ => simp [Instr.op] at hop

/-- `NOP` and `RDSR` raise no fault and write no control register (R216, R219). -/
theorem exec_nop_rdsr_keep_ctl_flt (i : Instr) (s t : State) (hop : i.op = .nop ∨ i.op = .rdsr)
    (h : exec i s = .next t) :
    t.ctl = s.ctl ∧ t.flt = s.flt := by
  cases i with
  | nop => cases h; exact ⟨rfl, rfl⟩
  | rdsr r => cases h; exact ⟨rfl, rfl⟩
  | _ => simp [Instr.op] at hop

/-- Settles O41: the groups none of the three writes, and what each way of being answered leaves of the others. -/
theorem systemFrame : Obligations.SystemFrame := by
  intro i s t hop h
  have hw := exec_system_withSystemOf i s t hop h
  refine ⟨congrArg (·.cfg) hw, congrArg (·.inputs) hw, congrArg (·.pk) hw, congrArg (·.un) hw, congrArg (·.de) hw,
    congrArg (·.tab.tcount) hw, fun a => congrArg (·.tab.mem.read a) hw, congrArg (·.out.byteOut) hw,
    congrArg (·.out.bitOut) hw, congrArg (·.out.symOut) hw, fun hread => exec_nop_rdsr_keep_ctl_flt i s t hread h, ?_⟩
  rcases exec_cases i s t h with ⟨-, -, rfl⟩ | ⟨-, -, c, -, rfl⟩ | ⟨-, -, rfl⟩
  · exact ⟨fun _ => rfl, .inl rfl, fun _ _ => rfl, fun _ _ => ⟨rfl, rfl⟩⟩
  · exact ⟨fun _ => rfl, .inr rfl, fun _ _ => rfl, fun _ _ => ⟨rfl, rfl⟩⟩
  · have hflt : (effectOf i s).flt = s.flt := effectOf_flt i s (by rintro rfl; simp [Instr.op] at hop)
    have hresp : i.op = .nop ∨ i.op = .wrsr → (effectOf i s).out.respOut = s.out.respOut := by
      cases i with
      | nop => exact fun _ => rfl
      | wrsr r v => exact fun _ => congrArg (·.respOut) (writeReg_out r v s)
      | _ => simp [Instr.op]
    exact ⟨hresp, .inl hflt, by rintro v rfl; rfl, by rintro v rfl; exact ⟨rfl, rfl⟩⟩

end Sys2Proof.Machine

/-! # Exceptions (60_exceptions.md): what a fault writes, and what each word does to a faulted and to an unfaulted block -/

namespace Sys2Proof.Machine

/-! ## Entering the fault (R237) -/

/-- A command that faults an unfaulted block writes the fault record, with its own word, and nothing else. -/
theorem exec_enters_fault {i : Instr} {s t : State} (hf : s.faulted = false) (h : exec i s = .next t)
    (ht : t.faulted = true) : ∃ c, t = enterFault c (encode i) s := by
  rcases exec_cases i s t h with ⟨hs, -⟩ | ⟨-, -, c, -, rfl⟩ | ⟨-, -, rfl⟩
  · simp [hf] at hs
  · exact ⟨c, rfl⟩
  · simp [effectOf_unfaulted i s hf] at ht

/-- A step that faults an unfaulted block takes the word from the port and writes the fault record, with the word as
transferred: a command's word is the encoding of the command (R101). -/
theorem step_enters_fault {s t : State} {cw : CmdWord} {rest : List HostInput}
    (hin : s.inputs = .command cw :: rest) (hf : s.faulted = false) (h : step s = .next t) (ht : t.faulted = true) :
    ∃ c, t = enterFault c cw (s.setInputs rest) := by
  cases hd : decode cw with
  | ok i =>
    obtain ⟨hword, -⟩ := encodeOfDecode cw i hd
    rw [step_command s cw rest i hin hd] at h
    rw [← hword]
    exact exec_enters_fault hf h ht
  | error e =>
    rw [step_bad_word hin hf hd] at h
    cases h
    exact ⟨causeOf e, rfl⟩

/-- A block that has taken a fault raises `irq` exactly when `FIE = 1` (R243). -/
theorem enterFault_irq (c : Cause) (cw : CmdWord) (s : State) : (enterFault c cw s).irq = s.ctl.fie := by
  rw [State.irq, enterFault_faulted, Bool.and_true]
  rfl

/-- An unfaulted block keeps `irq` low (R243). -/
theorem irq_unfaulted {s : State} (hf : s.faulted = false) : s.irq = false := by
  rw [State.irq, hf, Bool.and_false]

/-- Settles O10: the state after the step is the one `enterFault` gives. -/
theorem faultIsPrecise : Obligations.FaultIsPrecise := by
  intro s t cw rest hin hf hstep ht
  obtain ⟨c, rfl⟩ := step_enters_fault hin hf hstep ht
  obtain ⟨hne, hle⟩ := c.code_range
  exact ⟨enterFault_irq c cw _, irq_unfaulted hf, c.code, hne, hle, rfl⟩

/-! ## The front end (R238) -/

/-- Settles O11. -/
theorem faultedBlockDiscards : Obligations.FaultedBlockDiscards := exec_faulted

theorem runsFaulted_eq_false {i : Instr} (h : ¬ (i.op = .nop ∨ i.op = .srst ∨ i.op = .rdsr)) :
    runsFaulted i = false := by
  simpa [runsFaulted, and_assoc] using h

/-- Settles O8: a faulted block discards the commands of O11 and the words that decode to none; an unfaulted one records
such a word, and whatever faults it is recorded as `step_enters_fault` says. -/
theorem everyWordPassesTheFrontEnd : Obligations.EveryWordPassesTheFrontEnd := by
  intro s cw rest hin
  refine ⟨fun hf => ⟨fun i hd _ => step_command s cw rest i hin hd, fun i hd hop => ?_,
      fun e hd => step_bad_word_faulted hin hf hd⟩,
    fun hf => ⟨step_bad_word hin hf, step_bad_word hin hf, fun i hd => step_command s cw rest i hin hd,
      fun t hstep ht => ?_⟩⟩
  · rw [step_command s cw rest i hin hd]
    exact exec_faulted i (s.setInputs rest) hf (runsFaulted_eq_false hop)
  · obtain ⟨c, rfl⟩ := step_enters_fault hin hf hstep ht
    exact ⟨c.code, rfl⟩

end Sys2Proof.Machine

/-! # Reset and hazards (70_reset_and_hazards.md): hardware reset, waiting, and what every step answers -/

namespace Sys2Proof.Machine

/-! ## Hardware reset and waiting (R260, R249) -/

/-- A pulse of `rst_n` between two commands is answered with the reset state (R260). -/
theorem step_hwReset {s : State} {rest : List HostInput} (hin : s.inputs = .hwReset :: rest) :
    step s = .next (State.resetWith s.cfg rest) := by
  simp [step, nextInput, hin, hardReset]

/-- With nothing presented the block waits as it is (log 2). -/
theorem step_waits {s : State} (hin : s.inputs = []) : step s = .next s := by
  simp [step, nextInput, hin]

/-- Settles O9. -/
theorem hardwareResetAndWaiting : Obligations.HardwareResetAndWaiting := fun _ =>
  ⟨fun _ => step_hwReset, step_waits⟩

/-! ## The capacity is a parameter (R5) -/

/-- No command writes the capacity. -/
theorem exec_keeps_cfg {i : Instr} {s t : State} (h : exec i s = .next t) : t.cfg = s.cfg := by
  rcases exec_cases i s t h with ⟨-, -, rfl⟩ | ⟨-, -, c, -, rfl⟩ | ⟨-, -, rfl⟩
  · rfl
  · rfl
  · exact (effectOf_cfg_inputs i s).1

/-- Refusing a word leaves the capacity, faulted or not. -/
theorem raiseFault_cfg (c : Cause) (cw : CmdWord) (s : State) : (raiseFault c cw s).cfg = s.cfg := by
  unfold raiseFault
  split <;> rfl

/-- None of the four ways a step can go writes the capacity. -/
theorem step_keeps_cfg {s t : State} (h : step s = .next t) : t.cfg = s.cfg := by
  rcases step_cases s t h with ⟨-, rfl⟩ | ⟨rest, -, rfl⟩ | ⟨-, rest, i, -, -, hexec⟩ | ⟨cw, rest, e, -, -, rfl⟩
  · rfl
  · rfl
  · exact exec_keeps_cfg (s := s.setInputs rest) hexec
  · exact raiseFault_cfg _ cw _

/-! ## Progress (R280, R126) -/

/-- A step answers a next state by itself, or its answer is that of a command. -/
theorem step_next_or_exec (s : State) :
    (∃ t, step s = .next t) ∨ ∃ i rest, step s = exec i (s.setInputs rest) := by
  rcases nextInput_cases s with ⟨hin, -⟩ | ⟨rest, hin, -⟩ | ⟨cw, rest, hin, hnext⟩
  · exact .inl ⟨s, step_waits hin⟩
  · exact .inl ⟨_, step_hwReset hin⟩
  · cases hd : decode cw with
    | ok i => exact .inr ⟨i, rest, step_command s cw rest i hin hd⟩
    | error e => exact .inl ⟨raiseFault (causeOf e) cw (s.setInputs rest), by simp only [step, hnext, stepWord, hd]⟩

/-- No step is refused. -/
theorem step_not_refused (s : State) (r : Refusal) : step s ≠ .refused r := by
  rcases step_next_or_exec s with ⟨t, ht⟩ | ⟨i, rest, hexec⟩
  · simp [ht]
  · rw [hexec]
    exact exec_not_refused i _ r

/-- Decoding is undefined only by a table with two conflicting entries (R51, R126). -/
theorem conflict_of_decodeUndefined {s : State} {bits : Bits} (h : s.decodeUndefined bits = true) :
    ¬ s.tab.entries.Pairwise fun a b => conflicts a.len a.code b.len b.code = false := by
  rw [← CodeTable.prefixFree_iff]
  intro hfree
  simp [decodeUndefined_prefixFree s bits hfree] at h

/-- A step stops only by a table with two conflicting entries: it is a command that would decode by it (R126). -/
theorem step_stops {s : State} {r : Fault} (h : step s = .fault r) :
    ¬ s.tab.entries.Pairwise fun a b => conflicts a.len a.code b.len b.code = false := by
  rcases step_next_or_exec s with ⟨t, ht⟩ | ⟨i, rest, hexec⟩
  · simp [ht] at h
  · obtain ⟨-, -, -, hundefined⟩ := exec_stops i _ r (hexec.symm.trans h)
    exact conflict_of_decodeUndefined hundefined

/-- From a state that meets the invariant a step answers a next state: it neither stops nor is refused. -/
theorem State.Inv.step_answers {s : State} (h : s.Inv) : ∃ t, step s = .next t := by
  cases hstep : step s with
  | next t => exact ⟨t, rfl⟩
  | fault r => exact absurd hstep (h.step_not_fault r)
  | refused r => exact absurd hstep (step_not_refused s r)

/-- Settles O13: the one fault the machine has is the malformed table. -/
theorem everyStepAnswersANextState : Obligations.EveryStepAnswersANextState := fun s =>
  ⟨State.Inv.step_answers, fun _ => step_keeps_cfg, step_not_refused s, fun .malformedTable h => ⟨rfl, step_stops h⟩⟩

end Sys2Proof.Machine
